-- ==== Sys2Proof/Word.lean ====
section
/-! DEFINITION. The widths of the machine's quantities (spec/00_scope.md rule R8, section 6 of that file). -/

namespace Sys2Proof

/-- A received byte, a frame byte or an encoded call byte: 8 bits, bit 7 the most significant (R8). -/
abbrev Byte := BitVec 8

/-- A peer address: 5 bits (R8, R45). -/
abbrev Address := BitVec 5

/-- A call byte's type code: 2 bits, unshifted (R8, R46). -/
abbrev TypeCode := BitVec 2

/-- A protocol version in tenths: 8 bits, unsigned (R8, R60). -/
abbrev Version := BitVec 8

/-- The byte counters `len` and `need`: 5 bits (R8, R10). -/
abbrev Count := BitVec 5

/-- A receive timestamp: an opaque value of `TSW` bits, `TSW` open (R6, D10). Every value of every
width is a natural number and no rule computes with one (R151); notes/assumptions/4.md. DESIGN CHOICE, safe. -/
abbrev Timestamp := Nat

end Sys2Proof
end

