-- ==== Sys2Proof/Machine/Flags.lean ====
section
/-! DEFINITION. The predicates that play the part of flags (spec/10_state.md R18) and the fields of a call
byte they read (spec/30_encoding.md R45, R46). None is stored. -/

namespace Sys2Proof

/-- `pbit(b) = b[7]` (R46). -/
def pbit (b : Byte) : BitVec 1 := b.extractLsb' 7 1

/-- `tc(b) = b[6:5]` (R46). -/
def tc (b : Byte) : TypeCode := b.extractLsb' 5 2

/-- `addr(b) = b[4:0]` (R46). -/
def addr (b : Byte) : Address := b.extractLsb' 0 5

/-- `is_bcast(b)`: the address is zero (R46). -/
def isBcast (b : Byte) : Bool := addr b == 0

/-- The `CALL` word with parity bit `p`, type code `ty` and address `a` (R45). -/
def callByte (p : BitVec 1) (ty : TypeCode) (a : Address) : Byte := p ++ ty ++ a

/-- `popcount8(b)`: the number of 1 bits among all 8 (R8). -/
def popcount8 (b : Byte) : Nat :=
  ((List.range 8).filter (fun i => b.getLsbD i)).length

/-- `parity_valid(b)` (spec/40_call_classifier.md R65), the literal formula of the source
(spec/90_conflicts.md C8): bit 7 agrees with "the whole byte has an even number of 1 bits". -/
def hasValidParity (b : Byte) : Bool :=
  b.getLsbD 7 == (popcount8 b % 2 == 0)

/-- `XOR(xs)`: the exclusive-or of a list of bytes, `0x00` on the empty list (R8). -/
def xorBytes : List Byte → Byte
  | [] => 0
  | b :: bs => b ^^^ xorBytes bs

/-- The predicate of the Checksum Validator on the frame's bytes (spec/43_checksum_validator.md R120): the
exclusive-or of all but the last byte equals the last byte. -/
def checksumHolds (bs : List Byte) : Bool :=
  bs.getLast? == some (xorBytes bs.dropLast)

end Sys2Proof
end

