-- ==== Sys2Proof/Syntax.lean ====
section
/-! DEFINITION. The machine's names, events and instructions. `Instr` has one constructor per row of
spec/opcode_table.json. -/

namespace Sys2Proof

/-- The assembler states of `st` (spec/10_state.md R11, spec/30_encoding.md R55). -/
inductive AsmState where
  | waitingForCall
  | waitingForHeader
  | waitingForIdentifier
  | waitingForData
  | processingData
  | emit
  | fail
  deriving DecidableEq, Repr, Inhabited

/-- CallKind, closed at five (spec/30_encoding.md R53). -/
inductive CallKind where
  | sendRequest
  | requestResend
  | framedMessage
  | broadcastFeedbackPoll
  | unknown
  deriving DecidableEq, Repr, Inhabited

/-- The five failure reasons (spec/60_exceptions.md R135); the reason `None` is `Option.none`. -/
inductive FailReason where
  | parityError
  | unclassifiedCallError
  | noMatchingDefinition
  | ambiguousDefinition
  | checksumError
  deriving DecidableEq, Repr, Inhabited

/-- A CallFrame (spec/10_state.md R12). -/
structure CallFrame where
  kind : CallKind
  addr : Address
  raw : Byte
  ts : Timestamp
  bcast : Bool
  deriving DecidableEq, Repr, Inhabited

/-- The message fields that `carve` cuts from a complete frame (spec/42_frame_assembler.md R108). -/
structure Carved where
  header : Option Byte
  ident : Option Byte
  payload : List Byte
  deriving DecidableEq, Repr, Inhabited

/-- The argument of `raise Fail(reason [, def, m])` (spec/60_exceptions.md R143): the reason with what its
record row of R144 takes from the raising step. A classification failure brings the call byte and its
timestamp, since no CallFrame exists then (R97). -/
inductive FailCause where
  | parityError (b : Byte) (t : Timestamp)
  | unclassifiedCallError (b : Byte) (t : Timestamp)
  | noMatchingDefinition
  | ambiguousDefinition
  | checksumError (i : Nat) (m : Carved)
  deriving DecidableEq, Repr, Inhabited

/-- The result of `classify` (spec/40_call_classifier.md R67): a CallFrame or one of two failures. -/
inductive Classified where
  | frame (f : CallFrame)
  | parityError
  | unclassifiedCallError
  deriving DecidableEq, Repr, Inhabited

/-- The result of `finalize` (spec/41_candidate_filter.md R84). -/
inductive Finalized where
  | unique (i : Nat)
  | noMatchingDefinition
  | ambiguousDefinition
  deriving DecidableEq, Repr, Inhabited

/-- One input event (spec/30_encoding.md R59). -/
inductive Event where
  | reset
  | ver (v : Version)
  | discard
  | byte (b : Byte) (t : Timestamp)
  deriving DecidableEq, Repr, Inhabited

/-- One sample of the input ports (spec/10_state.md R19). -/
structure Ports where
  rst : Bool
  inValid : Bool
  inByte : Byte
  inTs : Timestamp
  verWr : Bool
  verWdata : Version
  discard : Bool
  deriving DecidableEq, Repr, Inhabited

/-- The instructions: the rows of spec/opcode_table.json, in its order. A row of format CALL carries the
fields of its byte that its pattern leaves open and the byte's timestamp `t`. -/
inductive Instr where
  /-- R68, pattern p10aaaaa. -/
  | sendRequest (p : BitVec 1) (a : Address) (t : Timestamp)
  /-- R69, pattern p00aaaaa. -/
  | requestResend (p : BitVec 1) (a : Address) (t : Timestamp)
  /-- R70, pattern p0100000. -/
  | broadcastFeedbackPoll (p : BitVec 1) (t : Timestamp)
  /-- R71, pattern p1100000. -/
  | framedMessageBcast (p : BitVec 1) (t : Timestamp)
  /-- R72, pattern p11aaaaa. -/
  | framedMessageAddr (p : BitVec 1) (a : Address) (t : Timestamp)
  /-- R73, pattern p01aaaaa. -/
  | unknown (p : BitVec 1) (a : Address) (t : Timestamp)
  /-- R74, any call byte that row 7 refuses. -/
  | parityError (p : BitVec 1) (ty : TypeCode) (a : Address) (t : Timestamp)
  /-- R75, any call byte that row 8 refuses (there is none). -/
  | unclassifiedCallError (p : BitVec 1) (ty : TypeCode) (a : Address) (t : Timestamp)
  /-- R65. -/
  | parityValid (b : Byte)
  /-- R67. -/
  | classify (b : Byte) (t : Timestamp)
  /-- R97. -/
  | callStep (b : Byte) (t : Timestamp)
  /-- R98. -/
  | emitCallOnly
  /-- R99. -/
  | unknownCall
  /-- R100. -/
  | framedCall
  /-- R101. -/
  | headerStep (h : Byte)
  /-- R102. -/
  | identifierStep (k : Byte)
  /-- R103. -/
  | enterData
  /-- R104. -/
  | dataStep (d : Byte)
  /-- R105. -/
  | process
  /-- R106: the selected entry and its carved fields. -/
  | emitMessage (i : Nat) (m : Carved)
  /-- R108: the catalog index of the selected definition. -/
  | carve (i : Nat)
  /-- R23. -/
  | clearWork
  /-- R80: on the register `cf`. -/
  | seed
  /-- R81. -/
  | applyHeader (b : Byte)
  /-- R82. -/
  | applyIdentifier (b : Byte)
  /-- R83: on the register `ver`. -/
  | applyVersion
  /-- R84. -/
  | finalize
  /-- R120. -/
  | checksumOk
  /-- R143. -/
  | raiseFail (c : FailCause)
  /-- R127. -/
  | ver (v : Version)
  /-- R128. -/
  | discard
  /-- R129. -/
  | reset
  /-- R96. -/
  | byte (b : Byte) (t : Timestamp)
  deriving DecidableEq, Repr, Inhabited

end Sys2Proof
end

