-- ==== Sys2Proof/Config.lean ====
section
/-! DEFINITION. The implementation parameters of spec/00_scope.md rule R6, but for the catalog
(Sys2Proof/Machine/Catalog.lean). -/

namespace Sys2Proof

/-- `MAXDATA`, the largest data-byte count of one frame (R6, D9). -/
abbrev maxData : Nat := 15

/-- `BUFCAP`, the frame buffer's capacity: header, identifier, `MAXDATA` data bytes, checksum (R6, D9). -/
abbrev bufCap : Nat := 18

/-- `UNKNOWN_POLICY`: what the assembler does after a call byte of kind Unknown (R6, R99, D17). -/
inductive UnknownPolicy where
  | emitCallOnly
  | expectHeader
  deriving DecidableEq, Repr, Inhabited

/-- The default of `UNKNOWN_POLICY` that R6 names; notes/assumptions/3.md. -/
def Config.unknownPolicy : UnknownPolicy := .emitCallOnly

/-- `VER_INIT`, the value of `ver` after reset: OPEN (R6, R22, D7). A constant without a body, so nothing
can be proved of its value; notes/assumptions/1.md. DESIGN CHOICE, safe. -/
opaque Config.verInit : Version

end Sys2Proof
end

