-- ==== Sys2Proof/WellFormed.lean ====
section
/-! DEFINITION. Which terms of `Instr` are instructions of the machine: the column "condition" of
spec/opcode_table.json for the rows of format CALL, and the payload bound for the rows that carry carved
fields. -/

namespace Sys2Proof

/-- A payload has at most `MAXDATA` bytes (spec/10_state.md R20, spec/00_scope.md R6). -/
def Carved.wellFormed (m : Carved) : Bool := decide (m.payload.length ≤ maxData)

/-- A cause of a failure: a parity failure is of a byte whose parity is invalid (R136), a checksum failure
carries a bounded payload. No byte is unclassified (R137). -/
def FailCause.wellFormed : FailCause → Bool
  | .parityError b _ => !hasValidParity b && !(tc b == 3 && isBcast b)
  | .unclassifiedCallError _ _ => false
  | .noMatchingDefinition => true
  | .ambiguousDefinition => true
  | .checksumError _ m => m.wellFormed

/-- Well-formed instructions. A CALL row's byte meets the row's condition (spec/40_call_classifier.md R68 to
R75); no byte meets that of UnclassifiedCallError (R75). -/
def Instr.wellFormed : Instr → Bool
  | .sendRequest p a _ => hasValidParity (callByte p 2 a)
  | .requestResend p a _ => hasValidParity (callByte p 0 a) && a != 0
  | .broadcastFeedbackPoll _ _ => true
  | .framedMessageBcast _ _ => true
  | .framedMessageAddr p a _ => hasValidParity (callByte p 3 a) && a != 0
  | .unknown p a _ => hasValidParity (callByte p 1 a) && a != 0
  | .parityError p ty a _ => !hasValidParity (callByte p ty a) && !(ty == 3 && a == 0)
  | .unclassifiedCallError p ty a _ => hasValidParity (callByte p ty a) && ty == 0 && a == 0
  | .parityValid _ => true
  | .classify _ _ => true
  | .callStep _ _ => true
  | .emitCallOnly => true
  | .unknownCall => true
  | .framedCall => true
  | .headerStep _ => true
  | .identifierStep _ => true
  | .enterData => true
  | .dataStep _ => true
  | .process => true
  | .emitMessage _ m => m.wellFormed
  | .carve _ => true
  | .clearWork => true
  | .seed => true
  | .applyHeader _ => true
  | .applyIdentifier _ => true
  | .applyVersion => true
  | .finalize => true
  | .checksumOk => true
  | .raiseFail c => c.wellFormed
  | .ver _ => true
  | .discard => true
  | .reset => true
  | .byte _ _ => true

end Sys2Proof
end

