-- ==== Sys2Proof/Decode.lean ====
section
/-! DEFINITION. From port signals to instructions and back. A sample of the ports is a list of events
(spec/44_host_events.md R130); an event is an instruction in the assembler state it meets
(spec/42_frame_assembler.md R96), a call byte the row of spec/40_call_classifier.md R67 it falls under. -/

namespace Sys2Proof

/-- Why the decoder refuses: a byte meets ProcessingData, where R96 dispatches none
(spec/93_implementation_defined.md U7). -/
inductive DecodeRefusal where
  | byteInProcessingData
  deriving DecidableEq, Repr

/-- What the decoder answers. -/
inductive Decoded where
  | instr (i : Instr)
  | refused (r : DecodeRefusal)
  deriving DecidableEq, Repr

/-- The row of a call byte: the table of R67 from top to bottom, over the masks of R57. -/
def decodeCall (b : Byte) (t : Timestamp) : Instr :=
  if tc b == 2 && hasValidParity b then .sendRequest (pbit b) (addr b) t
  else if tc b == 0 && hasValidParity b && !isBcast b then .requestResend (pbit b) (addr b) t
  else if tc b == 1 && hasValidParity b && isBcast b then .broadcastFeedbackPoll (pbit b) t
  else if tc b == 3 && isBcast b then .framedMessageBcast (pbit b) t
  else if tc b == 3 && hasValidParity b && !isBcast b then .framedMessageAddr (pbit b) (addr b) t
  else if tc b == 1 && hasValidParity b && !isBcast b then .unknown (pbit b) (addr b) t
  else if !hasValidParity b then .parityError (pbit b) (tc b) (addr b) t
  else .unclassifiedCallError (pbit b) (tc b) (addr b) t

/-- The instruction a BYTE event is in assembler state `st` (R96). -/
def decodeByte (st : AsmState) (b : Byte) (t : Timestamp) : Decoded :=
  match st with
  | .waitingForCall => .instr (decodeCall b t)
  | .emit => .instr (decodeCall b t)
  | .fail => .instr (decodeCall b t)
  | .waitingForHeader => .instr (.headerStep b)
  | .waitingForIdentifier => .instr (.identifierStep b)
  | .waitingForData => .instr (.dataStep b)
  | .processingData => .refused .byteInProcessingData

/-- The instruction an event is in assembler state `st` (R96). -/
def decodeEvent (st : AsmState) : Event → Decoded
  | .reset => .instr .reset
  | .ver v => .instr (.ver v)
  | .discard => .instr .discard
  | .byte b t => decodeByte st b t

/-- The events of one sample of the ports, in the order of R130: `rst` alone wins, else VER, DISCARD, BYTE. -/
def portEvents (p : Ports) : List Event :=
  if p.rst then [.reset]
  else
    (if p.verWr then [.ver p.verWdata] else [])
      ++ (if p.discard then [.discard] else [])
      ++ (if p.inValid then [.byte p.inByte p.inTs] else [])

/-- A sample with no input asserted (R19). -/
def idlePorts : Ports :=
  { rst := false, inValid := false, inByte := 0, inTs := 0, verWr := false, verWdata := 0, discard := false }

/-- The sample that raises one event and no other (R19, R59). -/
def eventPorts : Event → Ports
  | .reset => { idlePorts with rst := true }
  | .ver v => { idlePorts with verWr := true, verWdata := v }
  | .discard => { idlePorts with discard := true }
  | .byte b t => { idlePorts with inValid := true, inByte := b, inTs := t }

/-- The event that presents an instruction at the ports: the byte of its pattern, or the host event. The
sub-operations of a step (format internal) are raised by no port. -/
def encodeEvent : Instr → Option Event
  | .sendRequest p a t => some (.byte (callByte p 2 a) t)
  | .requestResend p a t => some (.byte (callByte p 0 a) t)
  | .broadcastFeedbackPoll p t => some (.byte (callByte p 1 0) t)
  | .framedMessageBcast p t => some (.byte (callByte p 3 0) t)
  | .framedMessageAddr p a t => some (.byte (callByte p 3 a) t)
  | .unknown p a t => some (.byte (callByte p 1 a) t)
  | .parityError p ty a t => some (.byte (callByte p ty a) t)
  | .unclassifiedCallError p ty a t => some (.byte (callByte p ty a) t)
  | .parityValid _ => none
  | .classify _ _ => none
  | .callStep b t => some (.byte b t)
  | .emitCallOnly => none
  | .unknownCall => none
  | .framedCall => none
  | .headerStep h => some (.byte h 0)
  | .identifierStep k => some (.byte k 0)
  | .enterData => none
  | .dataStep d => some (.byte d 0)
  | .process => none
  | .emitMessage _ _ => none
  | .carve _ => none
  | .clearWork => none
  | .seed => none
  | .applyHeader _ => none
  | .applyIdentifier _ => none
  | .applyVersion => none
  | .finalize => none
  | .checksumOk => none
  | .raiseFail _ => none
  | .ver v => some (.ver v)
  | .discard => some .discard
  | .reset => some .reset
  | .byte b t => some (.byte b t)

/-- The word of an instruction: the port sample that presents it. -/
def encode (i : Instr) : Option Ports := (encodeEvent i).map eventPorts

/-- The assembler states in which the decoder names an instruction (the column "condition" of
spec/opcode_table.json). The words of `call_step` and of BYTE are those of the more specific rows, which the
decoder names instead. -/
def fetchedIn (st : AsmState) : Instr → Bool
  | .sendRequest _ _ _ | .requestResend _ _ _ | .broadcastFeedbackPoll _ _ | .framedMessageBcast _ _
  | .framedMessageAddr _ _ _ | .unknown _ _ _ | .parityError _ _ _ _ | .unclassifiedCallError _ _ _ _ =>
    st == .waitingForCall || st == .emit || st == .fail
  | .headerStep _ => st == .waitingForHeader
  | .identifierStep _ => st == .waitingForIdentifier
  | .dataStep _ => st == .waitingForData
  | .ver _ | .discard | .reset => true
  | .parityValid _ | .classify _ _ | .callStep _ _ | .emitCallOnly | .unknownCall | .framedCall | .enterData
  | .process | .emitMessage _ _ | .carve _ | .clearWork | .seed | .applyHeader _ | .applyIdentifier _
  | .applyVersion | .finalize | .checksumOk | .raiseFail _ | .byte _ _ => false

/-- The instruction the decoder reads from a table word: one byte, met where the machine takes a call byte
(as after reset). A row without bits in the table has no word (notes/assumptions/17.md). -/
def decodeTableWord (nbits w : Nat) : Option Instr :=
  if nbits = 8 then
    match decodeByte .waitingForCall (BitVec.ofNat 8 w) 0 with
    | .instr i => some i
    | .refused _ => none
  else none

end Sys2Proof
end

