-- ==== Sys2Proof/Machine/Catalog.lean ====
section
/-! DEFINITION. The Message Definition Catalog, the machine's read-only storage space `CAT`:
the entry record (spec/30_encoding.md R51), well-formedness WF1 to WF8 (spec/20_memory.md R32), integrity
(R33) and the ROM word (R52). -/

namespace Sys2Proof

/-- The call-byte pattern of a definition (R51): 2-bit type code, required parity flag, broadcast flag. -/
structure CallPattern where
  type : TypeCode
  parityRequired : Bool
  broadcast : Bool
  deriving DecidableEq, Repr, Inhabited

/-- `data_length` (R51): a fixed count, or the low nibble of the header. -/
inductive DataLength where
  | fixed (n : Nat)
  | variableLength
  deriving DecidableEq, Repr, Inhabited

/-- A definition's identifier (R49, R51). -/
structure IdPattern where
  value : Byte
  partialMatch : Bool
  plen : Nat
  deriving DecidableEq, Repr, Inhabited

/-- A MessageDefinition (R51). `name` is a label the machine does not interpret. -/
structure MessageDefinition where
  name : String
  cbp : CallPattern
  header : Option Byte
  dataLength : DataLength
  identifier : Option IdPattern
  vmin : Version
  vmax : Version
  requiresChecksum : Bool
  deriving DecidableEq, Repr, Inhabited

/-! ### Well-formedness of one entry (R32). WF1 and WF5 are the field types. -/

/-- WF2: a variable count needs a header. -/
def wf2 (d : MessageDefinition) : Bool :=
  match d.dataLength with
  | .variableLength => d.header.isSome
  | .fixed _ => true

/-- WF3: a fixed count is at most `MAXDATA`. -/
def wf3 (d : MessageDefinition) : Bool :=
  match d.dataLength with
  | .variableLength => true
  | .fixed n => decide (n ≤ maxData)

/-- WF4: a partial identifier has a prefix length of 1 to 7. -/
def wf4 (d : MessageDefinition) : Bool :=
  match d.identifier with
  | none => true
  | some p => !p.partialMatch || (decide (1 ≤ p.plen) && decide (p.plen ≤ 7))

/-- WF6: an entry without a header has no identifier, no data and no checksum. -/
def wf6 (d : MessageDefinition) : Bool :=
  match d.header with
  | none => d.identifier.isNone && d.dataLength == .fixed 0 && !d.requiresChecksum
  | some _ => true

/-- WF7: an entry with a header has a checksum. -/
def wf7 (d : MessageDefinition) : Bool :=
  match d.header with
  | none => true
  | some _ => d.requiresChecksum

/-- WF8: an entry for FramedMessage calls has a header. -/
def wf8 (d : MessageDefinition) : Bool :=
  d.cbp.type != 3 || d.header.isSome

/-- All conditions of R32 on one entry. -/
def entryWf (d : MessageDefinition) : Bool :=
  wf2 d && wf3 d && wf4 d && wf6 d && wf7 d && wf8 d

/-- All conditions of R32 on a catalog. -/
def entriesWf (ds : List MessageDefinition) : Bool :=
  ds.all entryWf

/-- The catalog TOGETHER WITH the proof that it is well-formed, as R32 asks of a model: a catalog that
fails a condition is refused, since no value of this type holds it. `entries` is `all()` of R31, in its
stable order; `NDEF` is its length. -/
structure Catalog where
  entries : List MessageDefinition := []
  wf : entriesWf entries = true := by decide
  deriving DecidableEq, Repr, Inhabited

/-- The decidable check at load time (R32): a well-formed list becomes a catalog, any other is refused. -/
def loadCatalog (ds : List MessageDefinition) : Option Catalog :=
  if h : entriesWf ds = true then some { entries := ds, wf := h } else none

/-- `CATALOG`: OPEN (R6, R31, D8). A constant without a body, so nothing can be proved of its entries
beyond R32; notes/assumptions/2.md. DESIGN CHOICE, safe. -/
opaque Config.catalog : Catalog

/-! ### Integrity (R33): checked offline, not required of the catalog (R161) -/

/-- The significant bits of an identifier (R49): all, or the top `plen` ones. -/
def idMask (p : IdPattern) : Byte :=
  if p.partialMatch then (0xFF : Byte) <<< (8 - p.plen) else 0xFF

/-- The header mask of `coincide` (R33): the high nibble when either entry is Variable. -/
def coincideHeaderMask (d e : MessageDefinition) : Byte :=
  if d.dataLength = .variableLength ∨ e.dataLength = .variableLength then 0xF0 else 0xFF

/-- The header clause of `coincide` (R33). -/
def coincideHeader (d e : MessageDefinition) : Bool :=
  match d.header, e.header with
  | none, none => true
  | some g, some h => (g &&& coincideHeaderMask d e) == (h &&& coincideHeaderMask d e)
  | none, some _ => false
  | some _, none => false

/-- The identifier clause of `coincide` (R33): compared under the intersection of the two masks. -/
def coincideIdentifier (d e : MessageDefinition) : Bool :=
  match d.identifier, e.identifier with
  | none, none => true
  | some p, some q => (p.value &&& (idMask p &&& idMask q)) == (q.value &&& (idMask p &&& idMask q))
  | none, some _ => false
  | some _, none => false

/-- `coincide(d1, d2)` (R33, D11). -/
def coincide (d e : MessageDefinition) : Bool :=
  d.cbp == e.cbp && coincideHeader d e && coincideIdentifier d e

/-- The inclusive ranges `[vmin, vmax]` of two entries share no value (R33, R60). -/
def rangesDisjoint (d e : MessageDefinition) : Bool :=
  decide (d.vmax < d.vmin) || decide (e.vmax < e.vmin) || decide (d.vmax < e.vmin) || decide (e.vmax < d.vmin)

/-- `INTEGRITY(CATALOG)` (R33): coinciding entries have disjoint version ranges. -/
def integrity : List MessageDefinition → Bool
  | [] => true
  | d :: ds => ds.all (fun e => !coincide d e || rangesDisjoint d e) && integrity ds

/-! ### The ROM word (R52) -/

/-- Bits 33 to 30 (R52): the fixed count, 0 when Variable. -/
def romCount : DataLength → BitVec 4
  | .fixed n => BitVec.ofNat 4 n
  | .variableLength => 0

/-- Bits 28 to 21 (R52): the identifier's value, 0 without one. -/
def romIdValue : Option IdPattern → BitVec 8
  | some p => p.value
  | none => 0

/-- Bit 20 (R52): the partial flag, 0 without an identifier. -/
def romIdPartial : Option IdPattern → Bool
  | some p => p.partialMatch
  | none => false

/-- Bits 19 to 17 (R52): the prefix length, 0 when not partial. -/
def romIdLength : Option IdPattern → BitVec 3
  | some p => if p.partialMatch then BitVec.ofNat 3 p.plen else 0
  | none => 0

/-- A catalog entry as its 48-bit ROM word, bits 47 down to 0 in the order of R52's table. -/
def romWord (d : MessageDefinition) : BitVec 48 :=
  d.cbp.type ++ BitVec.ofBool d.cbp.parityRequired ++ BitVec.ofBool d.cbp.broadcast
    ++ BitVec.ofBool d.header.isSome ++ d.header.getD 0
    ++ BitVec.ofBool (d.dataLength == .variableLength) ++ romCount d.dataLength
    ++ BitVec.ofBool d.identifier.isSome ++ romIdValue d.identifier ++ BitVec.ofBool (romIdPartial d.identifier)
    ++ romIdLength d.identifier ++ d.vmin ++ d.vmax ++ BitVec.ofBool d.requiresChecksum

/-- The entry a ROM word stands for (R52). The word holds no name (notes/assumptions/18.md). -/
def romEntry (w : BitVec 48) : MessageDefinition where
  name := ""
  cbp :=
    { type := w.extractLsb' 46 2, parityRequired := w.getLsbD 45, broadcast := w.getLsbD 44 }
  header := if w.getLsbD 43 then some (w.extractLsb' 35 8) else none
  dataLength := if w.getLsbD 34 then .variableLength else .fixed (w.extractLsb' 30 4).toNat
  identifier :=
    if w.getLsbD 29 then
      some { value := w.extractLsb' 21 8, partialMatch := w.getLsbD 20, plen := (w.extractLsb' 17 3).toNat }
    else none
  vmin := w.extractLsb' 9 8
  vmax := w.extractLsb' 1 8
  requiresChecksum := w.getLsbD 0

/-- `DEFIDW` (R6, D21): the least `w` with `2^w >= max(NDEF, 1)`. -/
def defIdWidth (ndef : Nat) : Nat :=
  ((List.range (ndef + 1)).find? (fun w => decide (max ndef 1 ≤ 2 ^ w))).getD ndef

end Sys2Proof
end

