-- ==== Sys2Proof/Machine/Operands.lean ====
section
/-! DEFINITION. How a definition reads the bytes of a call and of a frame: the match predicates of the
Candidate Filter (spec/41_candidate_filter.md R80 to R83) and the length functions (spec/30_encoding.md
R48 to R50). -/

namespace Sys2Proof

/-- `pat_match(d, cf)` (R80, D13). -/
def patMatch (d : MessageDefinition) (f : CallFrame) : Bool :=
  d.cbp.type == tc f.raw && d.cbp.broadcast == f.bcast && (!d.cbp.parityRequired || hasValidParity f.raw)

/-- `hdr_match(d, b)` (R81, R48): no header, or the whole byte equal, or for a Variable definition the
high nibble equal. -/
def hdrMatch (d : MessageDefinition) (b : Byte) : Bool :=
  match d.header with
  | none => true
  | some h =>
    match d.dataLength with
    | .variableLength => (h &&& 0xF0) == (b &&& 0xF0)
    | .fixed _ => h == b

/-- `id_match(d, b)` on a definition's identifier (R82, R49). -/
def idMatch (p : IdPattern) (b : Byte) : Bool :=
  (b &&& idMask p) == (p.value &&& idMask p)

/-- What `apply_identifier(b)` asks of a definition (R82): no identifier, or a match. -/
def idAccepts (d : MessageDefinition) (b : Byte) : Bool :=
  match d.identifier with
  | none => true
  | some p => idMatch p b

/-- `ver_match(d, v)`: unsigned, both ends included (R83, R60). -/
def verMatch (d : MessageDefinition) (v : Version) : Bool :=
  decide (d.vmin ≤ v) && decide (v ≤ d.vmax)

/-- The low nibble `h[3:0]` of a header, an unsigned count (R48). -/
def lowNibble (h : Byte) : Nat := (h.extractLsb' 0 4).toNat

/-- `idlen(d)` (R50). -/
def idlen (d : MessageDefinition) : Nat := if d.identifier.isSome then 1 else 0

/-- `dlen(d, h)` (R50). -/
def dlen (d : MessageDefinition) (h : Byte) : Nat :=
  match d.dataLength with
  | .fixed n => n
  | .variableLength => lowNibble h

/-- `cklen(d)` (R50). -/
def cklen (d : MessageDefinition) : Nat := if d.requiresChecksum then 1 else 0

/-- `flen(d, h)`: the bytes of the frame after the call byte (R50). -/
def flen (d : MessageDefinition) (h : Byte) : Nat := 1 + idlen d + dlen d h + cklen d

/-- A version given as major number and tenths digit, in the register's unit (R60): `10 * major + tenths`.
What the register cannot hold is refused (spec/93_implementation_defined.md U9). -/
def versionOf (major tenths : Nat) : Option Version :=
  if tenths < 10 ∧ 10 * major + tenths < 256 then some (BitVec.ofNat 8 (10 * major + tenths)) else none

end Sys2Proof
end

