-- ==== Sys2Proof/Machine/State.lean ====
section
/-! DEFINITION. The machine's state as plain data (spec/10_state.md R10, spec/20_memory.md R30), the reasons
a step can stop, and the state after reset (R22, R160). -/

namespace Sys2Proof.Machine

/-- The frame buffer `BUF` (R13, R30): the slots that hold a value, addresses strictly rising. A slot that
is not listed holds no value (`Memory.unlisted`, Sys2Proof/Machine/Ops.lean). -/
abbrev Memory := List Host.Cell

/-- The output record (spec/10_state.md R20). `defIdx` is the field `def`, `diag` the field
`diag_ambiguous`. -/
structure OutputRecord where
  ok : Bool
  reason : Option FailReason
  callRaw : Byte
  callTs : Timestamp
  cf : Option CallFrame
  defIdx : Option Nat
  header : Option Byte
  ident : Option Byte
  payload : List Byte
  checksumValid : Bool
  raw : List Byte
  diag : Bool
  deriving DecidableEq, Repr, Inhabited

/-- What a sub-operation, run as an instruction of its own, returns to its caller: the predicates R65 and
R120, `classify` R67, `finalize` R84, `carve` R108 (notes/assumptions/7.md). -/
inductive Returned where
  | flag (b : Bool)
  | classified (c : Classified)
  | finalized (r : Finalized)
  | message (m : Carved)
  deriving DecidableEq, Repr, Inhabited

/-- The state. The first eight fields are the spec's (R10); `cat`, `verInit` and `policy` are the read-only
catalog and the open parameters (R6), which no instruction writes; the last four are the model's interface
(notes/assumptions/5.md, 6.md, 7.md). -/
structure State where
  /-- the assembler state (R11) -/
  st : AsmState
  /-- the fail reason (R17) -/
  fr : Option FailReason
  /-- the CallFrame of the decode in flight (R12) -/
  cf : Option CallFrame
  /-- the candidate set: the survivors' catalog indices, strictly rising (R15) -/
  cand : List Nat
  /-- the frame buffer (R13, R35) -/
  buf : Memory
  /-- the number of valid bytes of `buf` (R13) -/
  len : Count
  /-- the bytes still to collect (R14) -/
  need : Count
  /-- the ProtocolVersionContext (R16) -/
  ver : Version
  /-- the storage space `CAT` (R30, R31) -/
  cat : Catalog
  /-- `VER_INIT` (R6, R129) -/
  verInit : Version
  /-- `UNKNOWN_POLICY` (R6, R99) -/
  policy : UnknownPolicy
  /-- the input samples still to come (R7, R19) -/
  inp : List Ports
  /-- the output port: the record of the step just taken (R20, R56) -/
  out : Option OutputRecord
  /-- the records produced so far, in order: the observation of a run (R7) -/
  log : List OutputRecord
  /-- the value the last sub-operation instruction returned -/
  ret : Option Returned
  deriving DecidableEq, Repr

/-- Why the machine stops. No state reachable from reset raises one (notes/assumptions/10.md). -/
inductive Fault where
  /-- Raised by `seed`, `emit_call_only`, `unknown_call`, `emit_message`, `process` and the failures whose
  record carries a CallFrame, when `cf` is invalid: "its fields are not readable" (R12). Safe: the spec
  gives no effect. -/
  | cfInvalid
  /-- Raised by a read of a slot of `BUF` at or above `len`, or one that holds no value: "unspecified,
  unreadable" (R13, R35, R160). Safe: the spec gives no value. -/
  | bufUnreadable
  /-- Raised by `data_step` writing at an index at or above `BUFCAP`, a slot that does not exist (R30).
  Safe: the spec gives no such slot. -/
  | bufIndex
  /-- Raised by `carve` reading a catalog entry at or above `NDEF`, which does not exist (R8, R30).
  Safe: the spec gives no such entry. -/
  | catIndex
  deriving DecidableEq, Repr

/-- Why the model gives no meaning. -/
inductive Refusal where
  /-- Raised by an arm of `exec` that has no meaning yet; there is none. Safe: nothing is claimed. -/
  | notModelled (mnemonic : String)
  /-- Raised by a BYTE event met while `st = ProcessingData`, a code `st` never holds between steps: "if
  forced, behaviour is not specified", treatment "refuse" (spec/93_implementation_defined.md U7).
  Safe: the spec gives no effect. -/
  | transientState
  deriving DecidableEq, Repr

/-- The machine right after reset (R22, R160): every register empty, `ver = VER_INIT`; the open parameters
at their constants of Config; no input yet. -/
def State.reset : State where
  st := .waitingForCall
  fr := none
  cf := none
  cand := []
  buf := []
  len := 0
  need := 0
  ver := Config.verInit
  cat := Config.catalog
  verInit := Config.verInit
  policy := Config.unknownPolicy
  inp := []
  out := none
  log := []
  ret := none

end Sys2Proof.Machine
end

