-- ==== Sys2Proof/Machine/Ops.lean ====
section
/-! DEFINITION. The operations the meanings share: reads and writes of the registers and of the two storage
spaces, the candidate set, the output record, the failure entry (the machine's exception,
spec/60_exceptions.md R143) and the fresh start of a decode (its return, R145). -/

namespace Sys2Proof.Machine

/-- What a meaning answers. -/
abbrev Result := Host.Outcome State Fault Refusal

/-- Go on with the value of a read, or stop with its fault. -/
def withRead {α : Type} (x : Except Fault α) (k : α → Result) : Result :=
  match x with
  | .ok a => k a
  | .error f => .fault f

/-! ### The frame buffer as a memory -/

/-- What a slot of `BUF` reads as when nothing is listed for it: no value ("unspecified and unreadable",
spec/70_reset_and_hazards.md R160); notes/assumptions/9.md. -/
def Memory.unlisted : Option Byte := none

/-- The value a slot holds. -/
def Memory.read : Memory → Nat → Option Byte
  | [], _ => Memory.unlisted
  | (k, b) :: m, a => if k = a then some b else Memory.read m a

/-- `MemWrite(BUF, a, b)` (spec/00_scope.md R8), keeping the addresses rising. -/
def Memory.write : Memory → Nat → Byte → Memory
  | [], a, b => [(a, b)]
  | (k, c) :: m, a, b =>
    if a < k then (a, b) :: (k, c) :: m
    else if a = k then (a, b) :: m
    else (k, c) :: Memory.write m a b

/-- The canonical form: addresses strictly rising, each a slot of `BUF` (R30). No listed entry can equal
what an unlisted slot reads as, since that is no value. -/
abbrev Memory.wf (m : Memory) : Prop :=
  (m.map (fun c => c.1)).Pairwise (fun a b => a < b) ∧ ∀ c ∈ m, c.1 < bufCap

/-- `buf[a]`: readable below `len` only (R13, R35). -/
def readSlot (s : State) (a : Nat) : Except Fault Byte :=
  if a < s.len.toNat then
    match s.buf.read a with
    | some b => .ok b
    | none => .error .bufUnreadable
  else .error .bufUnreadable

/-- `buf[a .. a+n-1]`. -/
def readSpan (s : State) (a : Nat) : Nat → Except Fault (List Byte)
  | 0 => .ok []
  | n + 1 =>
    match readSlot s a with
    | .error f => .error f
    | .ok b =>
      match readSpan s (a + 1) n with
      | .error f => .error f
      | .ok bs => .ok (b :: bs)

/-- `buf[0 .. len-1]`. -/
def frameBytes (s : State) : Except Fault (List Byte) := readSpan s 0 s.len.toNat

/-- Store a frame byte at index `a` and make `a + 1` the number of valid bytes: `MemWrite(BUF, a, b);
len <- a + 1` (R35, R101, R102, R104). An index at or above `BUFCAP` is no slot. -/
def storeByte (a : Nat) (b : Byte) (s : State) : Except Fault State :=
  if a < bufCap then .ok { s with buf := s.buf.write a b, len := BitVec.ofNat 5 (a + 1) }
  else .error .bufIndex

/-! ### Registers and catalog -/

/-- The CallFrame register; not readable while invalid (R12). -/
def readCf (s : State) : Except Fault CallFrame :=
  match s.cf with
  | some f => .ok f
  | none => .error .cfInvalid

/-- `MemRead(CAT, i)`, `0 <= i < NDEF` (R8). -/
def readEntry (s : State) (i : Nat) : Except Fault MessageDefinition :=
  match s.cat.entries[i]? with
  | some d => .ok d
  | none => .error .catIndex

/-- `clear_work()` (spec/10_state.md R23). -/
def clearWork (s : State) : State :=
  { s with cf := none, cand := [], buf := [], len := 0, need := 0 }

/-- `emit(record)`: the record stands on the output port and joins the observation of the run
(spec/10_state.md R20, spec/00_scope.md R7). -/
def deliver (r : OutputRecord) (s : State) : State :=
  { s with out := some r, log := s.log ++ [r] }

/-- Hand the value of a sub-operation to its caller (notes/assumptions/7.md). -/
def answer (v : Returned) (s : State) : State :=
  { s with ret := some v }

/-! ### The candidate set (spec/41_candidate_filter.md) -/

/-- A predicate on the definition an index names; an index that names none satisfies no predicate
(notes/assumptions/8.md). -/
def entryHolds (c : Catalog) (P : MessageDefinition → Bool) (i : Nat) : Bool :=
  match c.entries[i]? with
  | some d => P d
  | none => false

/-- `seed(cf)`: all entries that match the call byte (R80). -/
def seedSet (c : Catalog) (f : CallFrame) : List Nat :=
  (List.range c.entries.length).filter (entryHolds c (fun d => patMatch d f))

/-- `apply_header(b)` (R81). -/
def headerSet (c : Catalog) (b : Byte) (cand : List Nat) : List Nat :=
  cand.filter (entryHolds c (fun d => hdrMatch d b))

/-- `apply_identifier(b)` (R82). -/
def identifierSet (c : Catalog) (b : Byte) (cand : List Nat) : List Nat :=
  cand.filter (entryHolds c (fun d => idAccepts d b))

/-- `apply_version(v)` (R83). -/
def versionSet (c : Catalog) (v : Version) (cand : List Nat) : List Nat :=
  cand.filter (entryHolds c (fun d => verMatch d v))

/-- `finalize()` (R84): by the number of members, never by catalog order. -/
def finalizeSet : List Nat → Finalized
  | [] => .noMatchingDefinition
  | [i] => .unique i
  | _ :: _ :: _ => .ambiguousDefinition

/-- `exists i in cand with CAT[i].identifier != None` (R101). -/
def someIdentifier (c : Catalog) (cand : List Nat) : Bool :=
  cand.any (entryHolds c (fun d => d.identifier.isSome))

/-- The frame lengths of the survivors under header `h` (R50, R61). -/
def candLengths (c : Catalog) (h : Byte) (cand : List Nat) : List Nat :=
  cand.filterMap (fun i => (c.entries[i]?).map (fun d => flen d h))

/-- Whether survivors agree on the frame length (R103). -/
inductive Agreement where
  | empty
  | common (n : Nat)
  | mixed
  deriving DecidableEq, Repr

/-- The test "all i in cand have the same flen(CAT[i], h)" (R103). -/
def agreement : List Nat → Agreement
  | [] => .empty
  | n :: ns => if ns.all (fun k => k == n) then .common n else .mixed

/-! ### The output records (spec/10_state.md R20, spec/60_exceptions.md R144) -/

/-- The call-only record of R98. -/
def callOnlyRecord (f : CallFrame) : OutputRecord where
  ok := true
  reason := none
  callRaw := f.raw
  callTs := f.ts
  cf := some f
  defIdx := none
  header := none
  ident := none
  payload := []
  checksumValid := true
  raw := []
  diag := false

/-- The record of an emitted framed message (R106). -/
def messageRecord (f : CallFrame) (i : Nat) (m : Carved) (raw : List Byte) : OutputRecord where
  ok := true
  reason := none
  callRaw := f.raw
  callTs := f.ts
  cf := some f
  defIdx := some i
  header := m.header
  ident := m.ident
  payload := m.payload
  checksumValid := true
  raw := raw
  diag := false

/-- The Fail record of a call byte that did not classify (R144 rows 1 and 2, D25). -/
def callFailRecord (r : FailReason) (b : Byte) (t : Timestamp) : OutputRecord where
  ok := false
  reason := some r
  callRaw := b
  callTs := t
  cf := none
  defIdx := none
  header := none
  ident := none
  payload := []
  checksumValid := false
  raw := []
  diag := false

/-- The Fail record of a frame without a unique definition (R144 rows 3 and 4); `diag_ambiguous` is set for
AmbiguousDefinition only (R150). -/
def frameFailRecord (r : FailReason) (f : CallFrame) (raw : List Byte) : OutputRecord where
  ok := false
  reason := some r
  callRaw := f.raw
  callTs := f.ts
  cf := some f
  defIdx := none
  header := none
  ident := none
  payload := []
  checksumValid := false
  raw := raw
  diag := r == .ambiguousDefinition

/-- The Fail record of a bad checksum, which carries the message (R144 row 5, R140). -/
def checksumFailRecord (f : CallFrame) (i : Nat) (m : Carved) (raw : List Byte) : OutputRecord where
  ok := false
  reason := some .checksumError
  callRaw := f.raw
  callTs := f.ts
  cf := some f
  defIdx := some i
  header := m.header
  ident := m.ident
  payload := m.payload
  checksumValid := false
  raw := raw
  diag := false

/-- The reason of a cause (R135). -/
def failReason : FailCause → FailReason
  | .parityError _ _ => .parityError
  | .unclassifiedCallError _ _ => .unclassifiedCallError
  | .noMatchingDefinition => .noMatchingDefinition
  | .ambiguousDefinition => .ambiguousDefinition
  | .checksumError _ _ => .checksumError

/-- The frame as it stands: the CallFrame and the bytes collected so far, as a record needs them (R143). -/
def readFrame (s : State) : Except Fault (CallFrame × List Byte) :=
  match readCf s with
  | .error e => .error e
  | .ok f =>
    match frameBytes s with
    | .error e => .error e
    | .ok bs => .ok (f, bs)

/-- The record a failure entry forms, before the working state is cleared (R143, R144). -/
def failRecord (s : State) : FailCause → Except Fault OutputRecord
  | .parityError b t => .ok (callFailRecord .parityError b t)
  | .unclassifiedCallError b t => .ok (callFailRecord .unclassifiedCallError b t)
  | .noMatchingDefinition => (readFrame s).map (fun p => frameFailRecord .noMatchingDefinition p.1 p.2)
  | .ambiguousDefinition => (readFrame s).map (fun p => frameFailRecord .ambiguousDefinition p.1 p.2)
  | .checksumError i m => (readFrame s).map (fun p => checksumFailRecord p.1 i m p.2)

/-! ### Taking a failure and returning from one -/

/-- The state a failure leaves: the record emitted, the working state cleared, `fr <- reason`, `st <- Fail`
(spec/60_exceptions.md R143). -/
def failOutcome (r : OutputRecord) (c : FailCause) (s : State) : State :=
  { clearWork (deliver r s) with fr := some (failReason c), st := .fail }

/-- TAKING AN EXCEPTION. The failure entry `Fail(reason [, def, m])` (spec/60_exceptions.md R143): form the
record of R144, then leave the state of `failOutcome`. -/
def raiseFail (c : FailCause) (s : State) : Result :=
  withRead (failRecord s c) fun r => .next (failOutcome r c s)

/-- RETURNING FROM ONE. Every call byte starts a fresh decode, whatever the outcome before it was:
`clear_work(); fr <- None` (R145, R97). -/
def freshDecode (s : State) : State :=
  { clearWork s with fr := none }

/-- The fresh decode of a call byte that classified: `cf <- r; seed(cf)` (R97). -/
def beginDecode (f : CallFrame) (s : State) : State :=
  { freshDecode s with cf := some f, cand := seedSet s.cat f }

/-- Abandoning a decode: `clear_work(); fr <- None; st <- WaitingForCall` (spec/44_host_events.md R128, R129). -/
def backToCall (s : State) : State :=
  { clearWork s with fr := none, st := .waitingForCall }

/-- The outcome Emit: emit the record, clear the working state, `st <- Emit` (R98, R106). -/
def emitOutcome (r : OutputRecord) (s : State) : State :=
  { clearWork (deliver r s) with st := .emit }

end Sys2Proof.Machine
end

