-- ==== Sys2Proof/Machine/Checksum.lean ====
section
/-! DEFINITION. The Checksum Validator (spec/43_checksum_validator.md). -/

namespace Sys2Proof.Machine

/-- `checksum_ok()` on `buf[0 .. len-1]` (R120). Without a byte there is no `buf[len-1]` to read
(notes/assumptions/13.md). -/
def checksumOk (s : State) : Except Fault Bool :=
  if s.len.toNat = 0 then .error .bufUnreadable else (frameBytes s).map checksumHolds

/-- `checksum_ok()` as an instruction (R120): writes no register, returns its result. -/
def execChecksumOk (s : State) : Result :=
  withRead (checksumOk s) fun v => .next (answer (.flag v) s)

end Sys2Proof.Machine
end

