-- ==== Sys2Proof/Machine/Filter.lean ====
section
/-! DEFINITION. The Candidate Filter's five operations as instructions (spec/41_candidate_filter.md). -/

namespace Sys2Proof.Machine

/-- `seed(cf)` on the register `cf` (R80): overwrites `cand`. -/
def execSeed (s : State) : Result :=
  withRead (readCf s) fun f => .next { s with cand := seedSet s.cat f }

/-- `apply_header(b)` (R81). -/
def execApplyHeader (b : Byte) (s : State) : Result :=
  .next { s with cand := headerSet s.cat b s.cand }

/-- `apply_identifier(b)` (R82). -/
def execApplyIdentifier (b : Byte) (s : State) : Result :=
  .next { s with cand := identifierSet s.cat b s.cand }

/-- `apply_version(v)` with the `ver` of this step (R83). -/
def execApplyVersion (s : State) : Result :=
  .next { s with cand := versionSet s.cat s.ver s.cand }

/-- `finalize()` (R84): writes no register, returns its result. -/
def execFinalize (s : State) : Result :=
  .next (answer (.finalized (finalizeSet s.cand)) s)

end Sys2Proof.Machine
end

