-- ==== Sys2Proof/Machine/Assembler.lean ====
section
/-! DEFINITION. The Frame Assembler (spec/42_frame_assembler.md): the operations its steps share, then its
steps and sub-operations as instructions, but for the call-byte step
(Sys2Proof/Machine/Classifier.lean). -/

namespace Sys2Proof.Machine

/-! ### Shared operations -/

/-- `carve(d)` (R108) with `h = buf[0]`. -/
def carveFields (d : MessageDefinition) (s : State) : Except Fault Carved :=
  match readSlot s 0 with
  | .error e => .error e
  | .ok h =>
    match (if d.identifier.isSome then (readSlot s 1).map some else .ok none) with
    | .error e => .error e
    | .ok ident =>
      match readSpan s (1 + idlen d) (dlen d h) with
      | .error e => .error e
      | .ok payload => .ok { header := if d.header.isSome then some h else none, ident := ident, payload := payload }

/-- `emit_call_only()` (R98). -/
def callOnlyOutcome (s : State) : Result :=
  withRead (readCf s) fun f => .next (emitOutcome (callOnlyRecord f) s)

/-- `emit_message(i, m)` (R106). -/
def messageOutcome (i : Nat) (m : Carved) (s : State) : Result :=
  withRead (readFrame s) fun p => .next (emitOutcome (messageRecord p.1 i m p.2) s)

/-- `unknown_call()` (R99). -/
def unknownOutcome (s : State) : Result :=
  match s.policy with
  | .emitCallOnly => callOnlyOutcome s
  | .expectHeader => .next { s with st := .waitingForHeader }

/-- The end of `process()` (R105) once one definition has survived: carve, check the checksum where the
definition asks for it (R121), and emit or fail. -/
def judgeMessage (i : Nat) (s : State) : Result :=
  withRead (readEntry s i) fun d =>
    withRead (carveFields d s) fun m =>
      if d.requiresChecksum then
        withRead (checksumOk s) fun good =>
          if good then messageOutcome i m s else raiseFail (.checksumError i m) s
      else messageOutcome i m s

/-- `process()` (R105): the transient state ProcessingData, `apply_version(ver)`, `finalize()`. -/
def processFrame (s : State) : Result :=
  let s1 := { s with st := .processingData, cand := versionSet s.cat s.ver s.cand }
  match finalizeSet s1.cand with
  | .noMatchingDefinition => raiseFail .noMatchingDefinition s1
  | .ambiguousDefinition => raiseFail .ambiguousDefinition s1
  | .unique i => judgeMessage i s1

/-- The end of `enter_data()` (R103) once the frame length `n` is known. -/
def commitLength (n : Nat) (s : State) : Result :=
  if n < s.len.toNat then raiseFail .noMatchingDefinition s
  else if n = s.len.toNat then processFrame s
  else .next { s with need := BitVec.ofNat 5 (n - s.len.toNat), st := .waitingForData }

/-- `enter_data()` (R103). An empty set is NoMatchingDefinition wherever it is met (R34, R138;
notes/assumptions/12.md). -/
def enterDataPhase (s : State) : Result :=
  withRead (readSlot s 0) fun h =>
    match agreement (candLengths s.cat h s.cand) with
    | .empty => raiseFail .noMatchingDefinition s
    | .common n => commitLength n s
    | .mixed =>
      let s1 := { s with cand := versionSet s.cat s.ver s.cand }
      match agreement (candLengths s1.cat h s1.cand) with
      | .empty => raiseFail .noMatchingDefinition s1
      | .mixed => raiseFail .ambiguousDefinition s1
      | .common n => commitLength n s1

/-- `header_step(b)` (R101): emptiness is tested first (spec/90_conflicts.md C5). -/
def takeHeader (b : Byte) (s : State) : Result :=
  withRead (storeByte 0 b s) fun s0 =>
    let s1 := { s0 with cand := headerSet s0.cat b s0.cand }
    if s1.cand = [] then raiseFail .noMatchingDefinition s1
    else if someIdentifier s1.cat s1.cand then .next { s1 with st := .waitingForIdentifier }
    else enterDataPhase s1

/-- `identifier_step(b)` (R102). -/
def takeIdentifier (b : Byte) (s : State) : Result :=
  withRead (storeByte 1 b s) fun s0 =>
    let s1 := { s0 with cand := identifierSet s0.cat b s0.cand }
    if s1.cand = [] then raiseFail .noMatchingDefinition s1 else enterDataPhase s1

/-- `data_step(b)` (R104). -/
def takeData (b : Byte) (s : State) : Result :=
  withRead (storeByte s.len.toNat b s) fun s0 =>
    let s1 := { s0 with need := s0.need - 1 }
    if s1.need = 0 then processFrame s1 else .next s1

/-! ### The meanings -/

/-- `emit_call_only` (R98). -/
def execEmitCallOnly (s : State) : Result := callOnlyOutcome s

/-- `unknown_call` (R99). -/
def execUnknownCall (s : State) : Result := unknownOutcome s

/-- `framed_call` (R100): whatever the size of the seeded set. -/
def execFramedCall (s : State) : Result := .next { s with st := .waitingForHeader }

/-- `header_step` (R101). -/
def execHeaderStep (h : Byte) (s : State) : Result := takeHeader h s

/-- `identifier_step` (R102). -/
def execIdentifierStep (k : Byte) (s : State) : Result := takeIdentifier k s

/-- `enter_data` (R103). -/
def execEnterData (s : State) : Result := enterDataPhase s

/-- `data_step` (R104). -/
def execDataStep (d : Byte) (s : State) : Result := takeData d s

/-- `process` (R105). -/
def execProcess (s : State) : Result := processFrame s

/-- `emit_message` (R106). -/
def execEmitMessage (i : Nat) (m : Carved) (s : State) : Result := messageOutcome i m s

/-- `carve` (R108) for the definition at catalog index `i`: writes no register, returns the fields. -/
def execCarve (i : Nat) (s : State) : Result :=
  withRead (readEntry s i) fun d =>
    withRead (carveFields d s) fun m => .next (answer (.message m) s)

/-- `clear_work` (R23). -/
def execClearWork (s : State) : Result := .next (clearWork s)

/-- `raise_Fail` (R143). -/
def execRaiseFail (c : FailCause) (s : State) : Result := raiseFail c s

end Sys2Proof.Machine
end

