-- ==== Sys2Proof/Machine/Classifier.lean ====
section
/-! DEFINITION. The Call Classifier (spec/40_call_classifier.md) and the call-byte step that uses it
(spec/42_frame_assembler.md R97): the rows of format CALL, `parity_valid`, `classify`, `call_step`. -/

namespace Sys2Proof.Machine

/-! ### Shared operations -/

/-- The CallFrame of a byte that classified as `kind` (R76). -/
def callFrame (kind : CallKind) (b : Byte) (t : Timestamp) : CallFrame where
  kind := kind
  addr := addr b
  raw := b
  ts := t
  bcast := isBcast b

/-- `classify(b, t)` (R67): the eight rows, top to bottom. -/
def classifyCall (b : Byte) (t : Timestamp) : Classified :=
  if tc b = 2 ∧ hasValidParity b then .frame (callFrame .sendRequest b t)
  else if tc b = 0 ∧ hasValidParity b ∧ ¬ isBcast b then .frame (callFrame .requestResend b t)
  else if tc b = 1 ∧ hasValidParity b ∧ isBcast b then .frame (callFrame .broadcastFeedbackPoll b t)
  else if tc b = 3 ∧ isBcast b then .frame (callFrame .framedMessage b t)
  else if tc b = 3 ∧ hasValidParity b ∧ ¬ isBcast b then .frame (callFrame .framedMessage b t)
  else if tc b = 1 ∧ hasValidParity b ∧ ¬ isBcast b then .frame (callFrame .unknown b t)
  else if ¬ hasValidParity b then .parityError
  else .unclassifiedCallError

/-- The call-byte step for a byte that classified (R97): a fresh decode, `cf`, `seed`, then the branch of the
kind. -/
def acceptCall (f : CallFrame) (s : State) : Result :=
  match f.kind with
  | .sendRequest => callOnlyOutcome (beginDecode f s)
  | .requestResend => callOnlyOutcome (beginDecode f s)
  | .broadcastFeedbackPoll => callOnlyOutcome (beginDecode f s)
  | .unknown => unknownOutcome (beginDecode f s)
  | .framedMessage => .next { beginDecode f s with st := .waitingForHeader }

/-- The call-byte step for a byte that did not classify (R97): a fresh decode, then the failure entry. -/
def rejectCall (c : FailCause) (s : State) : Result := raiseFail c (freshDecode s)

/-- `call_step(b, t)` (R97). -/
def takeCall (b : Byte) (t : Timestamp) (s : State) : Result :=
  match classifyCall b t with
  | .frame f => acceptCall f s
  | .parityError => rejectCall (.parityError b t) s
  | .unclassifiedCallError => rejectCall (.unclassifiedCallError b t) s

/-! ### The meanings -/

/-- SendRequest (R68): the call-byte step of a byte of this row. -/
def execSendRequest (p : BitVec 1) (a : Address) (t : Timestamp) (s : State) : Result :=
  acceptCall (callFrame .sendRequest (callByte p 2 a) t) s

/-- RequestResend (R69). -/
def execRequestResend (p : BitVec 1) (a : Address) (t : Timestamp) (s : State) : Result :=
  acceptCall (callFrame .requestResend (callByte p 0 a) t) s

/-- BroadcastFeedbackPoll (R70): the address is 0. -/
def execBroadcastFeedbackPoll (p : BitVec 1) (t : Timestamp) (s : State) : Result :=
  acceptCall (callFrame .broadcastFeedbackPoll (callByte p 1 0) t) s

/-- FramedMessage, broadcast form (R71): parity relaxed, the address is 0. -/
def execFramedMessageBcast (p : BitVec 1) (t : Timestamp) (s : State) : Result :=
  acceptCall (callFrame .framedMessage (callByte p 3 0) t) s

/-- FramedMessage, addressed form (R72). -/
def execFramedMessageAddr (p : BitVec 1) (a : Address) (t : Timestamp) (s : State) : Result :=
  acceptCall (callFrame .framedMessage (callByte p 3 a) t) s

/-- Unknown, the reserved kind (R73, R99). -/
def execUnknown (p : BitVec 1) (a : Address) (t : Timestamp) (s : State) : Result :=
  acceptCall (callFrame .unknown (callByte p 1 a) t) s

/-- ParityError (R74, R136). -/
def execParityError (p : BitVec 1) (ty : TypeCode) (a : Address) (t : Timestamp) (s : State) : Result :=
  rejectCall (.parityError (callByte p ty a) t) s

/-- UnclassifiedCallError (R75, R137): "were it reached". -/
def execUnclassifiedCallError (p : BitVec 1) (ty : TypeCode) (a : Address) (t : Timestamp) (s : State) : Result :=
  rejectCall (.unclassifiedCallError (callByte p ty a) t) s

/-- `parity_valid` (R65): writes no register, returns the predicate. -/
def execParityValid (b : Byte) (s : State) : Result :=
  .next (answer (.flag (hasValidParity b)) s)

/-- `classify` (R67, R77): writes no register, returns its result. -/
def execClassify (b : Byte) (t : Timestamp) (s : State) : Result :=
  .next (answer (.classified (classifyCall b t)) s)

/-- `call_step` (R97). -/
def execCallStep (b : Byte) (t : Timestamp) (s : State) : Result := takeCall b t s

end Sys2Proof.Machine
end

