-- ==== Sys2Proof/Machine/HostEvents.lean ====
section
/-! DEFINITION. The host events (spec/44_host_events.md) and BYTE, the dispatch on `st`
(spec/42_frame_assembler.md R96). -/

namespace Sys2Proof.Machine

/-- `VER(v)` (R127): `ver` only. -/
def execVer (v : Version) (s : State) : Result := .next { s with ver := v }

/-- `DISCARD` (R128). -/
def execDiscard (s : State) : Result :=
  .next (backToCall s)

/-- `RESET` (R129): as DISCARD, and `ver <- VER_INIT`. -/
def execReset (s : State) : Result :=
  .next { backToCall s with ver := s.verInit }

/-- `BYTE(b, t)` (R96). The timestamp is used by the call-byte step only. ProcessingData is dispatched
nowhere (spec/93_implementation_defined.md U7; notes/assumptions/11.md). -/
def execByte (b : Byte) (t : Timestamp) (s : State) : Result :=
  match s.st with
  | .waitingForCall => takeCall b t s
  | .emit => takeCall b t s
  | .fail => takeCall b t s
  | .waitingForHeader => takeHeader b s
  | .waitingForIdentifier => takeIdentifier b s
  | .waitingForData => takeData b s
  | .processingData => .refused .transientState

end Sys2Proof.Machine
end

