-- ==== Sys2Proof/Machine/Dispatch.lean ====
section
/-! DEFINITION. What an instruction does: one arm per row of spec/opcode_table.json. -/

namespace Sys2Proof.Machine

def exec (i : Instr) (s : State) : Host.Outcome State Fault Refusal :=
  match i with
  | .sendRequest p a t => Sys2Proof.Machine.execSendRequest p a t s
  | .requestResend p a t => Sys2Proof.Machine.execRequestResend p a t s
  | .broadcastFeedbackPoll p t => Sys2Proof.Machine.execBroadcastFeedbackPoll p t s
  | .framedMessageBcast p t => Sys2Proof.Machine.execFramedMessageBcast p t s
  | .framedMessageAddr p a t => Sys2Proof.Machine.execFramedMessageAddr p a t s
  | .unknown p a t => Sys2Proof.Machine.execUnknown p a t s
  | .parityError p ty a t => Sys2Proof.Machine.execParityError p ty a t s
  | .unclassifiedCallError p ty a t => Sys2Proof.Machine.execUnclassifiedCallError p ty a t s
  | .parityValid b => Sys2Proof.Machine.execParityValid b s
  | .classify b t => Sys2Proof.Machine.execClassify b t s
  | .callStep b t => Sys2Proof.Machine.execCallStep b t s
  | .emitCallOnly => Sys2Proof.Machine.execEmitCallOnly s
  | .unknownCall => Sys2Proof.Machine.execUnknownCall s
  | .framedCall => Sys2Proof.Machine.execFramedCall s
  | .headerStep h => Sys2Proof.Machine.execHeaderStep h s
  | .identifierStep k => Sys2Proof.Machine.execIdentifierStep k s
  | .enterData => Sys2Proof.Machine.execEnterData s
  | .dataStep d => Sys2Proof.Machine.execDataStep d s
  | .process => Sys2Proof.Machine.execProcess s
  | .emitMessage k m => Sys2Proof.Machine.execEmitMessage k m s
  | .carve k => Sys2Proof.Machine.execCarve k s
  | .clearWork => Sys2Proof.Machine.execClearWork s
  | .seed => Sys2Proof.Machine.execSeed s
  | .applyHeader b => Sys2Proof.Machine.execApplyHeader b s
  | .applyIdentifier b => Sys2Proof.Machine.execApplyIdentifier b s
  | .applyVersion => Sys2Proof.Machine.execApplyVersion s
  | .finalize => Sys2Proof.Machine.execFinalize s
  | .checksumOk => Sys2Proof.Machine.execChecksumOk s
  | .raiseFail c => Sys2Proof.Machine.execRaiseFail c s
  | .ver v => Sys2Proof.Machine.execVer v s
  | .discard => Sys2Proof.Machine.execDiscard s
  | .reset => Sys2Proof.Machine.execReset s
  | .byte b t => Sys2Proof.Machine.execByte b t s

end Sys2Proof.Machine
end

