-- ==== Sys2Proof/Machine/Fetch.lean ====
section
/-! DEFINITION. Running the events of one port sample: each is decoded in the assembler state it meets and
executed before the next (spec/42_frame_assembler.md R96, spec/44_host_events.md R130). -/

namespace Sys2Proof.Machine

/-- One event (R96): the instruction it is in the present assembler state. -/
def runEvent (e : Event) (s : State) : Result :=
  match decodeEvent s.st e with
  | .instr i => exec i s
  | .refused .byteInProcessingData => .refused .transientState

/-- The events of one sample, in their order (R130). -/
def runEvents : List Event → State → Result
  | [], s => .next s
  | e :: es, s =>
    match runEvent e s with
    | .next t => runEvents es t
    | .fault f => .fault f
    | .refused r => .refused r

/-- One step on the port sample `p` (R19, R130). The output port shows a record only in the step that
produces it (R20, R56), so it is cleared first. -/
def stepPorts (p : Ports) (s : State) : Result :=
  runEvents (portEvents p) { s with out := none }

/-- One step without any sample left: no input is asserted and the state does not change (R19, R152); the
output port shows no record. -/
def stepIdle (s : State) : Result :=
  .next { s with out := none }

/-- Whether the next byte is taken as a call byte (R11). -/
def atCallPosition (st : AsmState) : Bool :=
  st == .waitingForCall || st == .emit || st == .fail

/-- The state in which `b`, presented at timestamp 0, is the next input and is taken as a call byte
(notes/assumptions/5.md). -/
def presentCallByte (b : Byte) (s : State) : State :=
  { s with
    st := if atCallPosition s.st then s.st else .waitingForCall
    inp := eventPorts (.byte b 0) :: s.inp }

end Sys2Proof.Machine
end

