-- ==== Sys2Proof/Machine/Step.lean ====
section
/-! DEFINITION. One step of the machine (spec/00_scope.md R7, spec/10_state.md R19): the next port sample is
taken from the environment's list and run. -/

namespace Sys2Proof.Machine

/-- One atomic step (R19, R38, R96). -/
def step (s : State) : Host.Outcome State Fault Refusal :=
  match s.inp with
  | [] => stepIdle s
  | p :: ps => stepPorts p { s with inp := ps }

/-- The state whose next step runs the instruction of a table word: the byte stands on the input port and is
taken as a call byte. A row without bits has no word (notes/assumptions/17.md). -/
def State.withFetchWord (s : State) (nbits w : Nat) : State :=
  if nbits = 8 then presentCallByte (BitVec.ofNat 8 w) s else s

end Sys2Proof.Machine
end

