-- ==== Sys2Proof/Machine/Codes.lean ====
section
/-! DEFINITION. The numeric codes of spec/30_encoding.md R53 (CallKind), R54 (fail reasons) and R55 (`st`), and
their inverses: an unused code names nothing (spec/93_implementation_defined.md U7). -/

namespace Sys2Proof.Machine

/-- R53. -/
def kindCode : CallKind → BitVec 3
  | .sendRequest => 0
  | .requestResend => 1
  | .framedMessage => 2
  | .broadcastFeedbackPoll => 3
  | .unknown => 4

/-- R53: codes 5, 6 and 7 are not used. -/
def kindOfCode (c : BitVec 3) : Option CallKind :=
  if c = 0 then some .sendRequest
  else if c = 1 then some .requestResend
  else if c = 2 then some .framedMessage
  else if c = 3 then some .broadcastFeedbackPoll
  else if c = 4 then some .unknown
  else none

/-- R54: code 0 is `None`. -/
def reasonCode : Option FailReason → BitVec 3
  | none => 0
  | some .parityError => 1
  | some .unclassifiedCallError => 2
  | some .noMatchingDefinition => 3
  | some .ambiguousDefinition => 4
  | some .checksumError => 5

/-- R54: codes 6 and 7 are not used; the outer `none` says so. -/
def reasonOfCode (c : BitVec 3) : Option (Option FailReason) :=
  if c = 0 then some none
  else if c = 1 then some (some .parityError)
  else if c = 2 then some (some .unclassifiedCallError)
  else if c = 3 then some (some .noMatchingDefinition)
  else if c = 4 then some (some .ambiguousDefinition)
  else if c = 5 then some (some .checksumError)
  else none

/-- R55. -/
def stCode : AsmState → BitVec 3
  | .waitingForCall => 0
  | .waitingForHeader => 1
  | .waitingForIdentifier => 2
  | .waitingForData => 3
  | .processingData => 4
  | .emit => 5
  | .fail => 6

/-- R55: code 7 is not used. -/
def stOfCode (c : BitVec 3) : Option AsmState :=
  if c = 0 then some .waitingForCall
  else if c = 1 then some .waitingForHeader
  else if c = 2 then some .waitingForIdentifier
  else if c = 3 then some .waitingForData
  else if c = 4 then some .processingData
  else if c = 5 then some .emit
  else if c = 6 then some .fail
  else none

end Sys2Proof.Machine
end

