-- ==== Sys2Proof/Machine/Port.lean ====
section
/-! DEFINITION. The output port (spec/30_encoding.md R56): the record of `State.out` as signals, and `st` and
`fr` as levels. A signal with a valid bit is an Option; entries at or beyond a length are not held
(spec/93_implementation_defined.md U8). -/

namespace Sys2Proof.Machine

/-- The signals that are valid in the step that produces a record (R56). -/
structure OutSignals where
  outOk : BitVec 1
  outReason : BitVec 3
  outCallRaw : Byte
  outCallTs : Timestamp
  outCfValid : BitVec 1
  outKind : BitVec 3
  outAddr : Address
  outBcast : BitVec 1
  outDef : Option Nat
  outHdr : Option Byte
  outId : Option Byte
  outPayloadLen : BitVec 4
  outPayload : List Byte
  outChecksumValid : BitVec 1
  outRawLen : BitVec 5
  outRaw : List Byte
  diagAmbiguous : BitVec 1
  deriving DecidableEq, Repr

/-- The output port: `signals = none` is `out_valid = 0` (R56). -/
structure OutPort where
  signals : Option OutSignals
  st : BitVec 3
  fr : BitVec 3
  deriving DecidableEq, Repr

/-- The signals of one record (R56). `out_kind` is 0 while `cf` is invalid; `out_addr` equals
`out_call_raw[4:0]`, and `out_bcast` says whether it is zero. -/
def recordSignals (r : OutputRecord) : OutSignals where
  outOk := BitVec.ofBool r.ok
  outReason := reasonCode r.reason
  outCallRaw := r.callRaw
  outCallTs := r.callTs
  outCfValid := BitVec.ofBool r.cf.isSome
  outKind := match r.cf with | some f => kindCode f.kind | none => 0
  outAddr := match r.cf with | some f => f.addr | none => r.callRaw.extractLsb' 0 5
  outBcast := BitVec.ofBool (match r.cf with | some f => f.bcast | none => r.callRaw.extractLsb' 0 5 == 0)
  outDef := r.defIdx
  outHdr := r.header
  outId := r.ident
  outPayloadLen := BitVec.ofNat 4 r.payload.length
  outPayload := r.payload
  outChecksumValid := BitVec.ofBool r.checksumValid
  outRawLen := BitVec.ofNat 5 r.raw.length
  outRaw := r.raw
  diagAmbiguous := BitVec.ofBool r.diag

/-- What the environment sees after a step (R19, R20, R56). -/
def outPort (s : State) : OutPort where
  signals := s.out.map recordSignals
  st := stCode s.st
  fr := reasonCode s.fr

end Sys2Proof.Machine
end

