-- ==== Sys2Proof/Safety.lean ====
section
/-! DEFINITION. The terms the statements use: the working state, the invariant of spec/10_state.md R24, what a
record may hold (R20, spec/60_exceptions.md R144), strong integrity (spec/20_memory.md R33), and frames. -/

namespace Sys2Proof.Machine

/-- What `clear_work()` leaves (R23): the working state of no decode. -/
def WorkClear (s : State) : Prop :=
  s.cf = none ∧ s.cand = [] ∧ s.buf = [] ∧ s.len = 0 ∧ s.need = 0

/-- The catalog and the open parameters are those of `s` (R31 "never mutated", R6). -/
def SameMachine (s t : State) : Prop :=
  t.cat = s.cat ∧ t.verInit = s.verInit ∧ t.policy = s.policy

/-- The model's interface but for the output: the input still to come and the returned value. -/
def SameInterface (s t : State) : Prop :=
  t.inp = s.inp ∧ t.ret = s.ret

/-- No record was produced. -/
def NoRecord (s t : State) : Prop :=
  t.out = s.out ∧ t.log = s.log

/-- Exactly the record `r` was produced (R20): it stands on the output port and ends the observation. -/
def Produced (r : OutputRecord) (s t : State) : Prop :=
  t.out = some r ∧ t.log = s.log ++ [r]

/-- The candidate set is a set of catalog indices, each listed once and in order (R15). -/
def CandWf (s : State) : Prop :=
  s.cand.Pairwise (fun i j => i < j) ∧ ∀ i ∈ s.cand, i < s.cat.entries.length

/-- The slots of `BUF` that hold a value are exactly those below `len` (R13). -/
def BufWf (s : State) : Prop :=
  s.buf.map (fun c => c.1) = List.range s.len.toNat

/-- Every survivor `d` satisfies `P d`. -/
def EverySurvivor (s : State) (P : MessageDefinition → Prop) : Prop :=
  ∀ i ∈ s.cand, ∀ d, s.cat.entries[i]? = some d → P d

/-- `st` is one of the three states in which the next byte is a call byte (R11). -/
def AtCall (s : State) : Prop :=
  s.st = .waitingForCall ∨ s.st = .emit ∨ s.st = .fail

/-- The row WaitingForHeader of R24's table. -/
def HeaderRow (s : State) : Prop :=
  ∃ f, s.cf = some f ∧ (f.kind = .framedMessage ∨ (f.kind = .unknown ∧ s.policy = .expectHeader))
    ∧ s.len = 0 ∧ s.need = 0 ∧ s.cand = seedSet s.cat f

/-- The row WaitingForIdentifier of R24's table. -/
def IdentifierRow (s : State) : Prop :=
  (∃ f, s.cf = some f) ∧ s.len = 1 ∧ s.need = 0 ∧ s.cand ≠ [] ∧ someIdentifier s.cat s.cand = true

/-- The row WaitingForData of R24's table. -/
def DataRow (s : State) : Prop :=
  (∃ f, s.cf = some f) ∧ 1 ≤ s.len.toNat ∧ s.len.toNat ≤ 17 ∧ 1 ≤ s.need.toNat ∧ s.len.toNat + s.need.toNat ≤ 18
    ∧ s.cand ≠ []
    ∧ EverySurvivor s (fun d => ∃ h, s.buf.read 0 = some h ∧ flen d h = s.len.toNat + s.need.toNat)

/-- The table of R24 with its last two sentences: what holds between the registers in every state reachable
from reset. -/
structure RestingTable (s : State) : Prop where
  atCall : AtCall s → WorkClear s
  header : s.st = .waitingForHeader → HeaderRow s
  identifier : s.st = .waitingForIdentifier → IdentifierRow s
  data : s.st = .waitingForData → DataRow s
  failing : s.fr ≠ none ↔ s.st = .fail
  resting : s.st ≠ .processingData

/-- The survivors are consistent with the bytes seen so far (R15): each matches the call byte, the header once
it is taken, and the identifier byte once the data phase is entered, if it has an identifier. -/
structure Consistent (s : State) : Prop where
  pattern : EverySurvivor s (fun d => ∃ f, s.cf = some f ∧ patMatch d f = true)
  header : s.st = .waitingForIdentifier ∨ s.st = .waitingForData →
    EverySurvivor s (fun d => ∃ h, s.buf.read 0 = some h ∧ hdrMatch d h = true)
  identifier : s.st = .waitingForData →
    EverySurvivor s (fun d => d.identifier = none ∨ ∃ k, s.buf.read 1 = some k ∧ idAccepts d k = true)

/-- The invariant of the machine: R24's table, the forms of the candidate set and of the buffer, the CallFrame
being what `classify` made of its own byte (R12, R76), and the survivors' consistency (R15). -/
structure StateInv (s : State) : Prop where
  table : RestingTable s
  candWf : CandWf s
  bufWf : BufWf s
  lenBound : s.len.toNat ≤ bufCap
  callFrame : ∀ f, s.cf = some f → classifyCall f.raw f.ts = .frame f
  consistent : Consistent s

/-- What every record holds (R20, R144, R150): `ok` says whether a reason is given, `checksum_valid` equals
`ok`, the CallFrame is missing exactly for the two classification failures, `call_raw` and `call_ts` are those of
the CallFrame, `diag_ambiguous` marks AmbiguousDefinition alone, a definition is named for messages and checksum
failures only, and without one there is no message. -/
structure RecordWf (r : OutputRecord) : Prop where
  okReason : r.ok = true ↔ r.reason = none
  checksum : r.checksumValid = r.ok
  diag : r.diag = true ↔ r.reason = some .ambiguousDefinition
  callFrame : r.cf = none ↔ (r.reason = some .parityError ∨ r.reason = some .unclassifiedCallError)
  callByte : ∀ f, r.cf = some f → r.callRaw = f.raw ∧ r.callTs = f.ts
  defIdx : r.defIdx ≠ none → r.reason = none ∨ r.reason = some .checksumError
  named : r.reason = some .checksumError → r.defIdx ≠ none
  message : r.defIdx = none → r.header = none ∧ r.ident = none ∧ r.payload = []

/-- The bytes the buffer holds, in slot order. -/
def bufBytes (s : State) : List Byte := s.buf.map (fun c => c.2)

/-- What the record of a BYTE `b` at `t` holds that the state `s` met (the table of R20, with R106, R108, R144).
Of a call byte: the byte itself and its timestamp, no definition and an empty frame. Of a later byte: the CallFrame of
the decode, and as `raw` the bytes collected with this one; an emitted one names a definition. Where a definition is
named, the record holds what `carve` cuts from a frame of the definition's length. -/
structure RecordOfByte (b : Byte) (t : Timestamp) (s : State) (r : OutputRecord) : Prop where
  atCall : AtCall s → r.callRaw = b ∧ r.callTs = t ∧ r.defIdx = none ∧ r.raw = []
  later : ¬ AtCall s → r.cf = s.cf ∧ r.raw = bufBytes s ++ [b] ∧ (r.ok = true → r.defIdx ≠ none)
  carved : ∀ i, r.defIdx = some i → ∃ d h, s.cat.entries[i]? = some d ∧ r.raw[0]? = some h ∧ r.raw.length = flen d h
    ∧ r.header = (if d.header.isSome then some h else none)
    ∧ r.ident = (if d.identifier.isSome then r.raw[1]? else none)
    ∧ r.payload = (r.raw.drop (1 + idlen d)).take (dlen d h)

/-- `STRONG_INTEGRITY` (R33): two entries that some bytes match together have disjoint version ranges. -/
def StrongIntegrity (c : Catalog) : Prop :=
  ∀ (i j : Nat) (d e : MessageDefinition), i ≠ j → c.entries[i]? = some d → c.entries[j]? = some e →
    d.cbp.type = e.cbp.type → d.cbp.broadcast = e.cbp.broadcast →
    (∃ h k, hdrMatch d h = true ∧ hdrMatch e h = true ∧ idAccepts d k = true ∧ idAccepts e k = true) →
    ∀ v, ¬ (verMatch d v = true ∧ verMatch e v = true)

/-- The machine right after reset with any catalog, any `VER_INIT`, any policy and any input trace to come
(R6, R7, R22). -/
def resetWith (c : Catalog) (v : Version) (p : UnknownPolicy) (trace : List Ports) : State :=
  { State.reset with cat := c, verInit := v, ver := v, policy := p, inp := trace }

/-- The three apply steps of the Candidate Filter (spec/41_candidate_filter.md R85). -/
def IsApplyStep (i : Instr) : Prop :=
  (∃ b, i = .applyHeader b) ∨ (∃ b, i = .applyIdentifier b) ∨ i = .applyVersion

end Sys2Proof.Machine
end

