-- ==== Sys2Proof/Certificates/Slice0/Obligations.lean ====
section
/-! DEFINITION. The statements about the machine that the provers are asked for. Each docstring names the rules
of spec/ it formalises. A next state is written as an update of the state before it wherever the rule fixes every
field, so that the equation is also the frame. -/

open Sys2Proof Sys2Proof.Machine

/-! ### Reset and the host events -/

/-- R22: the state after reset. Every register is empty, no slot of the buffer is readable, `ver` is `VER_INIT`, no
record is being produced, and the first BYTE event is a call byte. -/
def Obligations.ResetStateValues : Prop :=
  State.reset.st = .waitingForCall ∧ State.reset.fr = none ∧ State.reset.cf = none ∧ State.reset.cand = []
    ∧ State.reset.len = 0 ∧ State.reset.need = 0 ∧ State.reset.ver = State.reset.verInit ∧ State.reset.out = none
    ∧ (∀ a, readSlot State.reset a = .error .bufUnreadable)
    ∧ ∀ (b : Byte) (t : Timestamp), exec (.byte b t) State.reset = exec (.callStep b t) State.reset

/-- R24: the invariant holds after reset, for every catalog, every `VER_INIT`, every policy and every input
trace. -/
def Obligations.ResetMeetsInvariant : Prop :=
  ∀ (c : Catalog) (v : Version) (p : UnknownPolicy) (trace : List Ports), StateInv (resetWith c v p trace)

/-- R129, R22: RESET from any state. -/
def Obligations.ResetEventReloadsVersion : Prop :=
  ∀ s : State, exec .reset s
    = .next { s with st := .waitingForCall, fr := none, cf := none, cand := [], buf := [], len := 0, need := 0, ver := s.verInit }

/-- R128: DISCARD from any state keeps `ver` and produces no record. -/
def Obligations.DiscardKeepsVersion : Prop :=
  ∀ s : State, exec .discard s
    = .next { s with st := .waitingForCall, fr := none, cf := none, cand := [], buf := [], len := 0, need := 0 }

/-- R127: VER writes `ver` and nothing else. -/
def Obligations.VersionWriteOnlyWritesVersion : Prop :=
  ∀ (v : Version) (s : State), exec (.ver v) s = .next { s with ver := v }

/-! ### The Call Classifier -/

/-- R78 (a) to (d). -/
def Obligations.ParityFollowsLowSevenBits : Prop :=
  (∀ b : Byte, hasValidParity b = true ↔ popcount8 (b &&& 0x7F) % 2 = 1)
    ∧ (∀ b : Byte, hasValidParity b = hasValidParity (b ^^^ 0x80))
    ∧ hasValidParity 0x60 = false ∧ hasValidParity 0xE0 = false ∧ hasValidParity 0x00 = false
    ∧ hasValidParity 0x80 = false ∧ hasValidParity 0x20 = true ∧ hasValidParity 0xA0 = true
    ∧ hasValidParity 0x40 = true ∧ hasValidParity 0xC0 = true
    ∧ (∀ b : Byte, popcount8 b % 2 = 0 → (hasValidParity b = true ↔ b.getLsbD 7 = true))
    ∧ (∀ b : Byte, popcount8 b % 2 = 1 → (hasValidParity b = true ↔ b.getLsbD 7 = false))

/-- R65: `parity_valid` completes in every state, writes no register and returns the formula's value, the 1 bits
counted one by one. -/
def Obligations.ParityValidReturnsFormula : Prop :=
  ∀ (b : Byte) (s : State), exec (.parityValid b) s
    = .next { s with ret := some (.flag (b.getLsbD 7 ==
        (((b.getLsbD 0).toNat + (b.getLsbD 1).toNat + (b.getLsbD 2).toNat + (b.getLsbD 3).toNat + (b.getLsbD 4).toNat
          + (b.getLsbD 5).toNat + (b.getLsbD 6).toNat + (b.getLsbD 7).toNat) % 2 == 0))) }

/-- R67, R76: `classify` completes in every state, writes no register and returns what the first matching row of
the table gives; rows 1 to 6 build the CallFrame of R76. -/
def Obligations.ClassifyReturnsTableRow : Prop :=
  ∀ (b : Byte) (t : Timestamp) (s : State), ∃ c, exec (.classify b t) s = .next { s with ret := some (.classified c) }
    ∧ (let ty := b.extractLsb' 5 2
       let bc : Bool := b.extractLsb' 0 5 == 0
       let pv := hasValidParity b
       let frame (k : CallKind) : Classified :=
         .frame { kind := k, addr := b.extractLsb' 0 5, raw := b, ts := t, bcast := bc }
       let row1 := ty = 2 ∧ pv = true
       let row2 := ty = 0 ∧ pv = true ∧ bc = false
       let row3 := ty = 1 ∧ pv = true ∧ bc = true
       let row4 := ty = 3 ∧ bc = true
       let row5 := ty = 3 ∧ pv = true ∧ bc = false
       let row6 := ty = 1 ∧ pv = true ∧ bc = false
       let noRow := ¬ row1 ∧ ¬ row2 ∧ ¬ row3 ∧ ¬ row4 ∧ ¬ row5 ∧ ¬ row6
       (row1 → c = frame .sendRequest) ∧ (row2 → c = frame .requestResend) ∧ (row3 → c = frame .broadcastFeedbackPoll)
         ∧ (row4 → c = frame .framedMessage) ∧ (row5 → c = frame .framedMessage) ∧ (row6 → c = frame .unknown)
         ∧ (noRow ∧ pv = false → c = .parityError) ∧ (noRow ∧ pv = true → c = .unclassifiedCallError))

/-- R75: no byte is unclassified; and R79 (e): flipping bit 7 changes nothing but the `raw` field. -/
def Obligations.UnclassifiedIsUnreachable : Prop :=
  (∀ (b : Byte) (t : Timestamp), classifyCall b t ≠ .unclassifiedCallError)
    ∧ ∀ (b : Byte) (t : Timestamp), classifyCall (b ^^^ 0x80) t =
        match classifyCall b t with
        | .frame f => .frame { f with raw := b ^^^ 0x80 }
        | .parityError => .parityError
        | .unclassifiedCallError => .unclassifiedCallError

/-! ### Call bytes -/

/-- R98 (with R68, R69, R70): a well-formed SendRequest, RequestResend or BroadcastFeedbackPoll byte ends in Emit
with the call-only record, from every state. -/
def Obligations.BareCallsEmitCallFrame : Prop :=
  ∀ (s : State) (p : BitVec 1) (a : Address) (t : Timestamp),
    let emits (i : Instr) (f : CallFrame) : Prop :=
      i.wellFormed = true →
        let r : OutputRecord :=
          { ok := true, reason := none, callRaw := f.raw, callTs := f.ts, cf := some f, defIdx := none, header := none,
            ident := none, payload := [], checksumValid := true, raw := [], diag := false }
        exec i s = .next { s with st := .emit, fr := none, cf := none, cand := [], buf := [], len := 0, need := 0,
                                  out := some r, log := s.log ++ [r] }
    emits (.sendRequest p a t) { kind := .sendRequest, addr := a, raw := p ++ (2#2) ++ a, ts := t, bcast := a == 0 }
      ∧ emits (.requestResend p a t) { kind := .requestResend, addr := a, raw := p ++ (0#2) ++ a, ts := t, bcast := false }
      ∧ emits (.broadcastFeedbackPoll p t)
          { kind := .broadcastFeedbackPoll, addr := 0, raw := p ++ (1#2) ++ (0#5), ts := t, bcast := true }

/-- R100 (with R71, R72, R80): a well-formed FramedMessage byte starts a decode that awaits a header, its candidate
set being all entries whose pattern the byte meets, however many. -/
def Obligations.FramedCallsAwaitHeader : Prop :=
  ∀ (s : State) (p : BitVec 1) (a : Address) (t : Timestamp),
    let starts (i : Instr) (f : CallFrame) : Prop :=
      i.wellFormed = true →
        ∃ c, exec i s = .next { s with st := .waitingForHeader, fr := none, cf := some f, cand := c, buf := [], len := 0, need := 0 }
          ∧ c.Pairwise (fun j k => j < k)
          ∧ ∀ j, j ∈ c ↔ ∃ d, s.cat.entries[j]? = some d ∧ d.cbp.type = 3 ∧ d.cbp.broadcast = f.bcast
              ∧ (d.cbp.parityRequired = true → f.bcast = false)
    starts (.framedMessageBcast p t) { kind := .framedMessage, addr := 0, raw := p ++ (3#2) ++ (0#5), ts := t, bcast := true }
      ∧ starts (.framedMessageAddr p a t) { kind := .framedMessage, addr := a, raw := p ++ (3#2) ++ a, ts := t, bcast := false }

/-- R99 (with R73): a well-formed Unknown byte follows `UNKNOWN_POLICY`. -/
def Obligations.UnknownCallFollowsPolicy : Prop :=
  ∀ (s : State) (p : BitVec 1) (a : Address) (t : Timestamp), (Instr.unknown p a t).wellFormed = true →
    let f : CallFrame := { kind := .unknown, addr := a, raw := p ++ (1#2) ++ a, ts := t, bcast := false }
    let r : OutputRecord :=
      { ok := true, reason := none, callRaw := f.raw, callTs := f.ts, cf := some f, defIdx := none, header := none,
        ident := none, payload := [], checksumValid := true, raw := [], diag := false }
    (s.policy = .emitCallOnly → exec (.unknown p a t) s
        = .next { s with st := .emit, fr := none, cf := none, cand := [], buf := [], len := 0, need := 0,
                         out := some r, log := s.log ++ [r] })
      ∧ (s.policy = .expectHeader → ∃ c, exec (.unknown p a t) s
        = .next { s with st := .waitingForHeader, fr := none, cf := some f, cand := c, buf := [], len := 0, need := 0 }
          ∧ ∀ j, j ∈ c ↔ ∃ d, s.cat.entries[j]? = some d ∧ d.cbp.type = 1 ∧ d.cbp.broadcast = false)

/-- R74, R136, R144 row 1, and R75 with R144 row 2 "were it reached": a call byte that does not classify enters
Fail with a record that names the byte and no CallFrame. -/
def Obligations.CallFailuresEnterFail : Prop :=
  ∀ (s : State) (p : BitVec 1) (ty : TypeCode) (a : Address) (t : Timestamp),
    let fails (i : Instr) (reason : FailReason) : Prop :=
      let r : OutputRecord :=
        { ok := false, reason := some reason, callRaw := p ++ ty ++ a, callTs := t, cf := none, defIdx := none,
          header := none, ident := none, payload := [], checksumValid := false, raw := [], diag := false }
      exec i s = .next { s with st := .fail, fr := some reason, cf := none, cand := [], buf := [], len := 0, need := 0,
                                out := some r, log := s.log ++ [r] }
    fails (.parityError p ty a t) .parityError ∧ fails (.unclassifiedCallError p ty a t) .unclassifiedCallError

/-- R97 with R67: `call_step` on a byte does what the row the decoder names for it does. -/
def Obligations.CallStepRunsItsRow : Prop :=
  ∀ (b : Byte) (t : Timestamp) (s : State), exec (.callStep b t) s = exec (decodeCall b t) s

/-- R97, R109 (its rows for a call byte): `call_step` completes from every state; it ends in Emit with a record,
in Fail with a record, or in WaitingForHeader with none, as the classification and the policy say. -/
def Obligations.CallStepAlwaysCompletes : Prop :=
  ∀ (b : Byte) (t : Timestamp) (s : State), ∃ u, exec (.callStep b t) s = .next u
    ∧ u.ver = s.ver ∧ SameMachine s u ∧ SameInterface s u
    ∧ (match classifyCall b t with
       | .frame f =>
         if f.kind = .framedMessage ∨ (f.kind = .unknown ∧ s.policy = .expectHeader) then
           u.st = .waitingForHeader ∧ u.fr = none ∧ u.cf = some f ∧ NoRecord s u
         else
           u.st = .emit ∧ u.fr = none ∧ WorkClear u
             ∧ ∃ r, Produced r s u ∧ r.ok = true ∧ r.cf = some f ∧ r.defIdx = none
       | .parityError =>
         u.st = .fail ∧ u.fr = some .parityError ∧ WorkClear u
           ∧ ∃ r, Produced r s u ∧ r.reason = some .parityError ∧ r.cf = none ∧ r.callRaw = b ∧ r.callTs = t ∧ r.raw = []
       | .unclassifiedCallError =>
         u.st = .fail ∧ u.fr = some .unclassifiedCallError ∧ WorkClear u
           ∧ ∃ r, Produced r s u ∧ r.reason = some .unclassifiedCallError ∧ r.cf = none ∧ r.callRaw = b ∧ r.callTs = t
               ∧ r.raw = [])

/-- R111, R97: no value of the old decode, nor `st` or `fr`, can be read by a call-byte step. -/
def Obligations.CallStepForgetsOldDecode : Prop :=
  ∀ (b : Byte) (t : Timestamp) (s : State) (st : AsmState) (fr : Option FailReason) (cf : Option CallFrame)
    (cand : List Nat) (buf : Memory) (len need : Count),
    exec (.callStep b t) { s with st := st, fr := fr, cf := cf, cand := cand, buf := buf, len := len, need := need }
      = exec (.callStep b t) s

/-- R98, R99, R100: the three branches of the call-byte step as operations of their own. -/
def Obligations.CallBranchOperations : Prop :=
  ∀ (s : State) (f : CallFrame),
    let r : OutputRecord :=
      { ok := true, reason := none, callRaw := f.raw, callTs := f.ts, cf := some f, defIdx := none, header := none,
        ident := none, payload := [], checksumValid := true, raw := [], diag := false }
    let emitted : State :=
      { s with st := .emit, cf := none, cand := [], buf := [], len := 0, need := 0, out := some r, log := s.log ++ [r] }
    (s.cf = some f → exec .emitCallOnly s = .next emitted)
      ∧ (s.cf = some f → s.policy = .emitCallOnly → exec .unknownCall s = .next emitted)
      ∧ (s.policy = .expectHeader → exec .unknownCall s = .next { s with st := .waitingForHeader })
      ∧ exec .framedCall s = .next { s with st := .waitingForHeader }

/-- R23: `clear_work()` completes in every state, touches nothing but the working state, leaves no slot of the
buffer readable, and performed twice is the same as once. -/
def Obligations.ClearWorkDiscardsDecode : Prop :=
  ∀ s : State, ∃ u, exec .clearWork s = .next u
    ∧ u = { s with cf := none, cand := [], buf := [], len := 0, need := 0 }
    ∧ (∀ a, readSlot u a = .error .bufUnreadable) ∧ exec .clearWork u = .next u

/-! ### The Candidate Filter -/

/-- R80: `seed(cf)` overwrites the set with all entries whose pattern the call byte meets: type code, broadcast
flag, and parity where it is required. -/
def Obligations.SeedSelectsPatterns : Prop :=
  ∀ (s : State) (f : CallFrame), s.cf = some f →
    ∃ c, exec .seed s = .next { s with cand := c } ∧ c.Pairwise (fun i j => i < j)
      ∧ ∀ i, i ∈ c ↔ ∃ d, s.cat.entries[i]? = some d ∧ d.cbp.type = f.raw.extractLsb' 5 2 ∧ d.cbp.broadcast = f.bcast
          ∧ (d.cbp.parityRequired = true → hasValidParity f.raw = true)

/-- R81, R82, R83: each apply step completes in every state and keeps exactly the survivors its predicate
admits: the whole header byte or, for a Variable definition, its high nibble; the identifier's significant bits;
the inclusive version range. -/
def Obligations.ApplyStepsKeepMatches : Prop :=
  ∀ (s : State) (b : Byte),
    (∃ c, exec (.applyHeader b) s = .next { s with cand := c }
      ∧ ∀ i, i ∈ c ↔ i ∈ s.cand ∧ ∃ d, s.cat.entries[i]? = some d
          ∧ (d.header = none
            ∨ (d.dataLength = .variableLength ∧ ∃ h, d.header = some h ∧ h.extractLsb' 4 4 = b.extractLsb' 4 4)
            ∨ (d.dataLength ≠ .variableLength ∧ d.header = some b)))
    ∧ (∃ c, exec (.applyIdentifier b) s = .next { s with cand := c }
      ∧ ∀ i, i ∈ c ↔ i ∈ s.cand ∧ ∃ d, s.cat.entries[i]? = some d
          ∧ ∀ p, d.identifier = some p →
              if p.partialMatch then b.toNat / 2 ^ (8 - p.plen) = p.value.toNat / 2 ^ (8 - p.plen) else b = p.value)
    ∧ (∃ c, exec .applyVersion s = .next { s with cand := c }
      ∧ ∀ i, i ∈ c ↔ i ∈ s.cand ∧ ∃ d, s.cat.entries[i]? = some d
          ∧ d.vmin.toNat ≤ s.ver.toNat ∧ s.ver.toNat ≤ d.vmax.toNat)

/-- R85: each apply step only shrinks the set, repeating it changes nothing, and any two commute. -/
def Obligations.ApplyStepsShrinkRepeatCommute : Prop :=
  ∀ (s : State) (i j : Instr), IsApplyStep i → IsApplyStep j →
    ∃ u w x, exec i s = .next u ∧ exec i u = .next u ∧ (∀ k ∈ u.cand, k ∈ s.cand)
      ∧ u.cand.length ≤ s.cand.length
      ∧ exec j s = .next w ∧ exec j u = .next x ∧ exec i w = .next x

/-- R84: `finalize()` completes in every state, writes no register, and returns by the number of members. -/
def Obligations.FinalizeNeedsExactlyOne : Prop :=
  ∀ s : State, ∃ r, exec .finalize s = .next { s with ret := some (.finalized r) }
    ∧ (s.cand.length = 0 → r = .noMatchingDefinition)
    ∧ (2 ≤ s.cand.length → r = .ambiguousDefinition)
    ∧ (∀ i, s.cand = [i] → r = .unique i)

/-! ### The Frame Assembler -/

/-- R101: when a survivor of the header byte has an identifier, `header_step` stores the byte at slot 0 and awaits
the identifier; every other slot holds what it held. -/
def Obligations.HeaderStepAwaitsIdentifier : Prop :=
  ∀ (s : State) (b : Byte),
    (∃ i ∈ s.cand, ∃ d, s.cat.entries[i]? = some d ∧ hdrMatch d b = true ∧ d.identifier ≠ none) →
      ∃ m c, exec (.headerStep b) s = .next { s with st := .waitingForIdentifier, cand := c, buf := m, len := 1 }
        ∧ m.read 0 = some b ∧ (∀ a, a ≠ 0 → m.read a = s.buf.read a)
        ∧ ∀ i, i ∈ c ↔ i ∈ s.cand ∧ ∃ d, s.cat.entries[i]? = some d ∧ hdrMatch d b = true

/-- R101, R138, R144 row 3: when no survivor matches the header byte, `header_step` enters Fail with
NoMatchingDefinition, the failing byte included in the record. -/
def Obligations.HeaderStepWithoutMatchFails : Prop :=
  ∀ (s : State) (b : Byte) (f : CallFrame), s.cf = some f →
    (∀ i ∈ s.cand, ∀ d, s.cat.entries[i]? = some d → hdrMatch d b = false) →
      let r : OutputRecord :=
        { ok := false, reason := some .noMatchingDefinition, callRaw := f.raw, callTs := f.ts, cf := some f,
          defIdx := none, header := none, ident := none, payload := [], checksumValid := false, raw := [b],
          diag := false }
      exec (.headerStep b) s
        = .next { s with st := .fail, fr := some .noMatchingDefinition, cf := none, cand := [], buf := [], len := 0, need := 0,
                         out := some r, log := s.log ++ [r] }

/-- R101, R103, R50: when some survivor matches the header byte and no such survivor has an identifier, `header_step`
stores the byte at slot 0, filters the set and does what `enter_data()` does on that state, whether the lengths agree
or not. Where they agree on a length above 1, it enters the data phase with the rest of that length to collect. -/
def Obligations.HeaderStepEntersDataPhase : Prop :=
  ∀ (s : State) (b : Byte),
    (∃ i ∈ s.cand, ∃ d, s.cat.entries[i]? = some d ∧ hdrMatch d b = true) →
    (∀ i ∈ s.cand, ∀ d, s.cat.entries[i]? = some d → hdrMatch d b = true → d.identifier = none) →
      ∃ m c, exec (.headerStep b) s = exec .enterData { s with cand := c, buf := m, len := 1 }
        ∧ m.read 0 = some b ∧ (∀ a, a ≠ 0 → m.read a = s.buf.read a) ∧ (s.buf = [] → m = [(0, b)])
        ∧ (∀ i, i ∈ c ↔ i ∈ s.cand ∧ ∃ d, s.cat.entries[i]? = some d ∧ hdrMatch d b = true)
        ∧ ∀ n, (∀ i ∈ c, ∀ d, s.cat.entries[i]? = some d → flen d b = n) → 1 < n →
            ∃ need, exec (.headerStep b) s
                = .next { s with st := .waitingForData, cand := c, buf := m, len := 1, need := need }
              ∧ need.toNat = n - 1

/-- R102, R103: when some survivor accepts the identifier byte, `identifier_step` stores the byte at slot 1, filters
the set and does what `enter_data()` does on that state, whether the lengths agree or not. Where they agree on a length
above 2, it enters the data phase; where they agree on 2, nothing is left to collect and `process()` runs at once. -/
def Obligations.IdentifierStepEntersDataPhase : Prop :=
  ∀ (s : State) (b : Byte),
    (∃ i ∈ s.cand, ∃ d, s.cat.entries[i]? = some d ∧ idAccepts d b = true) →
      ∃ m c, exec (.identifierStep b) s = exec .enterData { s with cand := c, buf := m, len := 2 }
        ∧ m.read 1 = some b ∧ (∀ a, a ≠ 1 → m.read a = s.buf.read a)
        ∧ (∀ h, s.buf = [(0, h)] → m = [(0, h), (1, b)])
        ∧ (∀ i, i ∈ c ↔ i ∈ s.cand ∧ ∃ d, s.cat.entries[i]? = some d ∧ idAccepts d b = true)
        ∧ ∀ h n, s.buf.read 0 = some h → (∀ i ∈ c, ∀ d, s.cat.entries[i]? = some d → flen d h = n) →
            (2 < n → ∃ need, exec (.identifierStep b) s
                  = .next { s with st := .waitingForData, cand := c, buf := m, len := 2, need := need }
                ∧ need.toNat = n - 2)
              ∧ (n = 2 → exec (.identifierStep b) s = exec .process { s with cand := c, buf := m, len := 2 })

/-- R102, R138, R144 row 3: when no survivor accepts the identifier byte, `identifier_step` enters Fail with
NoMatchingDefinition; the record holds both bytes. -/
def Obligations.IdentifierStepWithoutMatchFails : Prop :=
  ∀ (s : State) (b h : Byte) (f : CallFrame), s.cf = some f → s.buf.read 0 = some h →
    (∀ i ∈ s.cand, ∀ d, s.cat.entries[i]? = some d → idAccepts d b = false) →
      let r : OutputRecord :=
        { ok := false, reason := some .noMatchingDefinition, callRaw := f.raw, callTs := f.ts, cf := some f,
          defIdx := none, header := none, ident := none, payload := [], checksumValid := false, raw := [h, b],
          diag := false }
      exec (.identifierStep b) s
        = .next { s with st := .fail, fr := some .noMatchingDefinition, cf := none, cand := [], buf := [], len := 0, need := 0,
                         out := some r, log := s.log ++ [r] }

/-- R103: when the survivors agree on the frame length, `enter_data()` does not read `ver`: a length above `len` is
committed to, and at a length of `len` nothing is left to collect and `process()` runs at once. -/
def Obligations.EnterDataCommitsCommonLength : Prop :=
  ∀ (s : State) (h : Byte) (n : Nat), 1 ≤ s.len.toNat → s.buf.read 0 = some h → s.cand ≠ [] →
    (∀ i ∈ s.cand, ∃ d, s.cat.entries[i]? = some d ∧ flen d h = n) →
      (s.len.toNat < n →
        ∃ need, exec .enterData s = .next { s with st := .waitingForData, need := need }
          ∧ need.toNat = n - s.len.toNat)
        ∧ (s.len.toNat = n → exec .enterData s = exec .process s)

/-- R103 (3), (4): when the survivors disagree on the length and those whose range contains `ver` agree on one,
`enter_data()` applies the version filter at once and commits to that length: above `len`, the rest is to be collected;
at `len`, `process()` runs at once on the filtered set. A length below `len` is a clause of `EnterDataFailures`. -/
def Obligations.EnterDataVersionTieBreak : Prop :=
  ∀ (s : State) (h : Byte) (n : Nat), 1 ≤ s.len.toNat → s.buf.read 0 = some h →
    (∃ i ∈ s.cand, ∃ j ∈ s.cand, ∃ d e, s.cat.entries[i]? = some d ∧ s.cat.entries[j]? = some e ∧ flen d h ≠ flen e h) →
    (∃ i ∈ s.cand, ∃ d, s.cat.entries[i]? = some d ∧ verMatch d s.ver = true) →
    (∀ i ∈ s.cand, ∀ d, s.cat.entries[i]? = some d → verMatch d s.ver = true → flen d h = n) →
      ∃ c, (∀ i, i ∈ c ↔ i ∈ s.cand ∧ ∃ d, s.cat.entries[i]? = some d ∧ verMatch d s.ver = true)
        ∧ (s.len.toNat < n →
            ∃ need, exec .enterData s = .next { s with st := .waitingForData, cand := c, need := need }
              ∧ need.toNat = n - s.len.toNat)
        ∧ (s.len.toNat = n → exec .enterData s = exec .process { s with cand := c })

/-- R103, R148 (3), R144 rows 3 and 4: where `enter_data()` fails. Survivors that disagree on the length: with none
containing `ver`, NoMatchingDefinition; still disagreeing among those that do, AmbiguousDefinition. Survivors that
agree on a length below `len`, at once or after the version filter: NoMatchingDefinition. -/
def Obligations.EnterDataFailures : Prop :=
  ∀ (s : State) (h : Byte) (f : CallFrame), s.cf = some f → BufWf s → s.buf.read 0 = some h →
    let disagree : Prop :=
      ∃ i ∈ s.cand, ∃ j ∈ s.cand, ∃ d e, s.cat.entries[i]? = some d ∧ s.cat.entries[j]? = some e ∧ flen d h ≠ flen e h
    let fails (reason : FailReason) : Prop :=
      let r : OutputRecord :=
        { ok := false, reason := some reason, callRaw := f.raw, callTs := f.ts, cf := some f, defIdx := none,
          header := none, ident := none, payload := [], checksumValid := false, raw := bufBytes s,
          diag := reason == .ambiguousDefinition }
      exec .enterData s
        = .next { s with st := .fail, fr := some reason, cf := none, cand := [], buf := [], len := 0, need := 0,
                         out := some r, log := s.log ++ [r] }
    (disagree → (∀ i ∈ s.cand, ∀ d, s.cat.entries[i]? = some d → verMatch d s.ver = false) → fails .noMatchingDefinition)
      ∧ ((∃ i ∈ s.cand, ∃ j ∈ s.cand, ∃ d e, s.cat.entries[i]? = some d ∧ s.cat.entries[j]? = some e
            ∧ verMatch d s.ver = true ∧ verMatch e s.ver = true ∧ flen d h ≠ flen e h) → fails .ambiguousDefinition)
      ∧ (s.cand ≠ [] → (∀ i ∈ s.cand, ∃ d, s.cat.entries[i]? = some d ∧ flen d h < s.len.toNat) → ¬ disagree →
          fails .noMatchingDefinition)
      ∧ (disagree → (∃ i ∈ s.cand, ∃ d, s.cat.entries[i]? = some d ∧ verMatch d s.ver = true) →
          ∀ n, (∀ i ∈ s.cand, ∀ d, s.cat.entries[i]? = some d → verMatch d s.ver = true → flen d h = n) →
            n < s.len.toNat → fails .noMatchingDefinition)

/-- R104: while more than one byte is needed, `data_step` stores the byte at slot `len`, counts, and changes
neither `st` nor the candidate set; every other slot holds what it held. -/
def Obligations.DataStepCollects : Prop :=
  ∀ (s : State) (b : Byte), s.len.toNat < bufCap → 1 < s.need.toNat →
    ∃ m len need, exec (.dataStep b) s = .next { s with buf := m, len := len, need := need }
      ∧ len.toNat = s.len.toNat + 1 ∧ need.toNat = s.need.toNat - 1
      ∧ m.read s.len.toNat = some b ∧ ∀ a, a ≠ s.len.toNat → m.read a = s.buf.read a

/-- R104, R105: the last byte needed runs `process()` on the completed frame. -/
def Obligations.LastDataByteProcesses : Prop :=
  ∀ (s : State) (b : Byte), s.len.toNat < bufCap → s.need = 1 →
    ∃ m len, exec (.dataStep b) s = exec .process { s with buf := m, len := len, need := 0 }
      ∧ len.toNat = s.len.toNat + 1 ∧ m.read s.len.toNat = some b
      ∧ ∀ a, a ≠ s.len.toNat → m.read a = s.buf.read a

/-- R105, R106, R108, R120, R121: `process()` on a complete frame of which exactly one survivor `i` contains `ver`,
with the checksum right where it is required, emits the message: header and identifier whole, the data bytes as
payload, all bytes as `raw`. -/
def Obligations.ProcessEmitsUniqueMessage : Prop :=
  ∀ (s : State) (f : CallFrame) (h : Byte) (i : Nat) (d : MessageDefinition),
    s.cf = some f → BufWf s → CandWf s → i ∈ s.cand → s.cat.entries[i]? = some d → verMatch d s.ver = true →
    (∀ j ∈ s.cand, ∀ e, s.cat.entries[j]? = some e → verMatch e s.ver = true → j = i) →
    s.buf.read 0 = some h → flen d h = s.len.toNat →
    (d.requiresChecksum = true → (bufBytes s).getLast? = some (xorBytes (bufBytes s).dropLast)) →
      let r : OutputRecord :=
        { ok := true, reason := none, callRaw := f.raw, callTs := f.ts, cf := some f, defIdx := some i,
          header := if d.header.isSome then some h else none,
          ident := if d.identifier.isSome then s.buf.read 1 else none,
          payload := ((bufBytes s).drop (1 + idlen d)).take (dlen d h), checksumValid := true,
          raw := bufBytes s, diag := false }
      exec .process s
        = .next { s with st := .emit, cf := none, cand := [], buf := [], len := 0, need := 0,
                         out := some r, log := s.log ++ [r] }

/-- R105, R148 (4), R144 rows 3 to 5: where `process()` fails, in the order of test: no survivor contains `ver`;
two or more do; exactly one does, requires a checksum, and the checksum is wrong (the record then carries the
message). -/
def Obligations.ProcessFailures : Prop :=
  ∀ (s : State) (f : CallFrame) (h : Byte), s.cf = some f → BufWf s → CandWf s → s.buf.read 0 = some h →
    let fails (reason : FailReason) (defIdx : Option Nat) (header ident : Option Byte) (payload : List Byte) : Prop :=
      let r : OutputRecord :=
        { ok := false, reason := some reason, callRaw := f.raw, callTs := f.ts, cf := some f, defIdx := defIdx,
          header := header, ident := ident, payload := payload, checksumValid := false, raw := bufBytes s,
          diag := reason == .ambiguousDefinition }
      exec .process s
        = .next { s with st := .fail, fr := some reason, cf := none, cand := [], buf := [], len := 0, need := 0,
                         out := some r, log := s.log ++ [r] }
    ((∀ i ∈ s.cand, ∀ d, s.cat.entries[i]? = some d → verMatch d s.ver = false) →
        fails .noMatchingDefinition none none none [])
      ∧ ((∃ i ∈ s.cand, ∃ j ∈ s.cand, i ≠ j ∧ ∃ d e, s.cat.entries[i]? = some d ∧ s.cat.entries[j]? = some e
            ∧ verMatch d s.ver = true ∧ verMatch e s.ver = true) →
          fails .ambiguousDefinition none none none [])
      ∧ ∀ i ∈ s.cand, ∀ d, s.cat.entries[i]? = some d → verMatch d s.ver = true →
          (∀ j ∈ s.cand, ∀ e, s.cat.entries[j]? = some e → verMatch e s.ver = true → j = i) →
          flen d h = s.len.toNat → d.requiresChecksum = true →
          (bufBytes s).getLast? ≠ some (xorBytes (bufBytes s).dropLast) →
            fails .checksumError (some i) (if d.header.isSome then some h else none)
              (if d.identifier.isSome then s.buf.read 1 else none)
              (((bufBytes s).drop (1 + idlen d)).take (dlen d h))

/-- R106: `emit_message(i, m)` emits the given fields with the frame's bytes. -/
def Obligations.EmitMessageCompletes : Prop :=
  ∀ (s : State) (f : CallFrame) (i : Nat) (m : Carved), s.cf = some f → BufWf s →
    let r : OutputRecord :=
      { ok := true, reason := none, callRaw := f.raw, callTs := f.ts, cf := some f, defIdx := some i, header := m.header,
        ident := m.ident, payload := m.payload, checksumValid := true, raw := bufBytes s, diag := false }
    exec (.emitMessage i m) s
      = .next { s with st := .emit, cf := none, cand := [], buf := [], len := 0, need := 0,
                       out := some r, log := s.log ++ [r] }

/-- R108: `carve(d)` on a complete frame writes no register and returns the header whole, the identifier whole and
the data bytes, the checksum left out. -/
def Obligations.CarveCutsFields : Prop :=
  ∀ (s : State) (i : Nat) (d : MessageDefinition) (h : Byte), BufWf s → s.cat.entries[i]? = some d →
    s.buf.read 0 = some h → flen d h = s.len.toNat →
      ∃ m, exec (.carve i) s = .next { s with ret := some (.message m) }
        ∧ (d.header ≠ none → m.header = some h) ∧ (d.header = none → m.header = none)
        ∧ (d.identifier ≠ none → m.ident = s.buf.read 1) ∧ (d.identifier = none → m.ident = none)
        ∧ m.payload.length = dlen d h
        ∧ ∀ k, k < dlen d h → m.payload[k]? = s.buf.read (1 + idlen d + k)

/-! ### The Checksum Validator -/

/-- R120: `checksum_ok()` on a buffer of at least two bytes writes no register and returns whether the
exclusive-or of all but the last byte equals the last. -/
def Obligations.ChecksumOkComparesLastByte : Prop :=
  ∀ (s : State) (xs : List Byte) (c : Byte), BufWf s → xs ≠ [] → bufBytes s = xs ++ [c] →
    exec .checksumOk s = .next { s with ret := some (.flag (xs.foldl (fun x y => x ^^^ y) 0 == c)) }

/-- R123, R120: `checksum_ok()` holds iff the exclusive-or of the whole buffer, checksum byte included, is zero. On a
buffer of a single byte, where R120 gives no value, that the same formula holds is the model's reading
(notes/assumptions/13.md). -/
def Obligations.ChecksumHoldsIffTotalXorZero : Prop :=
  ∀ s : State, BufWf s → bufBytes s ≠ [] →
    ∃ v, exec .checksumOk s = .next { s with ret := some (.flag v) }
      ∧ (v = true ↔ (bufBytes s).foldl (fun x y => x ^^^ y) 0 = 0)

/-- R124: appending the computed checksum satisfies the validator; flipping one bit of one byte, the checksum byte
included, breaks it; flipping the same bit of a second byte as well restores it. -/
def Obligations.ChecksumDetectsOneFlip : Prop :=
  ∀ xs : List Byte, checksumHolds (xs ++ [xorBytes xs]) = true
    ∧ ∀ (i k : Nat) (x : Byte), k < 8 → (xs ++ [xorBytes xs])[i]? = some x →
        checksumHolds ((xs ++ [xorBytes xs]).set i (x ^^^ BitVec.twoPow 8 k)) = false
          ∧ ∀ (j : Nat) (y : Byte), j ≠ i → (xs ++ [xorBytes xs])[j]? = some y →
              checksumHolds (((xs ++ [xorBytes xs]).set i (x ^^^ BitVec.twoPow 8 k)).set j (y ^^^ BitVec.twoPow 8 k)) = true

/-! ### Failures -/

/-- R143, R144: the failure entry, for each of the five causes. A classification failure needs nothing of the
state; the other three report the CallFrame and the bytes collected. -/
def Obligations.FailureEntryRecords : Prop :=
  ∀ (s : State),
    let enters (c : FailCause) (reason : FailReason) (r : OutputRecord) : Prop :=
      exec (.raiseFail c) s
        = .next { s with st := .fail, fr := some reason, cf := none, cand := [], buf := [], len := 0, need := 0,
                         out := some r, log := s.log ++ [r] }
    (∀ b t, enters (.parityError b t) .parityError
        { ok := false, reason := some .parityError, callRaw := b, callTs := t, cf := none, defIdx := none, header := none,
          ident := none, payload := [], checksumValid := false, raw := [], diag := false })
      ∧ (∀ b t, enters (.unclassifiedCallError b t) .unclassifiedCallError
        { ok := false, reason := some .unclassifiedCallError, callRaw := b, callTs := t, cf := none, defIdx := none,
          header := none, ident := none, payload := [], checksumValid := false, raw := [], diag := false })
      ∧ ∀ f, s.cf = some f → BufWf s →
          enters .noMatchingDefinition .noMatchingDefinition
            { ok := false, reason := some .noMatchingDefinition, callRaw := f.raw, callTs := f.ts, cf := some f,
              defIdx := none, header := none, ident := none, payload := [], checksumValid := false, raw := bufBytes s,
              diag := false }
          ∧ enters .ambiguousDefinition .ambiguousDefinition
            { ok := false, reason := some .ambiguousDefinition, callRaw := f.raw, callTs := f.ts, cf := some f,
              defIdx := none, header := none, ident := none, payload := [], checksumValid := false, raw := bufBytes s,
              diag := true }
          ∧ ∀ i m, enters (.checksumError i m) .checksumError
            { ok := false, reason := some .checksumError, callRaw := f.raw, callTs := f.ts, cf := some f,
              defIdx := some i, header := m.header, ident := m.ident, payload := m.payload, checksumValid := false,
              raw := bufBytes s, diag := false }

/-! ### Dispatch, steps and ports -/

/-- R96: BYTE does what the step of the present assembler state does, and it completes in every state that meets
the invariant. A BYTE in ProcessingData is refused (notes/assumptions/11.md). -/
def Obligations.ByteDispatchesOnState : Prop :=
  ∀ (b : Byte) (t : Timestamp) (s : State),
    (AtCall s → exec (.byte b t) s = exec (.callStep b t) s)
      ∧ (s.st = .waitingForHeader → exec (.byte b t) s = exec (.headerStep b) s)
      ∧ (s.st = .waitingForIdentifier → exec (.byte b t) s = exec (.identifierStep b) s)
      ∧ (s.st = .waitingForData → exec (.byte b t) s = exec (.dataStep b) s)
      ∧ (s.st = .processingData → exec (.byte b t) s = .refused .transientState)
      ∧ (StateInv s → ∃ u, exec (.byte b t) s = .next u)

/-- R96, R19: a step on a port sample that raises one event runs the instruction the decoder reads from it, on the
state with the sample taken from `inp` and the output port cleared (the model's fields, notes/assumptions/5.md and
6.md). -/
def Obligations.StepRunsDecodedInstruction : Prop :=
  ∀ (s : State) (p : Ports) (ps : List Ports) (e : Event) (i : Instr), s.inp = p :: ps → portEvents p = [e] →
    decodeEvent s.st e = .instr i → step s = exec i { s with inp := ps, out := none }

/-- R130, R19: the order of inputs asserted together. `rst` alone wins; otherwise VER, then DISCARD, then
BYTE, each on the state the one before leaves, so that a byte after a discard is a call byte; with no input asserted
the registers do not change and no record is produced (R19; the exact next state is the model's,
notes/assumptions/16.md). That the sample is taken from `inp` and the output port cleared is the model's as well
(notes/assumptions/5.md and 6.md). -/
def Obligations.SimultaneousInputsInOrder : Prop :=
  ∀ (s : State) (p : Ports) (ps : List Ports), s.inp = p :: ps →
    let s0 : State := { s with inp := ps, out := none }
    let afterVersion : State := { s0 with ver := p.verWdata }
    (p.rst = true → step s = exec .reset s0)
      ∧ (p.rst = false → p.verWr = false → p.discard = false → p.inValid = false → step s = .next s0)
      ∧ (p.rst = false → p.verWr = false → p.discard = false → p.inValid = true →
          step s = exec (.byte p.inByte p.inTs) s0)
      ∧ (p.rst = false → p.verWr = false → p.discard = true → p.inValid = false → step s = exec .discard s0)
      ∧ (p.rst = false → p.verWr = false → p.discard = true → p.inValid = true →
          ∃ u, exec .discard s0 = .next u ∧ step s = exec (.callStep p.inByte p.inTs) u)
      ∧ (p.rst = false → p.verWr = true →
          exec (.ver p.verWdata) s0 = .next afterVersion
            ∧ (p.discard = false → p.inValid = false → step s = .next afterVersion)
            ∧ (p.discard = false → p.inValid = true → step s = exec (.byte p.inByte p.inTs) afterVersion)
            ∧ (p.discard = true → p.inValid = false → step s = exec .discard afterVersion)
            ∧ (p.discard = true → p.inValid = true →
                ∃ u, exec .discard afterVersion = .next u ∧ step s = exec (.callStep p.inByte p.inTs) u))

/-- The model's reading of a table word (notes/assumptions/5.md, 17.md): the word of one byte stands on the input
port as a call byte, and the next step runs the row the decoder names for it, from every state. -/
def Obligations.TableWordRunsItsRow : Prop :=
  ∀ (s : State) (w : Nat), ∃ i st, decodeTableWord 8 w = some i
    ∧ step (s.withFetchWord 8 w) = exec i { s with st := st, out := none }
    ∧ (AtCall s → st = s.st) ∧ (¬ AtCall s → st = .waitingForCall)

/-- R45, R57, R68 to R74: words written out from the encodings decode to their rows. -/
def Obligations.ExampleWordsDecode : Prop :=
  decodeTableWord 8 0b01000011 = some (.sendRequest 0 3 0)
    ∧ decodeTableWord 8 0b11000000 = some (.sendRequest 1 0 0)
    ∧ decodeTableWord 8 0b00000001 = some (.requestResend 0 1 0)
    ∧ decodeTableWord 8 0b10100000 = some (.broadcastFeedbackPoll 1 0)
    ∧ decodeTableWord 8 0b01100000 = some (.framedMessageBcast 0 0)
    ∧ decodeTableWord 8 0b11111111 = some (.framedMessageAddr 1 31 0)
    ∧ decodeTableWord 8 0b00100011 = some (.unknown 0 3 0)
    ∧ decodeTableWord 8 0b01000001 = some (.parityError 0 2 1 0)
    ∧ decodeTableWord 8 0b00000000 = some (.parityError 0 0 0 0)

/-- R45, R59, R96: DECODE AND ENCODE AGREE. In every assembler state that fetches a well-formed instruction, the
port sample that encodes it raises exactly one event, and that event decodes to the instruction. -/
def Obligations.DecodeOfEncodeIsIdentity : Prop :=
  ∀ (st : AsmState) (i : Instr), i.wellFormed = true → fetchedIn st i = true →
    ∃ p e, encode i = some p ∧ portEvents p = [e] ∧ decodeEvent st e = .instr i

/-- R45, R57: every one of the 256 byte values, met as a call byte, decodes to a well-formed instruction whose
encoding is that byte with its timestamp. -/
def Obligations.EveryCallByteDecodesBack : Prop :=
  ∀ (b : Byte) (t : Timestamp) (st : AsmState), atCallPosition st = true →
    ∃ i, decodeByte st b t = .instr i ∧ i.wellFormed = true ∧ fetchedIn st i = true
      ∧ encodeEvent i = some (.byte b t)

/-- R52: a well-formed entry without a name (the word holds none, notes/assumptions/18.md), whose prefix length is 0
where it does not matter, is read back from its ROM word. -/
def Obligations.RomWordRoundTrip : Prop :=
  ∀ d : MessageDefinition, entryWf d = true → d.name = "" →
    (∀ p, d.identifier = some p → p.partialMatch = false → p.plen = 0) → romEntry (romWord d) = d

/-- R53, R54, R55, R56, R6: the codes of the three tables; the levels `st` and `fr` after every step from a state that
meets the invariant; no signal valid in a step without a record; and the signals in a step that produced the record `r`,
one by one: `out_addr` is the low five bits of the call byte and `out_bcast` whether they are zero, `out_def` fits its
`DEFIDW` bits, and the lengths are exact. A signal with a valid bit is an Option of the model (notes/assumptions/6.md). -/
def Obligations.OutputPortSignals : Prop :=
  (kindCode .sendRequest = 0 ∧ kindCode .requestResend = 1 ∧ kindCode .framedMessage = 2
      ∧ kindCode .broadcastFeedbackPoll = 3 ∧ kindCode .unknown = 4)
    ∧ (reasonCode none = 0 ∧ reasonCode (some .parityError) = 1 ∧ reasonCode (some .unclassifiedCallError) = 2
      ∧ reasonCode (some .noMatchingDefinition) = 3 ∧ reasonCode (some .ambiguousDefinition) = 4
      ∧ reasonCode (some .checksumError) = 5)
    ∧ (stCode .waitingForCall = 0 ∧ stCode .waitingForHeader = 1 ∧ stCode .waitingForIdentifier = 2
      ∧ stCode .waitingForData = 3 ∧ stCode .processingData = 4 ∧ stCode .emit = 5 ∧ stCode .fail = 6)
    ∧ ∀ s u : State, StateInv s → step s = .next u →
        (outPort u).st = stCode u.st ∧ (outPort u).fr = reasonCode u.fr ∧ (u.out = none → (outPort u).signals = none)
          ∧ ∀ r, u.out = some r → ∃ g, (outPort u).signals = some g
            ∧ g.outOk = BitVec.ofBool r.ok ∧ g.outReason = reasonCode r.reason
            ∧ g.outCallRaw = r.callRaw ∧ g.outCallTs = r.callTs
            ∧ g.outAddr = r.callRaw.extractLsb' 0 5 ∧ (g.outBcast = 1 ↔ g.outAddr = 0)
            ∧ (r.cf = none → g.outCfValid = 0 ∧ g.outKind = 0)
            ∧ (∀ f, r.cf = some f → g.outCfValid = 1 ∧ g.outKind = kindCode f.kind ∧ g.outAddr = f.addr
                ∧ g.outBcast = BitVec.ofBool f.bcast)
            ∧ g.outDef = r.defIdx ∧ (∀ i, r.defIdx = some i → i < 2 ^ defIdWidth u.cat.entries.length)
            ∧ g.outHdr = r.header ∧ g.outId = r.ident
            ∧ g.outPayloadLen.toNat = r.payload.length ∧ g.outPayload = r.payload
            ∧ g.outChecksumValid = BitVec.ofBool r.checksumValid ∧ g.outChecksumValid = g.outOk
            ∧ g.outRawLen.toNat = r.raw.length ∧ g.outRaw = r.raw
            ∧ g.diagAmbiguous = BitVec.ofBool r.diag ∧ (g.diagAmbiguous = 1 ↔ g.outReason = 4)

/-! ### Invariants and whole-machine rules -/

/-- R24 (with R12, R13, R15): every step keeps the invariant. -/
def Obligations.StepKeepsInvariant : Prop :=
  ∀ s t : State, StateInv s → step s = .next t → StateInv t

/-- R171, R7: a step from a state that meets the invariant always answers a next state, whatever input comes: no
fault and no refusal. -/
def Obligations.InvariantStepCompletes : Prop :=
  ∀ s : State, StateInv s → ∃ t, step s = .next t

/-- R7, R24, R31, R171: for every catalog, every `VER_INIT`, every policy and every input trace, every run from reset
completes, its end state meets the invariant, and its catalog is the one it started with. The clauses on the samples
taken from `inp` and on the records in `log` are about the model's own fields (notes/assumptions/5.md and 6.md). -/
def Obligations.EveryRunFromResetCompletes : Prop :=
  ∀ (c : Catalog) (v : Version) (p : UnknownPolicy) (trace : List Ports) (n : Nat),
    ∃ t : State, Sys2Proof.core.run n (resetWith c v p trace) = .next t ∧ StateInv t ∧ t.cat = c ∧ t.inp = trace.drop n
      ∧ t.log.length ≤ n

/-- R20, R109 (property Q5): a BYTE in a state that meets the invariant produces one record and ends in Emit or Fail
with the working state clear, or produces none and ends in a Waiting state other than WaitingForCall. -/
def Obligations.ByteProducesRecordExactlyAtOutcome : Prop :=
  ∀ (b : Byte) (t : Timestamp) (s u : State), StateInv s → exec (.byte b t) s = .next u →
    (∃ r, Produced r s u ∧ WorkClear u ∧ ((u.st = .emit ∧ r.ok = true ∧ u.fr = none) ∨ (u.st = .fail ∧ r.ok = false ∧ u.fr = r.reason)))
      ∨ (NoRecord s u ∧ (u.st = .waitingForHeader ∨ u.st = .waitingForIdentifier ∨ u.st = .waitingForData))

/-- R20, R144, R150 (property Q6): whatever instruction runs, from whatever state, it produces no record, or one
record with the relations of `RecordWf` between its fields, and, for a well-formed instruction met with `len` at most
`BUFCAP`, within the table's bounds: at most 15 payload bytes and at most 18 of `raw`. A record that a BYTE produces in
a state that meets the invariant has the values of the table (`RecordOfByte`). -/
def Obligations.EveryRecordIsWellFormed : Prop :=
  (∀ (i : Instr) (s t : State), exec i s = .next t → NoRecord s t ∨ ∃ r, Produced r s t ∧ RecordWf r
      ∧ (i.wellFormed = true → s.len.toNat ≤ bufCap → r.payload.length ≤ 15 ∧ r.raw.length ≤ 18))
    ∧ ∀ (b : Byte) (t : Timestamp) (s u : State) (r : OutputRecord), StateInv s → exec (.byte b t) s = .next u →
        Produced r s u → RecordOfByte b t s r

/-- R16, R31, R110, R131: no instruction but VER and RESET changes `ver`, and none changes the catalog, the open
parameters or the input still to come (the model's field `inp`, notes/assumptions/5.md). -/
def Obligations.OnlyVersionWriteAndResetChangeVersion : Prop :=
  ∀ (i : Instr) (s t : State), exec i s = .next t →
    SameMachine s t ∧ t.inp = s.inp ∧ (t.ver = s.ver ∨ (∃ v, i = .ver v ∧ t.ver = v) ∨ (i = .reset ∧ t.ver = s.verInit))

/-- R139, R33: under STRONG_INTEGRITY no step from a state that meets the invariant produces AmbiguousDefinition:
no record gives that reason, and `fr` holds it only where it held it before. -/
def Obligations.StrongIntegrityExcludesAmbiguity : Prop :=
  ∀ s t : State, StateInv s → StrongIntegrity s.cat → step s = .next t →
    (t.fr = some .ambiguousDefinition → s.fr = some .ambiguousDefinition)
      ∧ ∀ r, t.out = some r → r.reason ≠ some .ambiguousDefinition

/-- R34 (third invariant), R105, R106 (property Q9): a framed message that a step emits from a state that meets the
invariant names an entry that matches its call byte and header, whose range contains the `ver` of that step, whose
length is the frame's, and whose checksum holds where required. -/
def Obligations.EmittedMessageIsSound : Prop :=
  ∀ (s t : State) (r : OutputRecord) (i : Nat), StateInv s → step s = .next t → t.out = some r → r.ok = true →
    r.defIdx = some i →
      ∃ d f h, t.cat.entries[i]? = some d ∧ r.cf = some f ∧ patMatch d f = true ∧ r.raw[0]? = some h
        ∧ hdrMatch d h = true ∧ (d.identifier = none ∨ ∃ k, r.raw[1]? = some k ∧ idAccepts d k = true)
        ∧ verMatch d t.ver = true ∧ r.raw.length = flen d h
        ∧ r.payload.length = dlen d h ∧ (d.requiresChecksum = true → checksumHolds r.raw = true)

/-- R30, R35: every instruction keeps the frame buffer's canonical form (the model's, notes/assumptions/9.md):
addresses strictly rising, each a slot of the buffer. -/
def Obligations.FrameBufferKeepsCanonicalForm : Prop :=
  State.reset.buf.wf ∧ ∀ (i : Instr) (s t : State), s.buf.wf → exec i s = .next t → t.buf.wf

/-- R32 (its consequences), R50: an entry of a catalog has a frame length of 1 to 18, at least 2 when it has a
header; one that a FramedMessage call seeds has a header. -/
def Obligations.FrameLengthBounds : Prop :=
  ∀ (c : Catalog) (d : MessageDefinition) (h : Byte), d ∈ c.entries →
    1 ≤ flen d h ∧ flen d h ≤ 18 ∧ (d.header ≠ none → 2 ≤ flen d h)
      ∧ ∀ f : CallFrame, tc f.raw = 3 → patMatch d f = true → d.header ≠ none

/-- R104, R109, R24: in the data phase, as many byte samples as are needed end the decode: exactly one record is
produced, at the last of them, holding the bytes collected before and these. -/
def Obligations.DataPhaseEndsAfterNeededBytes : Prop :=
  ∀ (s : State) (bs : List (Byte × Timestamp)) (ps : List Ports), StateInv s → s.st = .waitingForData →
    bs.length = s.need.toNat → s.inp = bs.map (fun x => eventPorts (.byte x.1 x.2)) ++ ps →
      ∃ (t : State) (r : OutputRecord), Sys2Proof.core.run s.need.toNat s = .next t ∧ t.log = s.log ++ [r]
        ∧ t.out = some r ∧ (t.st = .emit ∨ t.st = .fail) ∧ t.inp = ps
        ∧ r.raw = bufBytes s ++ bs.map (fun x => x.1)
end

