-- ==== Sys2Proof/Laws/Calls.lean ====
section
/-! SUPPORT. The call byte: its three fields put together and taken apart, and what classification reads of it. -/

namespace Sys2Proof

theorem pbit_callByte : ∀ (p : BitVec 1) (ty : TypeCode) (a : Address), pbit (callByte p ty a) = p := by decide +kernel

theorem tc_callByte : ∀ (p : BitVec 1) (ty : TypeCode) (a : Address), tc (callByte p ty a) = ty := by decide +kernel

theorem addr_callByte : ∀ (p : BitVec 1) (ty : TypeCode) (a : Address), addr (callByte p ty a) = a := by decide +kernel

theorem isBcast_callByte (p : BitVec 1) (ty : TypeCode) (a : Address) : isBcast (callByte p ty a) = (a == 0) := by
  rw [isBcast, addr_callByte]

/-- A byte is made of its three fields (spec/30_encoding.md R46). -/
theorem callByte_fields : ∀ b : Byte, callByte (pbit b) (tc b) (addr b) = b := by decide +kernel

theorem typeCode_cases : ∀ ty : TypeCode, ty = 0 ∨ ty = 1 ∨ ty = 2 ∨ ty = 3 := by decide

/-- The bytes of the relaxed form have invalid parity (spec/40_call_classifier.md R78 (b)). -/
theorem parity_relaxed : ∀ p : BitVec 1, hasValidParity (callByte p 3 0) = false := by decide

/-- A broadcast byte of type code 0 has invalid parity, so row 8 is never reached
(spec/40_call_classifier.md R75). -/
theorem parity_zero : ∀ b : Byte, tc b = 0 → isBcast b = true → hasValidParity b = false := by decide +kernel

namespace Machine

/-- What `classify` reports of a byte it accepts is that byte's own (spec/40_call_classifier.md R76). -/
theorem classifyCall_frame {b : Byte} {t : Timestamp} {f : CallFrame} (h : classifyCall b t = .frame f) :
    f.raw = b ∧ f.ts = t ∧ f.addr = addr b ∧ f.bcast = isBcast b := by
  unfold classifyCall at h
  split_ifs at h <;> cases h <;> exact ⟨rfl, rfl, rfl, rfl⟩

end Machine

end Sys2Proof
end

