-- ==== Sys2Proof/Laws/Lengths.lean ====
section
/-! SUPPORT. What well-formedness of a catalog (spec/20_memory.md R32) says of frame lengths
(spec/30_encoding.md R50). -/

namespace Sys2Proof

/-- Every entry of a catalog is well-formed. -/
theorem Catalog.entryWf_of_getElem {c : Catalog} {i : Nat} {d : MessageDefinition} (h : c.entries[i]? = some d) :
    entryWf d = true := by
  have hw := c.wf
  simp only [entriesWf, List.all_eq_true] at hw
  exact hw d (List.mem_of_getElem? h)

theorem dlen_le_maxData {d : MessageDefinition} (hw : entryWf d = true) (h : Byte) : dlen d h ≤ maxData := by
  simp only [entryWf, Bool.and_eq_true, wf3] at hw
  have h3 := hw.1.1.1.1.2
  unfold dlen
  cases hd : d.dataLength with
  | fixed n => simpa [hd] using h3
  | variableLength =>
    have := (h.extractLsb' 0 4).isLt
    simp only [lowNibble, maxData]
    omega

theorem flen_le_bufCap {d : MessageDefinition} (hw : entryWf d = true) (h : Byte) : flen d h ≤ bufCap := by
  have := dlen_le_maxData hw h
  simp only [maxData, bufCap] at *
  unfold flen idlen cklen
  split <;> split <;> omega

end Sys2Proof
end

