-- ==== Sys2Proof/Laws/State.lean ====
section
/-! SUPPORT. What each named update of the state leaves in each field. -/

namespace Sys2Proof.Machine

/-! ### clearWork -/

@[simp] theorem clearWork_st (s : State) : (clearWork s).st = s.st := rfl
@[simp] theorem clearWork_fr (s : State) : (clearWork s).fr = s.fr := rfl
@[simp] theorem clearWork_cf (s : State) : (clearWork s).cf = none := rfl
@[simp] theorem clearWork_cand (s : State) : (clearWork s).cand = [] := rfl
@[simp] theorem clearWork_buf (s : State) : (clearWork s).buf = [] := rfl
@[simp] theorem clearWork_len (s : State) : (clearWork s).len = 0 := rfl
@[simp] theorem clearWork_need (s : State) : (clearWork s).need = 0 := rfl
@[simp] theorem clearWork_ver (s : State) : (clearWork s).ver = s.ver := rfl
@[simp] theorem clearWork_cat (s : State) : (clearWork s).cat = s.cat := rfl
@[simp] theorem clearWork_verInit (s : State) : (clearWork s).verInit = s.verInit := rfl
@[simp] theorem clearWork_policy (s : State) : (clearWork s).policy = s.policy := rfl
@[simp] theorem clearWork_inp (s : State) : (clearWork s).inp = s.inp := rfl
@[simp] theorem clearWork_out (s : State) : (clearWork s).out = s.out := rfl
@[simp] theorem clearWork_log (s : State) : (clearWork s).log = s.log := rfl
@[simp] theorem clearWork_ret (s : State) : (clearWork s).ret = s.ret := rfl

/-! ### freshDecode -/

@[simp] theorem freshDecode_st (s : State) : (freshDecode s).st = s.st := rfl
@[simp] theorem freshDecode_fr (s : State) : (freshDecode s).fr = none := rfl
@[simp] theorem freshDecode_cf (s : State) : (freshDecode s).cf = none := rfl
@[simp] theorem freshDecode_cand (s : State) : (freshDecode s).cand = [] := rfl
@[simp] theorem freshDecode_buf (s : State) : (freshDecode s).buf = [] := rfl
@[simp] theorem freshDecode_len (s : State) : (freshDecode s).len = 0 := rfl
@[simp] theorem freshDecode_need (s : State) : (freshDecode s).need = 0 := rfl
@[simp] theorem freshDecode_ver (s : State) : (freshDecode s).ver = s.ver := rfl
@[simp] theorem freshDecode_cat (s : State) : (freshDecode s).cat = s.cat := rfl
@[simp] theorem freshDecode_verInit (s : State) : (freshDecode s).verInit = s.verInit := rfl
@[simp] theorem freshDecode_policy (s : State) : (freshDecode s).policy = s.policy := rfl
@[simp] theorem freshDecode_inp (s : State) : (freshDecode s).inp = s.inp := rfl
@[simp] theorem freshDecode_out (s : State) : (freshDecode s).out = s.out := rfl
@[simp] theorem freshDecode_log (s : State) : (freshDecode s).log = s.log := rfl
@[simp] theorem freshDecode_ret (s : State) : (freshDecode s).ret = s.ret := rfl

/-! ### deliver -/

@[simp] theorem deliver_st (r : OutputRecord) (s : State) : (deliver r s).st = s.st := rfl
@[simp] theorem deliver_fr (r : OutputRecord) (s : State) : (deliver r s).fr = s.fr := rfl
@[simp] theorem deliver_cf (r : OutputRecord) (s : State) : (deliver r s).cf = s.cf := rfl
@[simp] theorem deliver_cand (r : OutputRecord) (s : State) : (deliver r s).cand = s.cand := rfl
@[simp] theorem deliver_buf (r : OutputRecord) (s : State) : (deliver r s).buf = s.buf := rfl
@[simp] theorem deliver_len (r : OutputRecord) (s : State) : (deliver r s).len = s.len := rfl
@[simp] theorem deliver_need (r : OutputRecord) (s : State) : (deliver r s).need = s.need := rfl
@[simp] theorem deliver_ver (r : OutputRecord) (s : State) : (deliver r s).ver = s.ver := rfl
@[simp] theorem deliver_cat (r : OutputRecord) (s : State) : (deliver r s).cat = s.cat := rfl
@[simp] theorem deliver_verInit (r : OutputRecord) (s : State) : (deliver r s).verInit = s.verInit := rfl
@[simp] theorem deliver_policy (r : OutputRecord) (s : State) : (deliver r s).policy = s.policy := rfl
@[simp] theorem deliver_inp (r : OutputRecord) (s : State) : (deliver r s).inp = s.inp := rfl
@[simp] theorem deliver_out (r : OutputRecord) (s : State) : (deliver r s).out = some r := rfl
@[simp] theorem deliver_log (r : OutputRecord) (s : State) : (deliver r s).log = s.log ++ [r] := rfl
@[simp] theorem deliver_ret (r : OutputRecord) (s : State) : (deliver r s).ret = s.ret := rfl

/-! ### answer -/

@[simp] theorem answer_st (v : Returned) (s : State) : (answer v s).st = s.st := rfl
@[simp] theorem answer_fr (v : Returned) (s : State) : (answer v s).fr = s.fr := rfl
@[simp] theorem answer_cf (v : Returned) (s : State) : (answer v s).cf = s.cf := rfl
@[simp] theorem answer_cand (v : Returned) (s : State) : (answer v s).cand = s.cand := rfl
@[simp] theorem answer_buf (v : Returned) (s : State) : (answer v s).buf = s.buf := rfl
@[simp] theorem answer_len (v : Returned) (s : State) : (answer v s).len = s.len := rfl
@[simp] theorem answer_need (v : Returned) (s : State) : (answer v s).need = s.need := rfl
@[simp] theorem answer_ver (v : Returned) (s : State) : (answer v s).ver = s.ver := rfl
@[simp] theorem answer_cat (v : Returned) (s : State) : (answer v s).cat = s.cat := rfl
@[simp] theorem answer_verInit (v : Returned) (s : State) : (answer v s).verInit = s.verInit := rfl
@[simp] theorem answer_policy (v : Returned) (s : State) : (answer v s).policy = s.policy := rfl
@[simp] theorem answer_inp (v : Returned) (s : State) : (answer v s).inp = s.inp := rfl
@[simp] theorem answer_out (v : Returned) (s : State) : (answer v s).out = s.out := rfl
@[simp] theorem answer_log (v : Returned) (s : State) : (answer v s).log = s.log := rfl
@[simp] theorem answer_ret (v : Returned) (s : State) : (answer v s).ret = some v := rfl

/-! ### emitOutcome -/

@[simp] theorem emitOutcome_st (r : OutputRecord) (s : State) : (emitOutcome r s).st = .emit := rfl
@[simp] theorem emitOutcome_fr (r : OutputRecord) (s : State) : (emitOutcome r s).fr = s.fr := rfl
@[simp] theorem emitOutcome_cf (r : OutputRecord) (s : State) : (emitOutcome r s).cf = none := rfl
@[simp] theorem emitOutcome_cand (r : OutputRecord) (s : State) : (emitOutcome r s).cand = [] := rfl
@[simp] theorem emitOutcome_buf (r : OutputRecord) (s : State) : (emitOutcome r s).buf = [] := rfl
@[simp] theorem emitOutcome_len (r : OutputRecord) (s : State) : (emitOutcome r s).len = 0 := rfl
@[simp] theorem emitOutcome_need (r : OutputRecord) (s : State) : (emitOutcome r s).need = 0 := rfl
@[simp] theorem emitOutcome_ver (r : OutputRecord) (s : State) : (emitOutcome r s).ver = s.ver := rfl
@[simp] theorem emitOutcome_cat (r : OutputRecord) (s : State) : (emitOutcome r s).cat = s.cat := rfl
@[simp] theorem emitOutcome_verInit (r : OutputRecord) (s : State) : (emitOutcome r s).verInit = s.verInit := rfl
@[simp] theorem emitOutcome_policy (r : OutputRecord) (s : State) : (emitOutcome r s).policy = s.policy := rfl
@[simp] theorem emitOutcome_inp (r : OutputRecord) (s : State) : (emitOutcome r s).inp = s.inp := rfl
@[simp] theorem emitOutcome_out (r : OutputRecord) (s : State) : (emitOutcome r s).out = some r := rfl
@[simp] theorem emitOutcome_log (r : OutputRecord) (s : State) : (emitOutcome r s).log = s.log ++ [r] := rfl
@[simp] theorem emitOutcome_ret (r : OutputRecord) (s : State) : (emitOutcome r s).ret = s.ret := rfl

/-! ### failOutcome -/

@[simp] theorem failOutcome_st (r : OutputRecord) (c : FailCause) (s : State) : (failOutcome r c s).st = .fail := rfl
@[simp] theorem failOutcome_fr (r : OutputRecord) (c : FailCause) (s : State) : (failOutcome r c s).fr = some (failReason c) := rfl
@[simp] theorem failOutcome_cf (r : OutputRecord) (c : FailCause) (s : State) : (failOutcome r c s).cf = none := rfl
@[simp] theorem failOutcome_cand (r : OutputRecord) (c : FailCause) (s : State) : (failOutcome r c s).cand = [] := rfl
@[simp] theorem failOutcome_buf (r : OutputRecord) (c : FailCause) (s : State) : (failOutcome r c s).buf = [] := rfl
@[simp] theorem failOutcome_len (r : OutputRecord) (c : FailCause) (s : State) : (failOutcome r c s).len = 0 := rfl
@[simp] theorem failOutcome_need (r : OutputRecord) (c : FailCause) (s : State) : (failOutcome r c s).need = 0 := rfl
@[simp] theorem failOutcome_ver (r : OutputRecord) (c : FailCause) (s : State) : (failOutcome r c s).ver = s.ver := rfl
@[simp] theorem failOutcome_cat (r : OutputRecord) (c : FailCause) (s : State) : (failOutcome r c s).cat = s.cat := rfl
@[simp] theorem failOutcome_verInit (r : OutputRecord) (c : FailCause) (s : State) : (failOutcome r c s).verInit = s.verInit := rfl
@[simp] theorem failOutcome_policy (r : OutputRecord) (c : FailCause) (s : State) : (failOutcome r c s).policy = s.policy := rfl
@[simp] theorem failOutcome_inp (r : OutputRecord) (c : FailCause) (s : State) : (failOutcome r c s).inp = s.inp := rfl
@[simp] theorem failOutcome_out (r : OutputRecord) (c : FailCause) (s : State) : (failOutcome r c s).out = some r := rfl
@[simp] theorem failOutcome_log (r : OutputRecord) (c : FailCause) (s : State) : (failOutcome r c s).log = s.log ++ [r] := rfl
@[simp] theorem failOutcome_ret (r : OutputRecord) (c : FailCause) (s : State) : (failOutcome r c s).ret = s.ret := rfl

/-! ### beginDecode -/

@[simp] theorem beginDecode_st (f : CallFrame) (s : State) : (beginDecode f s).st = s.st := rfl
@[simp] theorem beginDecode_fr (f : CallFrame) (s : State) : (beginDecode f s).fr = none := rfl
@[simp] theorem beginDecode_cf (f : CallFrame) (s : State) : (beginDecode f s).cf = some f := rfl
@[simp] theorem beginDecode_cand (f : CallFrame) (s : State) : (beginDecode f s).cand = seedSet s.cat f := rfl
@[simp] theorem beginDecode_buf (f : CallFrame) (s : State) : (beginDecode f s).buf = [] := rfl
@[simp] theorem beginDecode_len (f : CallFrame) (s : State) : (beginDecode f s).len = 0 := rfl
@[simp] theorem beginDecode_need (f : CallFrame) (s : State) : (beginDecode f s).need = 0 := rfl
@[simp] theorem beginDecode_ver (f : CallFrame) (s : State) : (beginDecode f s).ver = s.ver := rfl
@[simp] theorem beginDecode_cat (f : CallFrame) (s : State) : (beginDecode f s).cat = s.cat := rfl
@[simp] theorem beginDecode_verInit (f : CallFrame) (s : State) : (beginDecode f s).verInit = s.verInit := rfl
@[simp] theorem beginDecode_policy (f : CallFrame) (s : State) : (beginDecode f s).policy = s.policy := rfl
@[simp] theorem beginDecode_inp (f : CallFrame) (s : State) : (beginDecode f s).inp = s.inp := rfl
@[simp] theorem beginDecode_out (f : CallFrame) (s : State) : (beginDecode f s).out = s.out := rfl
@[simp] theorem beginDecode_log (f : CallFrame) (s : State) : (beginDecode f s).log = s.log := rfl
@[simp] theorem beginDecode_ret (f : CallFrame) (s : State) : (beginDecode f s).ret = s.ret := rfl

/-! ### backToCall -/

@[simp] theorem backToCall_st (s : State) : (backToCall s).st = .waitingForCall := rfl
@[simp] theorem backToCall_fr (s : State) : (backToCall s).fr = none := rfl
@[simp] theorem backToCall_cf (s : State) : (backToCall s).cf = none := rfl
@[simp] theorem backToCall_cand (s : State) : (backToCall s).cand = [] := rfl
@[simp] theorem backToCall_buf (s : State) : (backToCall s).buf = [] := rfl
@[simp] theorem backToCall_len (s : State) : (backToCall s).len = 0 := rfl
@[simp] theorem backToCall_need (s : State) : (backToCall s).need = 0 := rfl
@[simp] theorem backToCall_ver (s : State) : (backToCall s).ver = s.ver := rfl
@[simp] theorem backToCall_cat (s : State) : (backToCall s).cat = s.cat := rfl
@[simp] theorem backToCall_verInit (s : State) : (backToCall s).verInit = s.verInit := rfl
@[simp] theorem backToCall_policy (s : State) : (backToCall s).policy = s.policy := rfl
@[simp] theorem backToCall_inp (s : State) : (backToCall s).inp = s.inp := rfl
@[simp] theorem backToCall_out (s : State) : (backToCall s).out = s.out := rfl
@[simp] theorem backToCall_log (s : State) : (backToCall s).log = s.log := rfl
@[simp] theorem backToCall_ret (s : State) : (backToCall s).ret = s.ret := rfl

/-! ### The state after reset -/

@[simp] theorem reset_st : State.reset.st = .waitingForCall := rfl
@[simp] theorem reset_fr : State.reset.fr = none := rfl
@[simp] theorem reset_cf : State.reset.cf = none := rfl
@[simp] theorem reset_cand : State.reset.cand = [] := rfl
@[simp] theorem reset_buf : State.reset.buf = [] := rfl
@[simp] theorem reset_len : State.reset.len = 0 := rfl
@[simp] theorem reset_need : State.reset.need = 0 := rfl
@[simp] theorem reset_ver : State.reset.ver = Config.verInit := rfl
@[simp] theorem reset_cat : State.reset.cat = Config.catalog := rfl
@[simp] theorem reset_verInit : State.reset.verInit = Config.verInit := rfl
@[simp] theorem reset_policy : State.reset.policy = Config.unknownPolicy := rfl
@[simp] theorem reset_inp : State.reset.inp = [] := rfl
@[simp] theorem reset_out : State.reset.out = none := rfl
@[simp] theorem reset_log : State.reset.log = [] := rfl
@[simp] theorem reset_ret : State.reset.ret = none := rfl

end Sys2Proof.Machine
end

