-- ==== Sys2Proof/Laws/Memory.lean ====
section
/-! SUPPORT. The frame buffer: reading after writing, the canonical form, and reading a buffer whose slots are
exactly those below `len`. -/

namespace Sys2Proof.Machine

@[simp] theorem Memory.read_nil (a : Nat) : Memory.read [] a = none := rfl

theorem Memory.read_write_same (m : Memory) (a : Nat) (b : Byte) : (Memory.write m a b).read a = some b := by
  induction m with
  | nil => simp [Memory.write, Memory.read]
  | cons c m ih =>
    obtain ⟨k, v⟩ := c
    by_cases h1 : a < k
    · simp [Memory.write, Memory.read, h1]
    · by_cases h2 : a = k
      · simp [Memory.write, Memory.read, h2]
      · simp [Memory.write, Memory.read, h1, h2, Ne.symm h2, ih]

theorem Memory.read_write_other (m : Memory) (a c : Nat) (b : Byte) (h : a ≠ c) :
    (Memory.write m a b).read c = m.read c := by
  induction m with
  | nil => simp [Memory.write, Memory.read, h, Memory.unlisted]
  | cons d m ih =>
    obtain ⟨k, v⟩ := d
    by_cases h1 : a < k
    · simp [Memory.write, Memory.read, h1, h]
    · by_cases h2 : a = k
      · subst h2
        simp [Memory.write, Memory.read, h]
      · simp [Memory.write, Memory.read, h1, h2, ih]

theorem Memory.write_mem {m : Memory} {a : Nat} {b : Byte} {c : Host.Cell} (h : c ∈ Memory.write m a b) :
    c.1 = a ∨ c ∈ m := by
  induction m with
  | nil => simp_all [Memory.write]
  | cons d m ih =>
    obtain ⟨k, v⟩ := d
    unfold Memory.write at h
    split at h
    · rcases List.mem_cons.mp h with rfl | h
      · exact .inl rfl
      · exact .inr h
    · split at h
      · rcases List.mem_cons.mp h with rfl | h
        · exact .inl rfl
        · exact .inr (List.mem_cons_of_mem _ h)
      · rcases List.mem_cons.mp h with rfl | h
        · exact .inr List.mem_cons_self
        · exact (ih h).imp id (List.mem_cons_of_mem _)

/-- A write at a slot that exists keeps the canonical form. -/
theorem Memory.write_wf {m : Memory} {a : Nat} {b : Byte} (hm : m.wf) (ha : a < bufCap) :
    (Memory.write m a b).wf := by
  refine ⟨?_, fun c hc => ?_⟩
  · obtain ⟨hp, -⟩ := hm
    induction m with
    | nil => simp [Memory.write]
    | cons d m ih =>
      obtain ⟨k, v⟩ := d
      rw [List.map_cons, List.pairwise_cons] at hp
      unfold Memory.write
      split
      · rename_i hlt
        rw [List.map_cons, List.pairwise_cons, List.map_cons, List.pairwise_cons]
        refine ⟨?_, hp⟩
        intro x hx
        rcases List.mem_cons.mp hx with rfl | hx
        · exact hlt
        · exact Nat.lt_trans hlt (hp.1 x hx)
      · split
        · rename_i heq
          subst heq
          rw [List.map_cons, List.pairwise_cons]
          exact hp
        · rename_i hge hne
          rw [List.map_cons, List.pairwise_cons]
          refine ⟨fun x hx => ?_, ih hp.2⟩
          obtain ⟨c, hc, rfl⟩ := List.mem_map.mp hx
          rcases Memory.write_mem hc with h | h
          · show k < c.1
            omega
          · exact hp.1 _ (List.mem_map_of_mem h)
  · rcases Memory.write_mem hc with h | h
    · omega
    · exact hm.2 c h

theorem Memory.nil_wf : Memory.wf [] := ⟨List.Pairwise.nil, fun _ h => nomatch h⟩

theorem reset_memory_wf : State.reset.buf.wf := Memory.nil_wf

theorem clearWork_memory_wf (s : State) : (clearWork s).buf.wf := Memory.nil_wf

/-- Every store keeps the canonical form. -/
theorem storeByte_memory_wf {a : Nat} {b : Byte} {s t : State} (hs : s.buf.wf) (h : storeByte a b s = .ok t) :
    t.buf.wf := by
  unfold storeByte at h
  split at h
  · cases h
    exact Memory.write_wf hs ‹_›
  · cases h

theorem Memory.write_end {m : Memory} {b : Byte} {n : Nat} (h : ∀ c ∈ m, c.1 < n) :
    Memory.write m n b = m ++ [(n, b)] := by
  induction m with
  | nil => rfl
  | cons d m ih =>
    obtain ⟨k, v⟩ := d
    have hk : k < n := h (k, v) List.mem_cons_self
    have hm := ih fun c hc => h c (List.mem_cons_of_mem _ hc)
    simp [Memory.write, Nat.not_lt.mpr (Nat.le_of_lt hk), Nat.ne_of_gt hk, hm]

/-- Appending to a buffer whose slots are those below `n` adds slot `n`. -/
theorem Memory.write_append {m : Memory} {b : Byte} {n : Nat} (h : m.map (fun c => c.1) = List.range n) :
    Memory.write m n b = m ++ [(n, b)] :=
  Memory.write_end fun c hc => by
    have : c.1 ∈ List.range n := h ▸ List.mem_map_of_mem hc
    simpa using this

theorem Memory.read_append (m m' : Memory) (a : Nat) :
    Memory.read (m ++ m') a = match m.read a with | some b => some b | none => m'.read a := by
  induction m with
  | nil => rfl
  | cons d m ih =>
    obtain ⟨k, v⟩ := d
    by_cases h : k = a <;> simp [Memory.read, h, ih]

/-- Slot `i` of a buffer whose slots are those below `n` holds the `i`-th byte. -/
theorem Memory.read_range {m : Memory} {n : Nat} (h : m.map (fun c => c.1) = List.range n) (a : Nat) :
    m.read a = (m.map (fun c => c.2))[a]? := by
  induction n generalizing m with
  | zero => simp_all
  | succ n ih =>
    rw [List.range_succ] at h
    obtain ⟨m₁, m₂, rfl, h₁, h₂⟩ := List.map_eq_append_iff.mp h
    obtain ⟨⟨k, v⟩, rfl, hk⟩ : ∃ c : Host.Cell, m₂ = [c] ∧ c.1 = n := by
      match m₂, h₂ with
      | [c], h₂ => exact ⟨c, rfl, by simpa using h₂⟩
    have hlen : m₁.length = n := by simpa using congrArg List.length h₁
    simp only at hk
    subst hk
    rw [Memory.read_append, ih h₁, List.map_append]
    by_cases ha : a < k
    · rw [List.getElem?_append_left (by simpa [hlen] using ha), List.getElem?_eq_getElem (by simpa [hlen] using ha)]
    · rw [List.getElem?_append_right (by simpa [hlen] using Nat.le_of_not_lt ha),
        List.getElem?_eq_none (by simpa [hlen] using Nat.le_of_not_lt ha)]
      by_cases hk : k = a
      · simp [Memory.read, hk, hlen]
      · have h0 : a - k ≠ 0 := by omega
        simp [Memory.read, hk, hlen, h0, Memory.unlisted]

theorem BufWf.length {s : State} (h : BufWf s) : (bufBytes s).length = s.len.toNat := by
  simpa [bufBytes] using congrArg List.length h

/-- Under `BufWf` a slot below `len` is readable and holds the buffer's byte. -/
theorem BufWf.readSlot {s : State} (h : BufWf s) {a : Nat} (ha : a < s.len.toNat) :
    ∃ b, (bufBytes s)[a]? = some b ∧ readSlot s a = .ok b := by
  have hl := h.length
  refine ⟨(bufBytes s)[a]'(by omega), List.getElem?_eq_getElem _, ?_⟩
  have : s.buf.read a = some ((bufBytes s)[a]'(by omega)) := by
    rw [Memory.read_range h a]
    exact List.getElem?_eq_getElem _
  simp [Sys2Proof.Machine.readSlot, ha, this]

/-- Under `BufWf` a span below `len` is readable. -/
theorem BufWf.readSpan {s : State} (h : BufWf s) (n a : Nat) (ha : a + n ≤ s.len.toNat) :
    readSpan s a n = .ok (((bufBytes s).drop a).take n) := by
  induction n generalizing a with
  | zero => simp [Sys2Proof.Machine.readSpan]
  | succ n ih =>
    obtain ⟨b, hb, hr⟩ := h.readSlot (a := a) (by omega)
    have hd : (bufBytes s).drop a = b :: (bufBytes s).drop (a + 1) := by
      obtain ⟨hlt, hget⟩ := List.getElem?_eq_some_iff.mp hb
      rw [← hget]
      exact List.drop_eq_getElem_cons hlt
    simp [Sys2Proof.Machine.readSpan, hr, ih (a + 1) (by omega), hd]

/-- Under `BufWf` the frame's bytes are the buffer's. -/
theorem BufWf.frameBytes {s : State} (h : BufWf s) : frameBytes s = .ok (bufBytes s) := by
  have hl := h.length
  rw [Sys2Proof.Machine.frameBytes, h.readSpan _ _ (by omega)]
  simp [← hl]

end Sys2Proof.Machine
end

