-- ==== Sys2Proof/Laws/Ops.lean ====
section
/-! SUPPORT. What each shared operation can do, said once: if it answers a next state, then which. -/

namespace Sys2Proof.Machine

theorem withRead_next {α : Type} {x : Except Fault α} {k : α → Result} {t : State}
    (h : withRead x k = .next t) : ∃ a, x = .ok a ∧ k a = .next t := by
  cases x with
  | ok a => exact ⟨a, rfl, h⟩
  | error f => cases h

@[simp] theorem withRead_ok {α : Type} (a : α) (k : α → Result) : withRead (.ok a) k = k a := rfl

theorem readCf_ok {s : State} {f : CallFrame} : readCf s = .ok f ↔ s.cf = some f := by
  unfold readCf
  cases s.cf <;> simp

theorem readEntry_ok {s : State} {i : Nat} {d : MessageDefinition} :
    readEntry s i = .ok d ↔ s.cat.entries[i]? = some d := by
  unfold readEntry
  cases s.cat.entries[i]? <;> simp

theorem readFrame_ok {s : State} {f : CallFrame} {bs : List Byte} :
    readFrame s = .ok (f, bs) ↔ s.cf = some f ∧ frameBytes s = .ok bs := by
  unfold readFrame readCf
  cases hf : s.cf <;> simp
  cases hb : frameBytes s <;> simp

theorem BufWf.readFrame {s : State} (h : BufWf s) {f : CallFrame} (hf : s.cf = some f) :
    readFrame s = .ok (f, bufBytes s) :=
  readFrame_ok.mpr ⟨hf, h.frameBytes⟩

theorem storeByte_ok {a : Nat} {b : Byte} {s : State} (h : a < bufCap) :
    storeByte a b s = .ok { s with buf := s.buf.write a b, len := BitVec.ofNat 5 (a + 1) } := if_pos h

theorem storeByte_next {a : Nat} {b : Byte} {s t : State} (h : storeByte a b s = .ok t) :
    a < bufCap ∧ t = { s with buf := s.buf.write a b, len := BitVec.ofNat 5 (a + 1) } := by
  unfold storeByte at h
  split at h
  · cases h
    exact ⟨‹_›, rfl⟩
  · cases h

/-! ### The candidate set -/

theorem entryHolds_iff {c : Catalog} {P : MessageDefinition → Bool} {i : Nat} :
    entryHolds c P i = true ↔ ∃ d, c.entries[i]? = some d ∧ P d = true := by
  unfold entryHolds
  cases c.entries[i]? <;> simp

theorem mem_seedSet {c : Catalog} {f : CallFrame} {i : Nat} :
    i ∈ seedSet c f ↔ ∃ d, c.entries[i]? = some d ∧ patMatch d f = true := by
  rw [seedSet, List.mem_filter, entryHolds_iff]
  constructor
  · exact fun h => h.2
  · rintro ⟨d, hd, hp⟩
    obtain ⟨hlt, -⟩ := List.getElem?_eq_some_iff.mp hd
    exact ⟨List.mem_range.mpr hlt, d, hd, hp⟩

theorem mem_headerSet {c : Catalog} {b : Byte} {cand : List Nat} {i : Nat} :
    i ∈ headerSet c b cand ↔ i ∈ cand ∧ ∃ d, c.entries[i]? = some d ∧ hdrMatch d b = true := by
  rw [headerSet, List.mem_filter, entryHolds_iff]

theorem mem_identifierSet {c : Catalog} {b : Byte} {cand : List Nat} {i : Nat} :
    i ∈ identifierSet c b cand ↔ i ∈ cand ∧ ∃ d, c.entries[i]? = some d ∧ idAccepts d b = true := by
  rw [identifierSet, List.mem_filter, entryHolds_iff]

theorem mem_versionSet {c : Catalog} {v : Version} {cand : List Nat} {i : Nat} :
    i ∈ versionSet c v cand ↔ i ∈ cand ∧ ∃ d, c.entries[i]? = some d ∧ verMatch d v = true := by
  rw [versionSet, List.mem_filter, entryHolds_iff]

theorem someIdentifier_iff {c : Catalog} {cand : List Nat} :
    someIdentifier c cand = true ↔ ∃ i ∈ cand, ∃ d, c.entries[i]? = some d ∧ d.identifier.isSome = true := by
  simp only [someIdentifier, List.any_eq_true, entryHolds_iff]

theorem seedSet_rising (c : Catalog) (f : CallFrame) : (seedSet c f).Pairwise (fun i j => i < j) :=
  List.Pairwise.filter _ List.pairwise_lt_range

theorem mem_candLengths {c : Catalog} {h : Byte} {cand : List Nat} {n : Nat} :
    n ∈ candLengths c h cand ↔ ∃ i ∈ cand, ∃ d, c.entries[i]? = some d ∧ flen d h = n := by
  simp only [candLengths, List.mem_filterMap, Option.map_eq_some_iff]

theorem agreement_common {ns : List Nat} {n : Nat} :
    agreement ns = .common n ↔ ns ≠ [] ∧ ∀ k ∈ ns, k = n := by
  cases ns with
  | nil => simp [agreement]
  | cons m ms =>
    have hall : ms.all (fun k => k == m) = true ↔ ∀ k ∈ ms, k = m := by simp
    simp only [agreement, ne_eq, reduceCtorEq, not_false_eq_true, List.mem_cons, forall_eq_or_imp, true_and]
    split
    · rename_i h
      rw [Agreement.common.injEq]
      exact ⟨fun e => e ▸ ⟨rfl, hall.mp h⟩, fun e => e.1⟩
    · rename_i h
      simp only [reduceCtorEq, false_iff]
      exact fun e => h (hall.mpr fun k hk => (e.2 k hk).trans e.1.symm)

theorem agreement_empty {ns : List Nat} : agreement ns = .empty ↔ ns = [] := by
  cases ns with
  | nil => simp [agreement]
  | cons m ms =>
    simp only [agreement, reduceCtorEq, iff_false]
    split <;> simp

theorem finalizeSet_unique {cand : List Nat} {i : Nat} : finalizeSet cand = .unique i ↔ cand = [i] := by
  match cand with
  | [] => simp [finalizeSet]
  | [j] => simp [finalizeSet]
  | j :: k :: _ => simp [finalizeSet]

theorem finalizeSet_ambiguous {cand : List Nat} : finalizeSet cand = .ambiguousDefinition ↔ 2 ≤ cand.length := by
  match cand with
  | [] => simp [finalizeSet]
  | [j] => simp [finalizeSet]
  | j :: k :: _ => simp [finalizeSet]

theorem finalizeSet_none {cand : List Nat} : finalizeSet cand = .noMatchingDefinition ↔ cand = [] := by
  match cand with
  | [] => simp [finalizeSet]
  | [j] => simp [finalizeSet]
  | j :: k :: _ => simp [finalizeSet]

/-! ### The outcomes -/

/-- What a step that ends in Emit or Fail does: it produces one record, clears the working state, and leaves
`ver`, the catalog, the parameters and the interface alone. -/
structure Ends (s t : State) (r : OutputRecord) : Prop where
  produced : Produced r s t
  clear : WorkClear t
  machine : SameMachine s t
  interface : SameInterface s t
  ver : t.ver = s.ver
  record : RecordWf r
  outcome : (r.ok = true ∧ t.st = .emit ∧ t.fr = s.fr) ∨ (r.ok = false ∧ t.st = .fail ∧ t.fr = r.reason ∧ r.reason ≠ none)

theorem callOnlyRecord_wf (f : CallFrame) : RecordWf (callOnlyRecord f) := by
  constructor <;> simp [callOnlyRecord]

theorem messageRecord_wf (f : CallFrame) (i : Nat) (m : Carved) (raw : List Byte) :
    RecordWf (messageRecord f i m raw) := by
  constructor <;> simp [messageRecord]

theorem callFailRecord_wf {r : FailReason} (h : r = .parityError ∨ r = .unclassifiedCallError) (b : Byte)
    (t : Timestamp) : RecordWf (callFailRecord r b t) := by
  rcases h with rfl | rfl <;> constructor <;> simp [callFailRecord]

theorem frameFailRecord_wf {r : FailReason} (h : r = .noMatchingDefinition ∨ r = .ambiguousDefinition)
    (f : CallFrame) (raw : List Byte) : RecordWf (frameFailRecord r f raw) := by
  rcases h with rfl | rfl <;> constructor <;> simp [frameFailRecord]

theorem checksumFailRecord_wf (f : CallFrame) (i : Nat) (m : Carved) (raw : List Byte) :
    RecordWf (checksumFailRecord f i m raw) := by
  constructor <;> simp [checksumFailRecord]

theorem map_ok {α β : Type} {x : Except Fault α} {g : α → β} {b : β} (h : x.map g = .ok b) :
    ∃ a, x = .ok a ∧ b = g a := by
  cases x with
  | ok a => exact ⟨a, rfl, by simpa [Except.map] using h.symm⟩
  | error f => cases h

/-- The record a failure entry forms is a failure's record, with the reason of its cause. -/
theorem failRecord_spec {s : State} {c : FailCause} {r : OutputRecord} (h : failRecord s c = .ok r) :
    RecordWf r ∧ r.ok = false ∧ r.reason = some (failReason c) := by
  cases c with
  | parityError b t => cases h; exact ⟨callFailRecord_wf (.inl rfl) _ _, rfl, rfl⟩
  | unclassifiedCallError b t => cases h; exact ⟨callFailRecord_wf (.inr rfl) _ _, rfl, rfl⟩
  | noMatchingDefinition =>
    obtain ⟨p, -, rfl⟩ := map_ok h
    exact ⟨frameFailRecord_wf (.inl rfl) _ _, rfl, rfl⟩
  | ambiguousDefinition =>
    obtain ⟨p, -, rfl⟩ := map_ok h
    exact ⟨frameFailRecord_wf (.inr rfl) _ _, rfl, rfl⟩
  | checksumError i m =>
    obtain ⟨p, -, rfl⟩ := map_ok h
    exact ⟨checksumFailRecord_wf _ _ _ _, rfl, rfl⟩

theorem raiseFail_next {c : FailCause} {s t : State} (h : raiseFail c s = .next t) :
    ∃ r, failRecord s c = .ok r ∧ t = failOutcome r c s := by
  obtain ⟨r, hr, hk⟩ := withRead_next h
  exact ⟨r, hr, by simpa using hk.symm⟩

theorem workClear_clearWork (s : State) : WorkClear (clearWork s) := ⟨rfl, rfl, rfl, rfl, rfl⟩

theorem raiseFail_ends {c : FailCause} {s t : State} (h : raiseFail c s = .next t) :
    ∃ r, failRecord s c = .ok r ∧ Ends s t r := by
  obtain ⟨r, hr, rfl⟩ := raiseFail_next h
  obtain ⟨hw, ho, hf⟩ := failRecord_spec hr
  exact ⟨r, hr, ⟨rfl, rfl⟩, workClear_clearWork s, ⟨rfl, rfl, rfl⟩, ⟨rfl, rfl⟩, rfl, hw,
    .inr ⟨ho, rfl, hf.symm, by simp [hf]⟩⟩

theorem emitOutcome_ends {r : OutputRecord} (s : State) (hw : RecordWf r) (ho : r.ok = true) :
    Ends s (emitOutcome r s) r :=
  ⟨⟨rfl, rfl⟩, workClear_clearWork s, ⟨rfl, rfl, rfl⟩, ⟨rfl, rfl⟩, rfl, hw, .inl ⟨ho, rfl, rfl⟩⟩

theorem callOnlyOutcome_next {s t : State} (h : callOnlyOutcome s = .next t) :
    ∃ f, s.cf = some f ∧ t = emitOutcome (callOnlyRecord f) s := by
  obtain ⟨f, hf, hk⟩ := withRead_next h
  exact ⟨f, readCf_ok.mp hf, by simpa using hk.symm⟩

theorem messageOutcome_next {i : Nat} {m : Carved} {s t : State} (h : messageOutcome i m s = .next t) :
    ∃ f bs, s.cf = some f ∧ frameBytes s = .ok bs ∧ t = emitOutcome (messageRecord f i m bs) s := by
  obtain ⟨⟨f, bs⟩, hf, hk⟩ := withRead_next h
  obtain ⟨h1, h2⟩ := readFrame_ok.mp hf
  exact ⟨f, bs, h1, h2, by simpa using hk.symm⟩

theorem unknownOutcome_next {s t : State} (h : unknownOutcome s = .next t) :
    (s.policy = .emitCallOnly ∧ callOnlyOutcome s = .next t)
      ∨ (s.policy = .expectHeader ∧ t = { s with st := .waitingForHeader }) := by
  unfold unknownOutcome at h
  split at h
  · exact .inl ⟨‹_›, h⟩
  · exact .inr ⟨‹_›, by simpa using h.symm⟩

/-- Judging a message emits it, or fails with ChecksumError. -/
theorem judgeMessage_next {i : Nat} {s t : State} (h : judgeMessage i s = .next t) :
    ∃ d m, s.cat.entries[i]? = some d ∧ carveFields d s = .ok m
      ∧ ((messageOutcome i m s = .next t ∧ (d.requiresChecksum = true → checksumOk s = .ok true))
        ∨ (raiseFail (.checksumError i m) s = .next t ∧ d.requiresChecksum = true ∧ checksumOk s = .ok false)) := by
  obtain ⟨d, hd, h⟩ := withRead_next h
  obtain ⟨m, hm, h⟩ := withRead_next h
  refine ⟨d, m, readEntry_ok.mp hd, hm, ?_⟩
  split at h
  · rename_i hck
    obtain ⟨good, hg, h⟩ := withRead_next h
    cases good with
    | true => exact .inl ⟨h, fun _ => hg⟩
    | false => exact .inr ⟨h, hck, hg⟩
  · rename_i hck
    exact .inl ⟨h, fun e => absurd e hck⟩

/-- `process()` always ends the decode (R105): "always exactly one record". -/
theorem processFrame_ends {s t : State} (h : processFrame s = .next t) : ∃ r, Ends s t r := by
  have lift : ∀ {r}, Ends { s with st := .processingData, cand := versionSet s.cat s.ver s.cand } t r → Ends s t r :=
    fun e => ⟨e.produced, e.clear, e.machine, e.interface, e.ver, e.record, e.outcome⟩
  unfold processFrame at h
  simp only at h
  split at h
  · obtain ⟨r, -, e⟩ := raiseFail_ends h
    exact ⟨r, lift e⟩
  · obtain ⟨r, -, e⟩ := raiseFail_ends h
    exact ⟨r, lift e⟩
  · obtain ⟨d, m, -, -, ⟨h, -⟩ | ⟨h, -, -⟩⟩ := judgeMessage_next h
    · obtain ⟨f, bs, -, -, rfl⟩ := messageOutcome_next h
      exact ⟨_, lift (emitOutcome_ends _ (messageRecord_wf _ _ _ _) rfl)⟩
    · obtain ⟨r, -, e⟩ := raiseFail_ends h
      exact ⟨r, lift e⟩

/-- Committing to a frame length ends the decode or starts the data phase (R103). -/
theorem commitLength_next {n : Nat} {s t : State} (h : commitLength n s = .next t) :
    (∃ r, Ends s t r)
      ∨ (s.len.toNat < n ∧ t = { s with need := BitVec.ofNat 5 (n - s.len.toNat), st := .waitingForData }) := by
  unfold commitLength at h
  split at h
  · obtain ⟨r, -, e⟩ := raiseFail_ends h
    exact .inl ⟨r, e⟩
  · split at h
    · exact .inl (processFrame_ends h)
    · exact .inr ⟨by omega, by simpa using h.symm⟩

/-- `enter_data()` ends the decode or starts the data phase at the common length of the survivors it leaves
(R103). -/
theorem enterDataPhase_next {s t : State} (h : enterDataPhase s = .next t) :
    (∃ r, Ends s t r)
      ∨ ∃ hd n cand, readSlot s 0 = .ok hd ∧ (cand = s.cand ∨ cand = versionSet s.cat s.ver s.cand)
        ∧ agreement (candLengths s.cat hd cand) = .common n ∧ s.len.toNat < n
        ∧ t = { s with cand := cand, need := BitVec.ofNat 5 (n - s.len.toNat), st := .waitingForData } := by
  have lift : ∀ {r cand}, Ends { s with cand := cand } t r → Ends s t r :=
    fun e => ⟨e.produced, e.clear, e.machine, e.interface, e.ver, e.record, e.outcome⟩
  obtain ⟨hd, hr, h⟩ := withRead_next h
  split at h
  · obtain ⟨r, -, e⟩ := raiseFail_ends h
    exact .inl ⟨r, e⟩
  · rename_i n ha
    rcases commitLength_next h with e | ⟨hlt, rfl⟩
    · exact .inl e
    · exact .inr ⟨hd, n, s.cand, hr, .inl rfl, ha, hlt, rfl⟩
  · simp only at h
    split at h
    · obtain ⟨r, -, e⟩ := raiseFail_ends h
      exact .inl ⟨r, lift e⟩
    · obtain ⟨r, -, e⟩ := raiseFail_ends h
      exact .inl ⟨r, lift e⟩
    · rename_i n ha
      rcases commitLength_next h with ⟨r, e⟩ | ⟨hlt, rfl⟩
      · exact .inl ⟨r, lift e⟩
      · exact .inr ⟨hd, n, _, hr, .inr rfl, ha, hlt, rfl⟩

/-- The call-byte step ends the decode or awaits a header with the seeded set (R97). -/
theorem acceptCall_next {f : CallFrame} {s t : State} (h : acceptCall f s = .next t) :
    (f.kind ≠ .framedMessage ∧ t = emitOutcome (callOnlyRecord f) (beginDecode f s))
      ∨ ((f.kind = .framedMessage ∨ (f.kind = .unknown ∧ s.policy = .expectHeader))
        ∧ t = { beginDecode f s with st := .waitingForHeader }) := by
  have bare : ∀ {s' : State}, s'.cf = some f → callOnlyOutcome s' = .next t → t = emitOutcome (callOnlyRecord f) s' := by
    intro s' hc h
    obtain ⟨g, hg, rfl⟩ := callOnlyOutcome_next h
    simp_all
  unfold acceptCall at h
  split at h
  · exact .inl ⟨by simp [*], bare rfl h⟩
  · exact .inl ⟨by simp [*], bare rfl h⟩
  · exact .inl ⟨by simp [*], bare rfl h⟩
  · rcases unknownOutcome_next h with ⟨-, h⟩ | ⟨hp, rfl⟩
    · exact .inl ⟨by simp [*], bare rfl h⟩
    · exact .inr ⟨.inr ⟨‹_›, hp⟩, rfl⟩
  · exact .inr ⟨.inl ‹_›, by simpa using h.symm⟩

/-- `header_step` ends the decode, awaits an identifier, or starts the data phase (R101). -/
theorem takeHeader_next {b : Byte} {s t : State} (h : takeHeader b s = .next t) :
    ∃ s1, s1 = { s with buf := s.buf.write 0 b, len := 1, cand := headerSet s.cat b s.cand }
      ∧ ((s1.cand = [] ∧ raiseFail .noMatchingDefinition s1 = .next t)
        ∨ (s1.cand ≠ [] ∧ someIdentifier s.cat s1.cand = true ∧ t = { s1 with st := .waitingForIdentifier })
        ∨ (s1.cand ≠ [] ∧ someIdentifier s.cat s1.cand = false ∧ enterDataPhase s1 = .next t)) := by
  obtain ⟨s0, hs, h⟩ := withRead_next h
  obtain ⟨-, rfl⟩ := storeByte_next hs
  refine ⟨_, rfl, ?_⟩
  simp only at h
  split at h
  · exact .inl ⟨‹_›, h⟩
  · split at h
    · exact .inr (.inl ⟨‹_›, ‹_›, by simpa using h.symm⟩)
    · exact .inr (.inr ⟨‹_›, by simpa using ‹¬ someIdentifier _ _ = true›, h⟩)

/-- `identifier_step` ends the decode or starts the data phase (R102). -/
theorem takeIdentifier_next {b : Byte} {s t : State} (h : takeIdentifier b s = .next t) :
    ∃ s1, s1 = { s with buf := s.buf.write 1 b, len := 2, cand := identifierSet s.cat b s.cand }
      ∧ ((s1.cand = [] ∧ raiseFail .noMatchingDefinition s1 = .next t)
        ∨ (s1.cand ≠ [] ∧ enterDataPhase s1 = .next t)) := by
  obtain ⟨s0, hs, h⟩ := withRead_next h
  obtain ⟨-, rfl⟩ := storeByte_next hs
  refine ⟨_, rfl, ?_⟩
  simp only at h
  split at h
  · exact .inl ⟨‹_›, h⟩
  · exact .inr ⟨‹_›, h⟩

/-- `data_step` collects a byte; the last one runs `process()` (R104). -/
theorem takeData_next {b : Byte} {s t : State} (h : takeData b s = .next t) :
    s.len.toNat < bufCap
      ∧ ∃ s1, s1 = { s with buf := s.buf.write s.len.toNat b, len := BitVec.ofNat 5 (s.len.toNat + 1), need := s.need - 1 }
        ∧ ((s1.need = 0 ∧ processFrame s1 = .next t) ∨ (s1.need ≠ 0 ∧ t = s1)) := by
  obtain ⟨s0, hs, h⟩ := withRead_next h
  obtain ⟨hlt, rfl⟩ := storeByte_next hs
  refine ⟨hlt, _, rfl, ?_⟩
  simp only at h
  split at h
  · exact .inl ⟨‹_›, h⟩
  · exact .inr ⟨‹_›, by simpa using h.symm⟩

/-! ### When the operations complete, and with what -/

/-- A failure entry on a readable frame (spec/60_exceptions.md R143). -/
theorem raiseFail_of_readFrame {c : FailCause} {s : State} {f : CallFrame} {bs : List Byte}
    (h : readFrame s = .ok (f, bs)) :
    raiseFail c s = .next (failOutcome
      (match c with
       | .parityError b t => callFailRecord .parityError b t
       | .unclassifiedCallError b t => callFailRecord .unclassifiedCallError b t
       | .noMatchingDefinition => frameFailRecord .noMatchingDefinition f bs
       | .ambiguousDefinition => frameFailRecord .ambiguousDefinition f bs
       | .checksumError i m => checksumFailRecord f i m bs) c s) := by
  cases c <;> simp [raiseFail, failRecord, h, Except.map]

theorem callOnlyOutcome_of_cf {s : State} {f : CallFrame} (h : s.cf = some f) :
    callOnlyOutcome s = .next (emitOutcome (callOnlyRecord f) s) := by
  simp [callOnlyOutcome, readCf_ok.mpr h]

theorem messageOutcome_of_readFrame {i : Nat} {m : Carved} {s : State} {f : CallFrame} {bs : List Byte}
    (h : readFrame s = .ok (f, bs)) : messageOutcome i m s = .next (emitOutcome (messageRecord f i m bs) s) := by
  simp [messageOutcome, h]

theorem checksumOk_of_bufWf {s : State} (hb : BufWf s) (hl : 1 ≤ s.len.toNat) :
    checksumOk s = .ok (checksumHolds (bufBytes s)) := by
  rw [checksumOk, if_neg (by omega), hb.frameBytes]
  rfl

/-- `header_step` without its store (spec/42_frame_assembler.md R101): slot 0 always exists. -/
theorem takeHeader_eq (b : Byte) (s : State) :
    takeHeader b s =
      let s1 := { s with buf := s.buf.write 0 b, len := 1, cand := headerSet s.cat b s.cand }
      if s1.cand = [] then raiseFail .noMatchingDefinition s1
      else if someIdentifier s1.cat s1.cand then .next { s1 with st := .waitingForIdentifier }
      else enterDataPhase s1 := by
  rw [takeHeader, storeByte_ok (by decide)]
  rfl

/-- `identifier_step` without its store (R102). -/
theorem takeIdentifier_eq (b : Byte) (s : State) :
    takeIdentifier b s =
      let s1 := { s with buf := s.buf.write 1 b, len := 2, cand := identifierSet s.cat b s.cand }
      if s1.cand = [] then raiseFail .noMatchingDefinition s1 else enterDataPhase s1 := by
  rw [takeIdentifier, storeByte_ok (by decide)]
  rfl

/-- `data_step` without its store (R104), where slot `len` exists. -/
theorem takeData_eq (b : Byte) (s : State) (h : s.len.toNat < bufCap) :
    takeData b s =
      let s1 := { s with buf := s.buf.write s.len.toNat b, len := BitVec.ofNat 5 (s.len.toNat + 1), need := s.need - 1 }
      if s1.need = 0 then processFrame s1 else .next s1 := by
  rw [takeData, storeByte_ok h]
  rfl

/-- Two lengths among the survivors are a disagreement (R103). -/
theorem agreement_mixed {ns : List Nat} {m n : Nat} (hm : m ∈ ns) (hn : n ∈ ns) (h : m ≠ n) : agreement ns = .mixed := by
  cases ha : agreement ns with
  | mixed => rfl
  | empty =>
    rw [agreement_empty.mp ha] at hm
    cases hm
  | common k =>
    have hk := (agreement_common.mp ha).2
    exact absurd ((hk m hm).trans (hk n hn).symm) h

end Sys2Proof.Machine
end

