-- ==== Sys2Proof/Laws/PerInstr.lean ====
section
/-! SUPPORT. One lemma per instruction for statements about all instructions as syntax. -/

namespace Sys2Proof.Laws.EncodedAsOneEvent

/-- An instruction that has a word is presented by the port sample of exactly one event
(spec/30_encoding.md R59). -/
def Statement (i : Instr) : Prop :=
  ∀ p, encode i = some p → ∃ e, encodeEvent i = some e ∧ portEvents p = [e]

theorem sendRequest (x : BitVec 1) (y : Address) (z : Timestamp) : Statement (.sendRequest x y z) := fun _ h => by cases h; exact ⟨_, rfl, rfl⟩
theorem requestResend (x : BitVec 1) (y : Address) (z : Timestamp) : Statement (.requestResend x y z) := fun _ h => by cases h; exact ⟨_, rfl, rfl⟩
theorem broadcastFeedbackPoll (x : BitVec 1) (y : Timestamp) : Statement (.broadcastFeedbackPoll x y) := fun _ h => by cases h; exact ⟨_, rfl, rfl⟩
theorem framedMessageBcast (x : BitVec 1) (y : Timestamp) : Statement (.framedMessageBcast x y) := fun _ h => by cases h; exact ⟨_, rfl, rfl⟩
theorem framedMessageAddr (x : BitVec 1) (y : Address) (z : Timestamp) : Statement (.framedMessageAddr x y z) := fun _ h => by cases h; exact ⟨_, rfl, rfl⟩
theorem unknown (x : BitVec 1) (y : Address) (z : Timestamp) : Statement (.unknown x y z) := fun _ h => by cases h; exact ⟨_, rfl, rfl⟩
theorem parityError (x : BitVec 1) (y : TypeCode) (z : Address) (w : Timestamp) : Statement (.parityError x y z w) := fun _ h => by cases h; exact ⟨_, rfl, rfl⟩
theorem unclassifiedCallError (x : BitVec 1) (y : TypeCode) (z : Address) (w : Timestamp) : Statement (.unclassifiedCallError x y z w) := fun _ h => by cases h; exact ⟨_, rfl, rfl⟩
theorem parityValid (x : Byte) : Statement (.parityValid x) := fun _ h => nomatch h
theorem classify (x : Byte) (y : Timestamp) : Statement (.classify x y) := fun _ h => nomatch h
theorem callStep (x : Byte) (y : Timestamp) : Statement (.callStep x y) := fun _ h => by cases h; exact ⟨_, rfl, rfl⟩
theorem emitCallOnly : Statement .emitCallOnly := fun _ h => nomatch h
theorem unknownCall : Statement .unknownCall := fun _ h => nomatch h
theorem framedCall : Statement .framedCall := fun _ h => nomatch h
theorem headerStep (x : Byte) : Statement (.headerStep x) := fun _ h => by cases h; exact ⟨_, rfl, rfl⟩
theorem identifierStep (x : Byte) : Statement (.identifierStep x) := fun _ h => by cases h; exact ⟨_, rfl, rfl⟩
theorem enterData : Statement .enterData := fun _ h => nomatch h
theorem dataStep (x : Byte) : Statement (.dataStep x) := fun _ h => by cases h; exact ⟨_, rfl, rfl⟩
theorem process : Statement .process := fun _ h => nomatch h
theorem emitMessage (x : Nat) (y : Carved) : Statement (.emitMessage x y) := fun _ h => nomatch h
theorem carve (x : Nat) : Statement (.carve x) := fun _ h => nomatch h
theorem clearWork : Statement .clearWork := fun _ h => nomatch h
theorem seed : Statement .seed := fun _ h => nomatch h
theorem applyHeader (x : Byte) : Statement (.applyHeader x) := fun _ h => nomatch h
theorem applyIdentifier (x : Byte) : Statement (.applyIdentifier x) := fun _ h => nomatch h
theorem applyVersion : Statement .applyVersion := fun _ h => nomatch h
theorem finalize : Statement .finalize := fun _ h => nomatch h
theorem checksumOk : Statement .checksumOk := fun _ h => nomatch h
theorem raiseFail (x : FailCause) : Statement (.raiseFail x) := fun _ h => nomatch h
theorem ver (x : Version) : Statement (.ver x) := fun _ h => by cases h; exact ⟨_, rfl, rfl⟩
theorem discard : Statement .discard := fun _ h => by cases h; exact ⟨_, rfl, rfl⟩
theorem reset : Statement .reset := fun _ h => by cases h; exact ⟨_, rfl, rfl⟩
theorem byte (x : Byte) (y : Timestamp) : Statement (.byte x y) := fun _ h => by cases h; exact ⟨_, rfl, rfl⟩

end Sys2Proof.Laws.EncodedAsOneEvent
end

