-- ==== Sys2Proof/Tests/Slice0.lean ====
section
/-! SUPPORT. Small tests. Every expected value is taken from the vectors of spec/95_test_vectors.md (named V-…
below), from an example of the rule named, or worked out by hand from the rule; then a witness for the hypotheses of each
statement of Sys2Proof/Certificates/Slice0/Obligations.lean. -/

namespace Sys2Proof.Tests

open Sys2Proof.Machine

/-! ### Well-formedness: each check refuses an ill-formed term -/

theorem test_wf_sendRequest_parity : (Instr.sendRequest 0 1 0).wellFormed = false := by decide
theorem test_wf_requestResend_parity : (Instr.requestResend 0 3 0).wellFormed = false := by decide
theorem test_wf_requestResend_broadcast : (Instr.requestResend 1 0 0).wellFormed = false := by decide
theorem test_wf_framedAddr_parity : (Instr.framedMessageAddr 0 3 0).wellFormed = false := by decide
theorem test_wf_framedAddr_broadcast : (Instr.framedMessageAddr 0 0 0).wellFormed = false := by decide
theorem test_wf_unknown_parity : (Instr.unknown 0 1 0).wellFormed = false := by decide
theorem test_wf_unknown_broadcast : (Instr.unknown 0 0 0).wellFormed = false := by decide
theorem test_wf_parityError_valid : (Instr.parityError 0 2 3 0).wellFormed = false := by decide
theorem test_wf_parityError_relaxed : (Instr.parityError 1 3 0 0).wellFormed = false := by decide
theorem test_wf_unclassified : ∀ (p : BitVec 1) (ty : TypeCode) (a : Address),
    (Instr.unclassifiedCallError p ty a 0).wellFormed = false := by decide +kernel
theorem test_wf_emitMessage_payload :
    (Instr.emitMessage 0 { header := none, ident := none, payload := List.replicate 16 0 }).wellFormed = false := by decide
theorem test_wf_raiseFail_parity : (Instr.raiseFail (.parityError 0x43 0)).wellFormed = false := by decide
theorem test_wf_raiseFail_relaxed : (Instr.raiseFail (.parityError 0xE0 0)).wellFormed = false := by decide
theorem test_wf_raiseFail_unclassified : (Instr.raiseFail (.unclassifiedCallError 0 0)).wellFormed = false := by decide
theorem test_wf_raiseFail_payload :
    (Instr.raiseFail (.checksumError 0 { header := none, ident := none, payload := List.replicate 16 0 })).wellFormed = false := by
  decide

/-! ### The test catalogs of spec/95_test_vectors.md section 2 -/

/-- An entry for addressed FramedMessage calls with a header and a checksum. -/
def framedEntry (h : Byte) (n : Nat) (ident : Option IdPattern) (vmin vmax : Version) : MessageDefinition where
  name := ""
  cbp := { type := 3, parityRequired := true, broadcast := false }
  header := some h
  dataLength := .fixed n
  identifier := ident
  vmin := vmin
  vmax := vmax
  requiresChecksum := true

/-- TCAT entry 0. -/
def bareEntry : MessageDefinition where
  name := "T_CallSend"
  cbp := { type := 2, parityRequired := true, broadcast := false }
  header := none
  dataLength := .fixed 0
  identifier := none
  vmin := 0
  vmax := 255
  requiresChecksum := false

/-- TCAT entry 1. -/
def feedbackEntry : MessageDefinition where
  name := "BroadcastFeedbackExtended"
  cbp := { type := 3, parityRequired := false, broadcast := true }
  header := some 0x40
  dataLength := .variableLength
  identifier := none
  vmin := 0
  vmax := 255
  requiresChecksum := true

/-- TCAT entries 3 to 9; entry 2 is in `tcatEntries`. -/
def statusV3 : MessageDefinition := framedEntry 0x62 1 (some ⟨0x22, false, 0⟩) 30 255
def statusV2 : MessageDefinition := framedEntry 0x62 1 (some ⟨0x23, false, 0⟩) 0 29
def locoFamily : MessageDefinition := framedEntry 0xE4 2 (some ⟨0x10, true, 4⟩) 30 255
def shortV2 : MessageDefinition := framedEntry 0x52 1 none 0 29
def longV3 : MessageDefinition := framedEntry 0x52 2 none 30 255
def stopV3 : MessageDefinition := framedEntry 0x21 0 (some ⟨0x80, false, 0⟩) 30 255
def genericV2 : MessageDefinition := framedEntry 0x21 1 none 0 29

def tcatEntries : List MessageDefinition :=
  [bareEntry, feedbackEntry, framedEntry 0x63 2 (some ⟨0x21, false, 0⟩) 0 255, statusV3, statusV2, locoFamily,
    shortV2, longV3, stopV3, genericV2]

def tcat : Catalog := { entries := tcatEntries, wf := by decide }

/-- TCAT_BAD: TCAT and entry 10. -/
def tcatBad : Catalog := { entries := tcatEntries ++ [framedEntry 0xE4 2 (some ⟨0x13, false, 0⟩) 30 255], wf := by decide }

theorem test_integrity_tcat : integrity tcat.entries = true := by decide
theorem test_integrity_tcatBad : integrity tcatBad.entries = false := by decide

/-- The ROM words that section 2 prints. -/
theorem test_rom_words : tcatEntries.map romWord
    = [0xA000000001FE, 0xDA04000001FF, 0xEB18A42001FF, 0xEB1064403DFF, 0xEB106460003B, 0xEF20A2183DFF, 0xEA904000003B,
       0xEA9080003DFF, 0xE90830003DFF, 0xE9084000003B] := by decide

/-- Section 2: the frame lengths. -/
theorem test_frame_lengths : tcatEntries.map (fun d => flen d 0x4F) = [1, 17, 5, 4, 4, 5, 3, 4, 3, 3] := by decide

/-- R32: each of WF2 to WF8 refuses a catalog. -/
theorem test_wf2_refuses : loadCatalog [{ bareEntry with dataLength := .variableLength }] = none := by decide
theorem test_wf3_refuses : loadCatalog [{ statusV3 with dataLength := .fixed 16 }] = none := by decide
theorem test_wf4_refuses : loadCatalog [{ statusV3 with identifier := some ⟨0, true, 8⟩ }] = none := by decide
theorem test_wf6_refuses : loadCatalog [{ bareEntry with requiresChecksum := true }] = none := by decide
theorem test_wf7_refuses : loadCatalog [{ statusV3 with requiresChecksum := false }] = none := by decide
theorem test_wf8_refuses : loadCatalog [{ bareEntry with cbp := { type := 3, parityRequired := true, broadcast := false } }] = none := by
  decide

/-- D21: the width of a definition index for one entry and for ten. -/
theorem test_defIdWidth : defIdWidth 1 = 0 ∧ defIdWidth 10 = 4 := by decide
/-- R60: version 3.6 is 36; a value above 25.5 is refused (U9). -/
theorem test_versionOf : versionOf 3 6 = some 36 ∧ versionOf 25 6 = none := by decide

/-! ### Decoding: words written out bit by bit from the patterns of R68 to R75 -/

/-- V-C1, p10aaaaa. -/
theorem test_decode_sendRequest : decodeTableWord 8 0b01000011 = some (.sendRequest 0 3 0) := by decide
/-- V-C8, p00aaaaa. -/
theorem test_decode_requestResend : decodeTableWord 8 0b10000001 = some (.requestResend 1 1 0) := by decide
/-- V-C13, p0100000. -/
theorem test_decode_broadcastFeedbackPoll : decodeTableWord 8 0b10100000 = some (.broadcastFeedbackPoll 1 0) := by decide
/-- V-C18, p1100000. -/
theorem test_decode_framedMessageBcast : decodeTableWord 8 0b11100000 = some (.framedMessageBcast 1 0) := by decide
/-- V-C22, p11aaaaa. -/
theorem test_decode_framedMessageAddr : decodeTableWord 8 0b01111111 = some (.framedMessageAddr 0 31 0) := by decide
/-- V-C14, p01aaaaa. -/
theorem test_decode_unknown : decodeTableWord 8 0b00100011 = some (.unknown 0 3 0) := by decide
/-- V-C21. -/
theorem test_decode_parityError : decodeTableWord 8 0b01100011 = some (.parityError 0 3 3 0) := by decide
/-- V-C10: not UnclassifiedCallError. -/
theorem test_decode_zero : decodeTableWord 8 0 = some (.parityError 0 0 0 0) := by decide
/-- R96: the same byte in the other states. -/
theorem test_decode_header : decodeEvent .waitingForHeader (.byte 0b01000011 5) = .instr (.headerStep 0b01000011) := by decide
theorem test_decode_identifier : decodeEvent .waitingForIdentifier (.byte 0b10000000 5) = .instr (.identifierStep 0b10000000) := by decide
theorem test_decode_data : decodeEvent .waitingForData (.byte 0b00000101 5) = .instr (.dataStep 0b00000101) := by decide
theorem test_decode_processingData : decodeEvent .processingData (.byte 0 5) = .refused .byteInProcessingData := by decide
theorem test_decode_ver : decodeEvent .emit (.ver 36) = .instr (.ver 36) := by decide
theorem test_decode_discard : decodeEvent .fail .discard = .instr .discard := by decide
theorem test_decode_reset : decodeEvent .waitingForData .reset = .instr .reset := by decide
/-- A row without bits has no word. -/
theorem test_decode_no_word : decodeTableWord 0 0 = none := by decide
/-- R130: `rst` alone wins, else VER, DISCARD, BYTE. -/
theorem test_portEvents_order :
    portEvents ⟨false, true, 0x45, 7, true, 36, true⟩ = [.ver 36, .discard, .byte 0x45 7] := by decide
theorem test_portEvents_reset : portEvents ⟨true, true, 0x45, 7, true, 36, true⟩ = [.reset] := by decide

/-- R57: how many of the 256 values classify as each kind, and how many fail. -/
def countKind (c : CallKind) : Nat :=
  ((List.range 256).filter fun n =>
    match classifyCall (BitVec.ofNat 8 n) 0 with
    | .frame f => f.kind == c
    | .parityError => false
    | .unclassifiedCallError => false).length

theorem test_counts : [CallKind.framedMessage, .requestResend, .sendRequest, .unknown, .broadcastFeedbackPoll].map countKind
    = [34, 32, 32, 30, 2] := by decide +kernel

/-! ### Helper states -/

/-- The CallFrame of `0x61 @7`: FramedMessage, address 1. -/
def frame61 : CallFrame := { kind := .framedMessage, addr := 1, raw := 0x61, ts := 7, bcast := false }

/-- Before a call byte, catalog TCAT, `ver = 36`, `VER_INIT = 0`. -/
def atCall : State := { resetWith tcat 0 .emitCallOnly [] with ver := 36 }
/-- P3 after event 1. -/
def atHeader : State := { atCall with st := .waitingForHeader, cf := some frame61, cand := [2, 3, 4, 5, 6, 7, 8, 9] }
/-- P3 after event 2. -/
def atIdentifier : State := { atHeader with st := .waitingForIdentifier, cand := [3, 4], buf := [(0, 0x62)], len := 1 }
/-- P3 after event 4. -/
def atData : State :=
  { atHeader with st := .waitingForData, cand := [3], buf := [(0, 0x62), (1, 0x22), (2, 0x05)], len := 3, need := 1 }
/-- P3 in event 5, before `process()`. -/
def atProcess : State :=
  { atData with buf := [(0, 0x62), (1, 0x22), (2, 0x05), (3, 0x45)], len := 4, need := 0 }

/-- Whether an instruction goes on to a state with the property. -/
def goesOn (i : Instr) (s : State) (P : State → Bool) : Bool :=
  match exec i s with
  | .next t => P t
  | .fault _ => false
  | .refused _ => false

/-- Whether a step does. -/
def stepsTo (s : State) (P : State → Bool) : Bool :=
  match step s with
  | .next t => P t
  | .fault _ => false
  | .refused _ => false

/-! ### One step each -/

/-- V-C1 with R98. -/
theorem test_sendRequest : goesOn (.sendRequest 0 3 100) atCall
    (fun t => t.st == .emit && t.out.map (fun r => (r.callRaw, r.callTs, r.defIdx)) == some (0x43, 100, none)) = true := by decide
/-- P1 event 2. -/
theorem test_requestResend : goesOn (.requestResend 0 1 101) atCall
    (fun t => t.out.map (fun r => r.cf) == some (some ⟨.requestResend, 1, 0x01, 101, false⟩)) = true := by decide
/-- P1 event 3. -/
theorem test_broadcastFeedbackPoll : goesOn (.broadcastFeedbackPoll 1 102) atCall
    (fun t => t.out.map (fun r => r.cf) == some (some ⟨.broadcastFeedbackPoll, 0, 0xA0, 102, true⟩)) = true := by decide
/-- V-F2. -/
theorem test_framedMessageBcast : goesOn (.framedMessageBcast 0 7) atCall
    (fun t => t.st == .waitingForHeader && t.cand == [1]) = true := by decide
/-- V-F1. -/
theorem test_framedMessageAddr : goesOn (.framedMessageAddr 0 1 7) atCall
    (fun t => t.cf == some frame61 && t.cand == [2, 3, 4, 5, 6, 7, 8, 9]) = true := by decide
/-- P1 event 5. -/
theorem test_unknown : goesOn (.unknown 0 3 104) atCall
    (fun t => t.st == .emit && t.out.map (fun r => r.cf) == some (some ⟨.unknown, 3, 0x23, 104, false⟩)) = true := by decide
/-- V-A15, first byte. -/
theorem test_unknown_expectHeader : goesOn (.unknown 0 3 104) { atCall with policy := .expectHeader }
    (fun t => t.st == .waitingForHeader && t.cand == []) = true := by decide
/-- P1 event 4. -/
theorem test_parityError : goesOn (.parityError 0 2 1 103) atCall
    (fun t => t.fr == some .parityError && t.out.map (fun r => (r.callRaw, r.callTs, r.cf)) == some (0x41, 103, none)) = true := by
  decide
/-- R75 "were it reached". -/
theorem test_unclassifiedCallError : goesOn (.unclassifiedCallError 0 0 0 9) atCall
    (fun t => t.st == .fail && t.fr == some .unclassifiedCallError) = true := by decide
/-- V-C4, V-C2. -/
theorem test_parityValid : goesOn (.parityValid 0x41) atCall (fun t => t.ret == some (.flag false)) = true
    ∧ goesOn (.parityValid 0xC3) atCall (fun t => t.ret == some (.flag true)) = true := by decide
/-- V-C17. -/
theorem test_classify : goesOn (.classify 0x60 7) atCall
    (fun t => t.ret == some (.classified (.frame ⟨.framedMessage, 0, 0x60, 7, true⟩))) = true := by decide
/-- R97, the example: a call byte after a Fail. -/
theorem test_callStep : goesOn (.callStep 0x43 8) { atCall with st := .fail, fr := some .checksumError }
    (fun t => t.st == .emit && t.fr == none) = true := by decide
theorem test_emitCallOnly : goesOn .emitCallOnly atHeader
    (fun t => t.cf == none && t.out.map (fun r => (r.callRaw, r.raw)) == some (0x61, [])) = true := by decide
theorem test_unknownCall : goesOn .unknownCall { atHeader with policy := .expectHeader }
    (fun t => t.st == .waitingForHeader && t.out == none) = true := by decide
theorem test_framedCall : goesOn .framedCall { atCall with cf := some frame61 } (fun t => t.st == .waitingForHeader) = true := by
  decide
/-- P3 event 2. -/
theorem test_headerStep : goesOn (.headerStep 0x62) atHeader
    (fun t => t.st == .waitingForIdentifier && t.cand == [3, 4] && t.len == 1) = true := by decide
/-- V-A4 event 2: the early version tie-break. -/
theorem test_headerStep_tieBreak : goesOn (.headerStep 0x52) atHeader
    (fun t => t.st == .waitingForData && t.cand == [7] && t.need == 3) = true := by decide
/-- P3 event 3. -/
theorem test_identifierStep : goesOn (.identifierStep 0x22) atIdentifier
    (fun t => t.st == .waitingForData && t.cand == [3] && t.len == 2 && t.need == 2) = true := by decide
/-- R102 with entry 9's empty match: no survivor accepts `0x24`. -/
theorem test_identifierStep_fails : goesOn (.identifierStep 0x24) atIdentifier
    (fun t => t.fr == some .noMatchingDefinition && t.out.map (fun r => r.raw) == some [0x62, 0x24]) = true := by decide
/-- R103: entries 6 and 7 disagree and both ranges are missed by no version; without them containing `ver`, NoMatch. -/
theorem test_enterData : goesOn .enterData { atIdentifier with buf := [(0, 0x52)], cand := [6, 7], ver := 23 }
    (fun t => t.cand == [6] && t.need == 2) = true := by decide
/-- P3 event 4. -/
theorem test_dataStep : goesOn (.dataStep 0x05) { atData with buf := [(0, 0x62), (1, 0x22)], len := 2, need := 2 }
    (fun t => t.buf == atData.buf && t.len == 3 && t.need == 1) = true := by decide
/-- P3 event 5. -/
theorem test_dataStep_last : goesOn (.dataStep 0x45) atData
    (fun t => t.st == .emit && t.out.map (fun r => (r.defIdx, r.payload)) == some (some 3, [0x05])) = true := by decide
/-- P3 variant, `ver = 23`. -/
theorem test_process_noMatch : goesOn .process { atProcess with ver := 23 }
    (fun t => t.fr == some .noMatchingDefinition && t.out.map (fun r => r.raw) == some [0x62, 0x22, 0x05, 0x45]) = true := by
  decide
/-- V-A3: two survivors of TCAT_BAD. -/
theorem test_process_ambiguous : goesOn .process
    { atProcess with cat := tcatBad, cand := [5, 10], buf := [(0, 0xE4), (1, 0x13), (2, 0), (3, 3), (4, 0xF4)], len := 5 }
    (fun t => t.fr == some .ambiguousDefinition && t.out.map (fun r => (r.diag, r.defIdx)) == some (true, none)) = true := by decide
theorem test_emitMessage : goesOn (.emitMessage 3 { header := some 0x62, ident := some 0x22, payload := [5] }) atProcess
    (fun t => t.out.map (fun r => (r.header, r.payload, r.raw)) == some (some 0x62, [5], [0x62, 0x22, 5, 0x45])) = true := by decide
/-- R108 on P3's frame, and V-A7's reading of an identifier byte as data. -/
theorem test_carve : goesOn (.carve 3) atProcess
    (fun t => t.ret == some (.message { header := some 0x62, ident := some 0x22, payload := [5] })) = true := by decide
theorem test_carve_data : goesOn (.carve 9) { atProcess with buf := [(0, 0x21), (1, 0x80), (2, 0xA1)], len := 3 }
    (fun t => t.ret == some (.message { header := some 0x21, ident := none, payload := [0x80] })) = true := by decide
theorem test_clearWork : goesOn .clearWork { atData with ver := 36 }
    (fun t => t.buf == [] && t.len == 0 && t.st == .waitingForData && t.ver == 36) = true := by decide
/-- V-F4: a broadcast SendRequest seeds nothing of TCAT. -/
theorem test_seed : goesOn .seed { atCall with cf := some ⟨.sendRequest, 0, 0x40, 7, true⟩, cand := [5] }
    (fun t => t.cand == []) = true := by decide
/-- V-F7, and the high nibble of a Variable entry. -/
theorem test_applyHeader : goesOn (.applyHeader 0x52) atHeader (fun t => t.cand == [6, 7]) = true
    ∧ goesOn (.applyHeader 0x43) { atHeader with cand := [1] } (fun t => t.cand == [1]) = true := by decide
/-- R82, the examples: a partial match and a miss. -/
theorem test_applyIdentifier : goesOn (.applyIdentifier 0x13) { atHeader with cand := [5] } (fun t => t.cand == [5]) = true
    ∧ goesOn (.applyIdentifier 0x23) { atHeader with cand := [5] } (fun t => t.cand == []) = true := by decide
/-- V-F23, V-F24: both ends included. -/
theorem test_applyVersion : goesOn .applyVersion { atHeader with cand := [8, 9], ver := 29 } (fun t => t.cand == [9]) = true
    ∧ goesOn .applyVersion { atHeader with cand := [8, 9], ver := 30 } (fun t => t.cand == [8]) = true := by decide
/-- V-F30. -/
theorem test_finalize : goesOn .finalize { atHeader with cand := [5, 10] }
    (fun t => t.ret == some (.finalized .ambiguousDefinition)) = true := by decide
/-- V-K6, V-K2. -/
theorem test_checksumOk : goesOn .checksumOk atProcess (fun t => t.ret == some (.flag true)) = true
    ∧ goesOn .checksumOk { atProcess with buf := [(0, 0x43), (1, 0x11), (2, 0x23), (3, 0x44), (4, 0x34)], len := 5 }
        (fun t => t.ret == some (.flag false)) = true := by decide
/-- V-K4: two flips of one bit cancel. -/
theorem test_checksum_cancels : checksumHolds [0x43, 0x91, 0x22, 0xC4, 0x34] = true := by decide
theorem test_raiseFail : goesOn (.raiseFail .noMatchingDefinition) atIdentifier
    (fun t => t.fr == some .noMatchingDefinition && t.out.map (fun r => (r.callRaw, r.raw)) == some (0x61, [0x62])) = true := by decide
theorem test_ver : goesOn (.ver 36) { atData with ver := 23 } (fun t => t.ver == 36 && t.cand == [3]) = true := by decide
/-- V-H5. -/
theorem test_discard : goesOn .discard { atCall with st := .fail, fr := some .parityError }
    (fun t => t.st == .waitingForCall && t.fr == none && t.out == none && t.ver == 36) = true := by decide
/-- V-H4. -/
theorem test_reset : goesOn .reset atIdentifier (fun t => t.st == .waitingForCall && t.ver == 0 && t.cand == []) = true := by decide
theorem test_byte : goesOn (.byte 0x45 9) atData (fun t => t.st == .emit) = true := by decide
/-- V-H6: VER, then BYTE, in one step. -/
theorem test_step_ver_byte :
    stepsTo { atData with ver := 23, inp := [⟨false, true, 0x45, 9, true, 36, false⟩] }
      (fun t => t.ver == 36 && t.out.map (fun r => r.defIdx) == some (some 3)) = true := by decide
/-- V-H7: DISCARD, then BYTE. -/
theorem test_step_discard_byte :
    stepsTo { atData with inp := [⟨false, true, 0x43, 9, false, 0, true⟩] }
      (fun t => t.st == .emit && t.out.map (fun r => (r.callRaw, r.defIdx)) == some (0x43, none)) = true := by decide
/-- The first step from the machine's own reset state runs the word placed there, whatever the catalog. -/
theorem test_withFetchWord : stepsTo (State.reset.withFetchWord 8 0x43) (fun t => t.st == .emit) = true := by decide

/-! ### Witnesses: concrete states and operands that meet the hypotheses of the statements, clause by clause -/

/-- Each row of R67 that some byte reaches. -/
theorem witness_ClassifyReturnsTableRow :
    [0x43, 0x01, 0x20, 0x60, 0x61, 0x23, 0x41].map (fun n => classifyCall (BitVec.ofNat 8 n) 7)
      = [.frame ⟨.sendRequest, 3, 0x43, 7, false⟩, .frame ⟨.requestResend, 1, 0x01, 7, false⟩,
         .frame ⟨.broadcastFeedbackPoll, 0, 0x20, 7, true⟩, .frame ⟨.framedMessage, 0, 0x60, 7, true⟩,
         .frame ⟨.framedMessage, 1, 0x61, 7, false⟩, .frame ⟨.unknown, 3, 0x23, 7, false⟩, .parityError] := by decide

theorem witness_BareCallsEmitCallFrame :
    (Instr.sendRequest 1 0 7).wellFormed = true ∧ (Instr.requestResend 0 31 7).wellFormed = true
      ∧ (Instr.broadcastFeedbackPoll 0 7).wellFormed = true := by decide

theorem witness_FramedCallsAwaitHeader :
    (Instr.framedMessageBcast 1 7).wellFormed = true ∧ (Instr.framedMessageAddr 1 31 7).wellFormed = true := by decide

theorem witness_UnknownCallFollowsPolicy :
    (Instr.unknown 0 3 7).wellFormed = true ∧ atCall.policy = .emitCallOnly
      ∧ ({ atCall with policy := .expectHeader } : State).policy = .expectHeader := by decide

theorem witness_CallBranchOperations :
    atHeader.cf = some frame61 ∧ atHeader.policy = .emitCallOnly
      ∧ ({ atHeader with policy := .expectHeader } : State).policy = .expectHeader := by decide

theorem witness_SeedSelectsPatterns : atHeader.cf = some frame61 := rfl

theorem witness_ApplyStepsShrinkRepeatCommute :
    IsApplyStep (.applyHeader 0x62) ∧ IsApplyStep (.applyIdentifier 0x22) ∧ IsApplyStep .applyVersion :=
  ⟨.inl ⟨_, rfl⟩, .inr (.inl ⟨_, rfl⟩), .inr (.inr rfl)⟩

theorem witness_FinalizeNeedsExactlyOne :
    atCall.cand.length = 0 ∧ atData.cand = [3] ∧ 2 ≤ atIdentifier.cand.length := by decide

/-- P3 event 2: survivor 3 has an identifier. -/
theorem witness_HeaderStepAwaitsIdentifier :
    ∃ i ∈ atHeader.cand, ∃ d, atHeader.cat.entries[i]? = some d ∧ hdrMatch d 0x62 = true ∧ d.identifier ≠ none :=
  ⟨3, by decide, statusV3, rfl, by decide, by decide⟩

/-- V-A10. -/
theorem witness_HeaderStepWithoutMatchFails :
    atHeader.cf = some frame61
      ∧ ∀ i ∈ atHeader.cand, ∀ d, atHeader.cat.entries[i]? = some d → hdrMatch d 0x99 = false := by
  refine ⟨rfl, fun i hi d hd => ?_⟩
  simp only [atHeader, List.mem_cons, List.not_mem_nil, or_false] at hi
  rcases hi with rfl | rfl | rfl | rfl | rfl | rfl | rfl | rfl <;> cases hd <;> decide

/-- V-A12: the shortest data phase, `flen = 2`. -/
theorem witness_HeaderStepEntersDataPhase :
    let s := { atHeader with cand := [1] }
    (∃ i ∈ s.cand, ∃ d, s.cat.entries[i]? = some d ∧ hdrMatch d 0x40 = true)
      ∧ (∀ i ∈ s.cand, ∀ d, s.cat.entries[i]? = some d → hdrMatch d 0x40 = true → d.identifier = none)
      ∧ (∀ i ∈ s.cand, ∀ d, s.cat.entries[i]? = some d → flen d 0x40 = 2) ∧ 1 < 2 := by
  refine ⟨⟨1, by decide, feedbackEntry, rfl, by decide⟩, fun i hi d hd _ => ?_, fun i hi d hd => ?_, by decide⟩ <;>
    simp only [List.mem_cons, List.not_mem_nil, or_false] at hi <;> subst hi <;> cases hd <;> decide

/-- V-A4: entries 6 and 7 match the header byte, have no identifier and disagree on the length. -/
theorem witness_HeaderStepEntersDataPhase_disagree :
    let s := { atHeader with cand := [6, 7] }
    (∃ i ∈ s.cand, ∃ d, s.cat.entries[i]? = some d ∧ hdrMatch d 0x52 = true)
      ∧ (∀ i ∈ s.cand, ∀ d, s.cat.entries[i]? = some d → hdrMatch d 0x52 = true → d.identifier = none)
      ∧ flen shortV2 0x52 ≠ flen longV3 0x52 := by
  refine ⟨⟨6, by decide, shortV2, rfl, by decide⟩, fun i hi d hd _ => ?_, by decide⟩
  simp only [List.mem_cons, List.not_mem_nil, or_false] at hi
  rcases hi with rfl | rfl <;> cases hd <;> rfl

/-- V-A6: the boundary `n = 3`. -/
theorem witness_IdentifierStepEntersDataPhase :
    let s := { atIdentifier with buf := [(0, 0x21)], cand := [8, 9] }
    s.buf.read 0 = some 0x21
      ∧ (∃ i ∈ s.cand, ∃ d, s.cat.entries[i]? = some d ∧ idAccepts d 0x80 = true)
      ∧ (∀ i ∈ s.cand, ∀ d, s.cat.entries[i]? = some d → idAccepts d 0x80 = true → flen d 0x21 = 3) ∧ 2 < 3 := by
  refine ⟨rfl, ⟨8, by decide, stopV3, rfl, by decide⟩, fun i hi d hd _ => ?_, by decide⟩
  simp only [List.mem_cons, List.not_mem_nil, or_false] at hi
  rcases hi with rfl | rfl <;> cases hd <;> decide

/-- One entry with an identifier and one of the least length with a header, 2. -/
def leastCat : Catalog := { entries := [stopV3, framedEntry 0x21 0 none 30 255], wf := by decide }

/-- The boundary `n = 2 = len`: the byte `0x81` leaves the entry without an identifier. -/
theorem witness_IdentifierStepEntersDataPhase_complete :
    let s := { atIdentifier with cat := leastCat, buf := [(0, 0x21)], cand := [0, 1] }
    s.buf.read 0 = some 0x21
      ∧ (∃ i ∈ s.cand, ∃ d, s.cat.entries[i]? = some d ∧ idAccepts d 0x81 = true)
      ∧ (∀ i ∈ s.cand, ∀ d, s.cat.entries[i]? = some d → idAccepts d 0x81 = true → flen d 0x21 = 2) := by
  refine ⟨rfl, ⟨1, by decide, framedEntry 0x21 0 none 30 255, rfl, by decide⟩, fun i hi d hd => ?_⟩
  simp only [List.mem_cons, List.not_mem_nil, or_false] at hi
  rcases hi with rfl | rfl <;> cases hd <;> decide

theorem witness_IdentifierStepWithoutMatchFails :
    atIdentifier.cf = some frame61 ∧ atIdentifier.buf.read 0 = some 0x62
      ∧ ∀ i ∈ atIdentifier.cand, ∀ d, atIdentifier.cat.entries[i]? = some d → idAccepts d 0x24 = false := by
  refine ⟨rfl, rfl, fun i hi d hd => ?_⟩
  simp only [atIdentifier, List.mem_cons, List.not_mem_nil, or_false] at hi
  rcases hi with rfl | rfl <;> cases hd <;> decide

/-- Entries 3 and 4, `len = 1`: length 4 is above `len`. -/
theorem witness_EnterDataCommitsCommonLength_collects :
    1 ≤ atIdentifier.len.toNat ∧ atIdentifier.buf.read 0 = some 0x62 ∧ atIdentifier.cand ≠ []
      ∧ (∀ i ∈ atIdentifier.cand, ∃ d, atIdentifier.cat.entries[i]? = some d ∧ flen d 0x62 = 4)
      ∧ atIdentifier.len.toNat < 4 := by
  refine ⟨by decide, rfl, by decide, fun i hi => ?_, by decide⟩
  simp only [atIdentifier, List.mem_cons, List.not_mem_nil, or_false] at hi
  rcases hi with rfl | rfl
  · exact ⟨statusV3, rfl, by decide⟩
  · exact ⟨statusV2, rfl, by decide⟩

/-- `len = 4` is the length. -/
theorem witness_EnterDataCommitsCommonLength_complete :
    1 ≤ atProcess.len.toNat ∧ atProcess.buf.read 0 = some 0x62 ∧ atProcess.cand ≠ []
      ∧ (∀ i ∈ atProcess.cand, ∃ d, atProcess.cat.entries[i]? = some d ∧ flen d 0x62 = 4)
      ∧ atProcess.len.toNat = 4 := by
  refine ⟨by decide, rfl, by decide, fun i hi => ?_, by decide⟩
  simp only [atProcess, atData, List.mem_cons, List.not_mem_nil, or_false] at hi
  subst hi
  exact ⟨statusV3, rfl, by decide⟩

/-- P6 in event 2: entries 6 and 7 disagree on the length. -/
def atTieBreak : State := { atHeader with cand := [6, 7], buf := [(0, 0x52)], len := 1 }

theorem witness_EnterDataVersionTieBreak :
    1 ≤ atTieBreak.len.toNat ∧ atTieBreak.buf.read 0 = some 0x52
      ∧ (∃ i ∈ atTieBreak.cand, ∃ j ∈ atTieBreak.cand, ∃ d e, atTieBreak.cat.entries[i]? = some d
          ∧ atTieBreak.cat.entries[j]? = some e ∧ flen d 0x52 ≠ flen e 0x52)
      ∧ (∃ i ∈ atTieBreak.cand, ∃ d, atTieBreak.cat.entries[i]? = some d ∧ verMatch d atTieBreak.ver = true)
      ∧ (∀ i ∈ atTieBreak.cand, ∀ d, atTieBreak.cat.entries[i]? = some d → verMatch d atTieBreak.ver = true →
          flen d 0x52 = 4)
      ∧ atTieBreak.len.toNat < 4 := by
  refine ⟨by decide, rfl, ⟨6, by decide, 7, by decide, shortV2, longV3, rfl, rfl, by decide⟩,
    ⟨7, by decide, longV3, rfl, by decide⟩, fun i hi d hd hv => ?_, by decide⟩
  simp only [atTieBreak, List.mem_cons, List.not_mem_nil, or_false] at hi
  rcases hi with rfl | rfl <;> cases hd <;> revert hv <;> decide

/-- After two bytes: the lengths 2 (the only range with 36) and 3, so the filtered length is `len`. -/
theorem witness_EnterDataVersionTieBreak_complete :
    let s := { atTieBreak with cat := { entries := [framedEntry 0x52 0 none 30 255, shortV2], wf := by decide },
                               cand := [0, 1], buf := [(0, 0x52), (1, 0x10)], len := 2 }
    1 ≤ s.len.toNat ∧ s.buf.read 0 = some 0x52
      ∧ (∃ i ∈ s.cand, ∃ j ∈ s.cand, ∃ d e, s.cat.entries[i]? = some d ∧ s.cat.entries[j]? = some e
          ∧ flen d 0x52 ≠ flen e 0x52)
      ∧ (∃ i ∈ s.cand, ∃ d, s.cat.entries[i]? = some d ∧ verMatch d s.ver = true)
      ∧ (∀ i ∈ s.cand, ∀ d, s.cat.entries[i]? = some d → verMatch d s.ver = true → flen d 0x52 = 2) ∧ s.len.toNat = 2 := by
  refine ⟨by decide, rfl, ⟨0, by decide, 1, by decide, _, _, rfl, rfl, by decide⟩,
    ⟨0, by decide, _, rfl, by decide⟩, fun i hi d hd => ?_, rfl⟩
  simp only [List.mem_cons, List.not_mem_nil, or_false] at hi
  rcases hi with rfl | rfl <;> cases hd <;> decide

/-- The catalog of entries 6 and 7 with both ranges `[30, 255]`: a defect that only the length shows. -/
def clashCat : Catalog := { entries := [{ shortV2 with vmin := 30, vmax := 255 }, longV3], wf := by decide }

/-- Entries 0 and 1 of `clashCat`, each disagreeing on the length. -/
def atClash (v : Version) : State := { atTieBreak with cat := clashCat, cand := [0, 1], ver := v }

/-- No range contains 29. -/
theorem witness_EnterDataFailures_noMatch :
    (atClash 29).cf = some frame61 ∧ BufWf (atClash 29) ∧ (atClash 29).buf.read 0 = some 0x52
      ∧ (∃ i ∈ (atClash 29).cand, ∃ j ∈ (atClash 29).cand, ∃ d e, (atClash 29).cat.entries[i]? = some d
          ∧ (atClash 29).cat.entries[j]? = some e ∧ flen d 0x52 ≠ flen e 0x52)
      ∧ ∀ i ∈ (atClash 29).cand, ∀ d, (atClash 29).cat.entries[i]? = some d → verMatch d (atClash 29).ver = false := by
  refine ⟨rfl, rfl, rfl, ⟨0, by decide, 1, by decide, _, _, rfl, rfl, by decide⟩, fun i hi d hd => ?_⟩
  simp only [atClash, List.mem_cons, List.not_mem_nil, or_false] at hi
  rcases hi with rfl | rfl <;> cases hd <;> decide

/-- Both ranges contain 30. -/
theorem witness_EnterDataFailures_ambiguous :
    (atClash 30).cf = some frame61 ∧ BufWf (atClash 30) ∧ (atClash 30).buf.read 0 = some 0x52
      ∧ ∃ i ∈ (atClash 30).cand, ∃ j ∈ (atClash 30).cand, ∃ d e, (atClash 30).cat.entries[i]? = some d
          ∧ (atClash 30).cat.entries[j]? = some e ∧ verMatch d (atClash 30).ver = true ∧ verMatch e (atClash 30).ver = true
          ∧ flen d 0x52 ≠ flen e 0x52 :=
  ⟨rfl, rfl, rfl, 0, by decide, 1, by decide, _, _, rfl, rfl, by decide, by decide, by decide⟩

/-- Length 3 of entry 8 is below `len = 4`. -/
theorem witness_EnterDataFailures_tooShort :
    let s := { atProcess with cand := [8] }
    s.cf = some frame61 ∧ BufWf s ∧ s.buf.read 0 = some 0x62 ∧ s.cand ≠ []
      ∧ (∀ i ∈ s.cand, ∃ d, s.cat.entries[i]? = some d ∧ flen d 0x62 < s.len.toNat)
      ∧ ¬ ∃ i ∈ s.cand, ∃ j ∈ s.cand, ∃ d e, s.cat.entries[i]? = some d ∧ s.cat.entries[j]? = some e
          ∧ flen d 0x62 ≠ flen e 0x62 := by
  refine ⟨rfl, rfl, rfl, by decide, fun i hi => ?_, ?_⟩
  · simp only [List.mem_cons, List.not_mem_nil, or_false] at hi
    subst hi
    exact ⟨stopV3, rfl, by decide⟩
  · rintro ⟨i, hi, j, hj, d, e, hd, he, hne⟩
    simp only [List.mem_cons, List.not_mem_nil, or_false] at hi hj
    subst hi hj
    cases hd
    cases he
    exact hne rfl

/-- Entries 6 and 7 disagree; only entry 6, of length 3, contains 23, and `len = 4`. -/
theorem witness_EnterDataFailures_tooShortFiltered :
    let s := { atProcess with cand := [6, 7], ver := 23 }
    s.cf = some frame61 ∧ BufWf s ∧ s.buf.read 0 = some 0x62
      ∧ (∃ i ∈ s.cand, ∃ j ∈ s.cand, ∃ d e, s.cat.entries[i]? = some d ∧ s.cat.entries[j]? = some e
          ∧ flen d 0x62 ≠ flen e 0x62)
      ∧ (∃ i ∈ s.cand, ∃ d, s.cat.entries[i]? = some d ∧ verMatch d s.ver = true)
      ∧ (∀ i ∈ s.cand, ∀ d, s.cat.entries[i]? = some d → verMatch d s.ver = true → flen d 0x62 = 3) ∧ 3 < s.len.toNat := by
  refine ⟨rfl, rfl, rfl, ⟨6, by decide, 7, by decide, shortV2, longV3, rfl, rfl, by decide⟩,
    ⟨6, by decide, shortV2, rfl, by decide⟩, fun i hi d hd => ?_, by decide⟩
  simp only [List.mem_cons, List.not_mem_nil, or_false] at hi
  rcases hi with rfl | rfl <;> cases hd <;> decide

/-- At an empty buffer, and at the last slot with the least `need` of the clause. -/
theorem witness_DataStepCollects :
    (({ atData with buf := [], len := 0, need := 18 } : State).len.toNat < bufCap
      ∧ 1 < ({ atData with buf := [], len := 0, need := 18 } : State).need.toNat)
      ∧ (({ atData with len := 17, need := 2 } : State).len.toNat < bufCap
        ∧ 1 < ({ atData with len := 17, need := 2 } : State).need.toNat) := by decide

theorem witness_LastDataByteProcesses :
    atData.len.toNat < bufCap ∧ atData.need = 1
      ∧ ({ atData with len := 17 } : State).len.toNat < bufCap ∧ ({ atData with len := 17 } : State).need = 1 := by decide

/-- P3 event 5. -/
theorem witness_ProcessEmitsUniqueMessage :
    atProcess.cf = some frame61 ∧ BufWf atProcess ∧ CandWf atProcess ∧ 3 ∈ atProcess.cand
      ∧ atProcess.cat.entries[3]? = some statusV3 ∧ verMatch statusV3 atProcess.ver = true
      ∧ (∀ j ∈ atProcess.cand, ∀ e, atProcess.cat.entries[j]? = some e → verMatch e atProcess.ver = true → j = 3)
      ∧ atProcess.buf.read 0 = some 0x62 ∧ flen statusV3 0x62 = atProcess.len.toNat
      ∧ statusV3.requiresChecksum = true
      ∧ (bufBytes atProcess).getLast? = some (xorBytes (bufBytes atProcess).dropLast) := by
  refine ⟨rfl, rfl, ⟨by decide, by decide⟩, by decide, rfl, by decide, fun j hj _ _ _ => ?_, rfl, by decide, rfl, by decide⟩
  simpa [atProcess, atData] using hj

/-- An entry whose checksum is not required: entry 0, read by `process()` from a state no run reaches. -/
theorem witness_ProcessEmitsUniqueMessage_unchecked :
    let s := { atProcess with cand := [0], buf := [(0, 0x62)], len := 1 }
    s.cf = some frame61 ∧ BufWf s ∧ CandWf s ∧ s.cat.entries[0]? = some bareEntry ∧ verMatch bareEntry s.ver = true
      ∧ flen bareEntry 0x62 = s.len.toNat ∧ bareEntry.requiresChecksum = false := by
  exact ⟨rfl, rfl, ⟨by decide, by decide⟩, rfl, by decide, by decide, rfl⟩

/-- The three failures of `process()`: `ver = 29` is outside entry 3's range `[30, 255]`. -/
theorem witness_ProcessFailures_noMatch :
    let s := { atProcess with ver := 29 }
    s.cf = some frame61 ∧ BufWf s ∧ CandWf s ∧ s.buf.read 0 = some 0x62
      ∧ ∀ i ∈ s.cand, ∀ d, s.cat.entries[i]? = some d → verMatch d s.ver = false := by
  refine ⟨rfl, rfl, ⟨by decide, by decide⟩, rfl, fun i hi d hd => ?_⟩
  simp only [atProcess, atData, List.mem_cons, List.not_mem_nil, or_false] at hi
  subst hi
  cases hd
  decide

/-- V-A3: entries 5 and 10 of TCAT_BAD. -/
theorem witness_ProcessFailures_ambiguous :
    let s := { atProcess with cat := tcatBad, cand := [5, 10] }
    s.cf = some frame61 ∧ BufWf s ∧ CandWf s ∧ s.buf.read 0 = some 0x62
      ∧ ∃ i ∈ s.cand, ∃ j ∈ s.cand, i ≠ j ∧ ∃ d e, s.cat.entries[i]? = some d ∧ s.cat.entries[j]? = some e
          ∧ verMatch d s.ver = true ∧ verMatch e s.ver = true :=
  ⟨rfl, rfl, ⟨by decide, by decide⟩, rfl, 5, by decide, 10, by decide, by decide, _, _, rfl, rfl, by decide, by decide⟩

/-- P3 with its checksum byte `0x45` flipped to `0x44`. -/
theorem witness_ProcessFailures_checksum :
    let s := { atProcess with buf := [(0, 0x62), (1, 0x22), (2, 0x05), (3, 0x44)] }
    s.cf = some frame61 ∧ BufWf s ∧ CandWf s ∧ s.buf.read 0 = some 0x62 ∧ 3 ∈ s.cand
      ∧ s.cat.entries[3]? = some statusV3 ∧ verMatch statusV3 s.ver = true
      ∧ (∀ j ∈ s.cand, ∀ e, s.cat.entries[j]? = some e → verMatch e s.ver = true → j = 3)
      ∧ flen statusV3 0x62 = s.len.toNat ∧ statusV3.requiresChecksum = true
      ∧ (bufBytes s).getLast? ≠ some (xorBytes (bufBytes s).dropLast) := by
  refine ⟨rfl, rfl, ⟨by decide, by decide⟩, rfl, by decide, rfl, by decide, fun j hj _ _ _ => ?_, by decide, rfl, by decide⟩
  simpa [atProcess, atData] using hj

theorem witness_EmitMessageCompletes : atProcess.cf = some frame61 ∧ BufWf atProcess := ⟨rfl, rfl⟩

/-- With an identifier (entry 3) and without one (entry 9). -/
theorem witness_CarveCutsFields :
    BufWf atProcess ∧ atProcess.cat.entries[3]? = some statusV3 ∧ atProcess.buf.read 0 = some 0x62
      ∧ flen statusV3 0x62 = atProcess.len.toNat ∧ statusV3.header ≠ none ∧ statusV3.identifier ≠ none
      ∧ tcat.entries[9]? = some genericV2 ∧ flen genericV2 0x21 = 3 ∧ genericV2.identifier = none
      ∧ flen bareEntry 0x62 = 1 ∧ bareEntry.header = none :=
  ⟨rfl, rfl, rfl, by decide, by decide, by decide, rfl, by decide, rfl, by decide, rfl⟩

/-- V-K5 is the shortest buffer of the rule: two bytes. -/
theorem witness_ChecksumOkComparesLastByte :
    let s := { atProcess with buf := [(0, 0x40), (1, 0x40)], len := 2 }
    BufWf s ∧ ([0x40] : List Byte) ≠ [] ∧ bufBytes s = [0x40] ++ [0x40] := ⟨rfl, by decide, rfl⟩

/-- A frame of the rule, and the one-byte buffer of log 13. -/
theorem witness_ChecksumHoldsIffTotalXorZero :
    (BufWf atProcess ∧ bufBytes atProcess ≠ []) ∧ (BufWf atIdentifier ∧ bufBytes atIdentifier ≠ []) :=
  ⟨⟨rfl, by decide⟩, rfl, by decide⟩

/-- The first data byte and the checksum byte of V-K1, at bits 0 and 7. -/
theorem witness_ChecksumDetectsOneFlip :
    0 < 8 ∧ 7 < 8 ∧ ([0x43, 0x11, 0x22, 0x44] ++ [xorBytes [0x43, 0x11, 0x22, 0x44]] : List Byte)[1]? = some 0x11
      ∧ ([0x43, 0x11, 0x22, 0x44] ++ [xorBytes [0x43, 0x11, 0x22, 0x44]] : List Byte)[4]? = some 0x34 ∧ 4 ≠ 1 := by decide

theorem witness_FailureEntryRecords : atIdentifier.cf = some frame61 ∧ BufWf atIdentifier := ⟨rfl, rfl⟩

/-- The states of the dispatch, one per clause. -/
theorem witness_ByteDispatchesOnState :
    AtCall atCall ∧ AtCall { atCall with st := .emit } ∧ AtCall { atCall with st := .fail }
      ∧ atHeader.st = .waitingForHeader ∧ atIdentifier.st = .waitingForIdentifier ∧ atData.st = .waitingForData
      ∧ ({ atCall with st := .processingData } : State).st = .processingData :=
  ⟨.inl rfl, .inr (.inl rfl), .inr (.inr rfl), rfl, rfl, rfl, rfl⟩

theorem witness_StepRunsDecodedInstruction :
    let s := { atData with inp := [eventPorts (.byte 0x45 9)] }
    s.inp = eventPorts (.byte 0x45 9) :: [] ∧ portEvents (eventPorts (.byte 0x45 9)) = [.byte 0x45 9]
      ∧ decodeEvent s.st (.byte 0x45 9) = .instr (.dataStep 0x45) := ⟨rfl, rfl, rfl⟩

/-- Samples for the clauses of R130: reset with all others; none; each of the three others present or absent. -/
theorem witness_SimultaneousInputsInOrder :
    ([⟨true, true, 0x45, 9, true, 36, true⟩, idlePorts, ⟨false, true, 0x45, 9, false, 0, false⟩,
      ⟨false, false, 0, 0, false, 0, true⟩, ⟨false, true, 0x43, 9, false, 0, true⟩, ⟨false, false, 0, 0, true, 36, false⟩,
      ⟨false, true, 0x45, 9, true, 36, false⟩, ⟨false, false, 0, 0, true, 36, true⟩,
      ⟨false, true, 0x43, 9, true, 36, true⟩] : List Ports).map (fun p => (p.rst, p.verWr, p.discard, p.inValid))
      = [(true, true, true, true), (false, false, false, false), (false, false, false, true), (false, false, true, false),
         (false, false, true, true), (false, true, false, false), (false, true, false, true), (false, true, true, false),
         (false, true, true, true)] := by decide

theorem witness_TableWordRunsItsRow : AtCall atCall ∧ ¬ AtCall atHeader := by
  refine ⟨.inl rfl, ?_⟩
  rintro (h | h | h) <;> cases h

/-- Well-formed and fetched: a call byte, a byte of each later state, and a host event. -/
theorem witness_DecodeOfEncodeIsIdentity :
    ([(.fail, .framedMessageAddr 1 31 7), (.waitingForCall, .parityError 0 0 0 7), (.waitingForHeader, .headerStep 0x62),
      (.waitingForIdentifier, .identifierStep 0x22), (.waitingForData, .dataStep 0x45), (.processingData, .reset)] :
      List (AsmState × Instr)).all (fun x => x.2.wellFormed && fetchedIn x.1 x.2) = true := by decide

theorem witness_EveryCallByteDecodesBack : atCallPosition .fail = true := rfl

theorem witness_RomWordRoundTrip :
    entryWf stopV3 = true ∧ stopV3.name = "" ∧ ∀ p, stopV3.identifier = some p → p.partialMatch = false → p.plen = 0 := by
  refine ⟨by decide, rfl, fun p hp _ => ?_⟩
  cases hp
  rfl

/-- Entries 8 and 9 of TCAT: both accept `21 80`, and only their ranges tell them apart. -/
def pairCat : Catalog := { entries := [stopV3, genericV2], wf := by decide }

/-- V-A6 before its last byte, which stands on the input. -/
def atPair : State :=
  { atCall with st := .waitingForData, cat := pairCat, cf := some frame61, cand := [0, 1], buf := [(0, 0x21), (1, 0x80)],
                len := 2, need := 1, inp := [eventPorts (.byte 0xA1 9)] }

theorem atPair_cand {i : Nat} (h : i ∈ atPair.cand) {d : MessageDefinition} (hd : atPair.cat.entries[i]? = some d) :
    d = stopV3 ∨ d = genericV2 := by
  simp only [atPair, List.mem_cons, List.not_mem_nil, or_false] at h
  rcases h with rfl | rfl <;> cases hd
  · exact .inl rfl
  · exact .inr rfl

/-- The invariant holds in a state of the data phase with two survivors. -/
theorem witness_stateInv_data : StateInv atPair := by
  refine ⟨⟨?_, fun h => ?_, fun h => ?_, fun _ => ⟨⟨_, rfl⟩, by decide, by decide, by decide, by decide, by decide, ?_⟩, by decide,
    by decide⟩, ⟨by decide, by decide⟩, rfl, by decide, ?_, ⟨?_, ?_, ?_⟩⟩
  · rintro (h | h | h) <;> cases h
  · cases h
  · cases h
  · intro i hi d hd
    rcases atPair_cand hi hd with rfl | rfl <;> exact ⟨0x21, rfl, by decide⟩
  · intro f hf
    cases hf
    decide
  · intro i hi d hd
    rcases atPair_cand hi hd with rfl | rfl <;> exact ⟨frame61, rfl, by decide⟩
  · intro _ i hi d hd
    rcases atPair_cand hi hd with rfl | rfl <;> exact ⟨0x21, rfl, by decide⟩
  · intro _ i hi d hd
    rcases atPair_cand hi hd with rfl | rfl
    · exact .inr ⟨0x80, rfl, by decide⟩
    · exact .inl rfl

/-- Awaiting a header: an empty seeded set is allowed (R100). -/
def atEmptySeed : State := { atCall with st := .waitingForHeader, cat := {}, cf := some frame61 }

theorem witness_stateInv_header : StateInv atEmptySeed := by
  refine ⟨⟨?_, fun _ => ⟨frame61, rfl, .inl rfl, rfl, rfl, by decide⟩, fun h => ?_, fun h => ?_, by decide, by decide⟩,
    ⟨by decide, by decide⟩, rfl, by decide, ?_, ⟨?_, ?_, ?_⟩⟩
  · rintro (h | h | h) <;> cases h
  · cases h
  · cases h
  · intro f hf
    cases hf
    decide
  · exact fun _ h => nomatch h
  · exact fun _ _ h => nomatch h
  · exact fun _ _ h => nomatch h

/-- A Fail state. -/
def atFail : State := { atCall with st := .fail, fr := some .parityError }

theorem witness_stateInv_fail : StateInv atFail := by
  refine ⟨⟨fun _ => ⟨rfl, rfl, rfl, rfl, rfl⟩, fun h => ?_, fun h => ?_, fun h => ?_, by decide, by decide⟩,
    ⟨by decide, by decide⟩, rfl, by decide, ?_, ⟨?_, ?_, ?_⟩⟩
  · cases h
  · cases h
  · cases h
  · exact fun _ h => nomatch h
  · exact fun _ h => nomatch h
  · exact fun _ _ h => nomatch h
  · exact fun _ _ h => nomatch h

/-- For StepKeepsInvariant, OutputPortSignals, EmittedMessageIsSound and StrongIntegrityExcludesAmbiguity: the step
from `atPair` produces the message of entry 8 (V-A6). -/
theorem witness_step : StateInv atPair ∧ ∃ t r, step atPair = .next t ∧ t.out = some r ∧ r.ok = true ∧ r.defIdx = some 0 :=
  ⟨witness_stateInv_data, _, _, rfl, rfl, rfl, by decide⟩

theorem witness_StrongIntegrityExcludesAmbiguity : StrongIntegrity atPair.cat := by
  have apart : ∀ v : Version, ¬ (verMatch stopV3 v = true ∧ verMatch genericV2 v = true) := by decide +kernel
  intro i j d e hij hd he _ _ _ v hv
  match i, j with
  | 0, 0 => exact hij rfl
  | 0, 1 =>
    cases hd
    cases he
    exact apart v hv
  | 1, 0 =>
    cases hd
    cases he
    exact apart v hv.symm
  | 1, 1 => exact hij rfl
  | 0, j + 2 => cases he
  | 1, j + 2 => cases he
  | i + 2, _ => cases hd

/-- Both outcomes: a byte that ends a decode, and one that begins one. -/
theorem witness_ByteProducesRecordExactlyAtOutcome :
    (StateInv atPair ∧ ∃ u, exec (.byte 0xA1 9) atPair = .next u ∧ u.st = .emit)
      ∧ (StateInv atFail ∧ ∃ u, exec (.byte 0x61 9) atFail = .next u ∧ u.st = .waitingForHeader) :=
  ⟨⟨witness_stateInv_data, _, rfl, rfl⟩, witness_stateInv_fail, _, rfl, rfl⟩

/-- `emit_message` with the longest payload. -/
def emitFull : Instr := .emitMessage 3 { header := some 0x62, ident := some 0x22, payload := List.replicate 15 0 }

/-- A well-formed instruction at the bounds 15 and `len ≤ 18`; the records of a byte after the call byte and of a call
byte. -/
theorem witness_EveryRecordIsWellFormed :
    (emitFull.wellFormed = true ∧ atProcess.len.toNat ≤ bufCap
        ∧ ∃ t r, exec emitFull atProcess = .next t ∧ Produced r atProcess t)
      ∧ (StateInv atPair ∧ ¬ AtCall atPair ∧ ∃ u r, exec (.byte 0xA1 9) atPair = .next u ∧ Produced r atPair u
          ∧ r.defIdx = some 0)
      ∧ (StateInv atFail ∧ AtCall atFail ∧ ∃ u r, exec (.byte 0x43 9) atFail = .next u ∧ Produced r atFail u) := by
  refine ⟨⟨by decide, by decide, _, _, rfl, rfl, rfl⟩, ⟨witness_stateInv_data, ?_, _, _, rfl, ⟨rfl, rfl⟩, rfl⟩,
    witness_stateInv_fail, .inr (.inr rfl), _, _, rfl, rfl, rfl⟩
  rintro (h | h | h) <;> cases h

/-- A step without a record, for the clause of OutputPortSignals on `out_valid = 0`. -/
theorem witness_OutputPortSignals_idle : StateInv atFail ∧ ∃ u, step atFail = .next u ∧ u.out = none :=
  ⟨witness_stateInv_fail, _, rfl, rfl⟩

/-- R53, R54, R55: the tables again, each code read back. -/
theorem test_codes_inverse :
    [CallKind.sendRequest, .requestResend, .framedMessage, .broadcastFeedbackPoll, .unknown].map (fun k => kindOfCode (kindCode k))
        = [some .sendRequest, some .requestResend, some .framedMessage, some .broadcastFeedbackPoll, some .unknown]
      ∧ kindOfCode 5 = none ∧ reasonOfCode 6 = none ∧ stOfCode 7 = none
      ∧ reasonOfCode 5 = some (some .checksumError) ∧ stOfCode 6 = some .fail := by decide

theorem witness_OnlyVersionWriteAndResetChangeVersion :
    (∃ t, exec (.byte 0x45 9) atData = .next t) ∧ (∃ t, exec (.ver 36) atData = .next t) ∧ ∃ t, exec .reset atData = .next t :=
  ⟨⟨_, rfl⟩, ⟨_, rfl⟩, _, rfl⟩

theorem witness_FrameBufferKeepsCanonicalForm : atData.buf.wf ∧ ∃ t, exec (.dataStep 0x45) atData = .next t :=
  ⟨⟨by decide, by decide⟩, _, rfl⟩

/-- An entry with a header that a FramedMessage call seeds, and the bounds 1 and 18 of R50. -/
theorem witness_FrameLengthBounds :
    statusV3 ∈ tcat.entries ∧ statusV3.header ≠ none ∧ tc frame61.raw = 3 ∧ patMatch statusV3 frame61 = true
      ∧ flen bareEntry 0 = 1 ∧ entryWf { locoFamily with dataLength := .fixed 15 } = true
      ∧ flen { locoFamily with dataLength := .fixed 15 } 0 = 18 := by decide

theorem witness_DataPhaseEndsAfterNeededBytes :
    StateInv atPair ∧ atPair.st = .waitingForData ∧ [((0xA1 : Byte), 9)].length = atPair.need.toNat
      ∧ atPair.inp = [((0xA1 : Byte), 9)].map (fun x => eventPorts (.byte x.1 x.2)) ++ [] :=
  ⟨witness_stateInv_data, rfl, rfl, rfl⟩

end Sys2Proof.Tests
end

/-! PROOFS. Every run from reset completes (O52). The parts, in order: the decoder names the instruction BYTE dispatches
to; what a byte leaves unchanged; the invariant between two operations of one byte (`MidFrame`); each operation of the
Frame Assembler lands in the invariant; the host events, one port sample, one step, a run. -/

namespace Sys2Proof.Machine

/-! ### The decoder and the dispatch agree (spec/42_frame_assembler.md R96) -/

theorem callByte_of_tc {b : Byte} {ty : TypeCode} (h : tc b = ty) : callByte (pbit b) ty (addr b) = b :=
  h ▸ callByte_fields b

theorem callByte_of_bcast {b : Byte} {ty : TypeCode} (h : tc b = ty) (hb : isBcast b = true) :
    callByte (pbit b) ty 0 = b := by
  have ha : addr b = 0 := by simpa [isBcast] using hb
  exact ha ▸ callByte_of_tc h

/-- The row the decoder names for a call byte does what `call_step` does with that byte. -/
theorem exec_decodeCall (b : Byte) (t : Timestamp) (s : State) : exec (decodeCall b t) s = takeCall b t s := by
  unfold decodeCall takeCall classifyCall
  simp only [Bool.and_eq_true, beq_iff_eq, Bool.not_eq_true', Bool.not_eq_true, and_assoc]
  split_ifs with sendRow resendRow pollRow bcastRow addrRow unknownRow parityRow
  · simp only [exec, execSendRequest, callByte_of_tc sendRow.1]
  · simp only [exec, execRequestResend, callByte_of_tc resendRow.1]
  · simp only [exec, execBroadcastFeedbackPoll, callByte_of_bcast pollRow.1 pollRow.2.2]
  · simp only [exec, execFramedMessageBcast, callByte_of_bcast bcastRow.1 bcastRow.2]
  · simp only [exec, execFramedMessageAddr, callByte_of_tc addrRow.1]
  · simp only [exec, execUnknown, callByte_of_tc unknownRow.1]
  · simp only [exec, execParityError, callByte_fields]
  · simp only [exec, execUnclassifiedCallError, callByte_fields]

/-- A BYTE event is the instruction BYTE, in every state. -/
theorem runEvent_byte (b : Byte) (t : Timestamp) (s : State) : runEvent (.byte b t) s = execByte b t s := by
  unfold runEvent decodeEvent decodeByte execByte
  cases s.st with
  | waitingForCall | emit | fail => exact exec_decodeCall b t s
  | waitingForHeader | waitingForIdentifier | waitingForData | processingData => rfl

/-! ### What a byte leaves unchanged -/

/-- What every step on a byte keeps: the catalog, the parameters, `ver` and the interface; and it produces at most one
record (R20). -/
structure ByteFrame (s t : State) : Prop where
  machine : SameMachine s t
  interface : SameInterface s t
  ver : t.ver = s.ver
  records : NoRecord s t ∨ ∃ r, Produced r s t ∧ RecordWf r

theorem Ends.byteFrame {s t : State} {r : OutputRecord} (e : Ends s t r) : ByteFrame s t :=
  ⟨e.machine, e.interface, e.ver, .inr ⟨r, e.produced, e.record⟩⟩

theorem ByteFrame.log_length {s t : State} (h : ByteFrame s t) : t.log.length ≤ s.log.length + 1 := by
  rcases h.records with ⟨-, hl⟩ | ⟨r, ⟨-, hl⟩, -⟩ <;> simp [hl]

/-- Writes of the working registers before the operation do not show in the frame. -/
theorem ByteFrame.afterWork {s t : State} {cf : Option CallFrame} {fr : Option FailReason} {cand : List Nat}
    {buf : Memory} {len need : Count}
    (h : ByteFrame { s with cf := cf, fr := fr, cand := cand, buf := buf, len := len, need := need } t) :
    ByteFrame s t :=
  ⟨h.machine, h.interface, h.ver, h.records⟩

theorem raiseFail_frame {c : FailCause} {s t : State} (h : raiseFail c s = .next t) : ByteFrame s t := by
  obtain ⟨r, -, e⟩ := raiseFail_ends h
  exact e.byteFrame

theorem enterDataPhase_frame {s t : State} (h : enterDataPhase s = .next t) : ByteFrame s t := by
  rcases enterDataPhase_next h with ⟨r, e⟩ | ⟨hd, n, cand, -, -, -, -, rfl⟩
  · exact e.byteFrame
  · exact ⟨⟨rfl, rfl, rfl⟩, ⟨rfl, rfl⟩, rfl, .inl ⟨rfl, rfl⟩⟩

theorem takeHeader_frame {b : Byte} {s t : State} (h : takeHeader b s = .next t) : ByteFrame s t := by
  obtain ⟨s1, rfl, ⟨-, h⟩ | ⟨-, -, rfl⟩ | ⟨-, -, h⟩⟩ := takeHeader_next h
  · exact (raiseFail_frame h).afterWork
  · exact ⟨⟨rfl, rfl, rfl⟩, ⟨rfl, rfl⟩, rfl, .inl ⟨rfl, rfl⟩⟩
  · exact (enterDataPhase_frame h).afterWork

theorem takeIdentifier_frame {b : Byte} {s t : State} (h : takeIdentifier b s = .next t) : ByteFrame s t := by
  obtain ⟨s1, rfl, ⟨-, h⟩ | ⟨-, h⟩⟩ := takeIdentifier_next h
  · exact (raiseFail_frame h).afterWork
  · exact (enterDataPhase_frame h).afterWork

theorem takeData_frame {b : Byte} {s t : State} (h : takeData b s = .next t) : ByteFrame s t := by
  obtain ⟨-, s1, rfl, ⟨-, h⟩ | ⟨-, rfl⟩⟩ := takeData_next h
  · obtain ⟨r, e⟩ := processFrame_ends h
    exact e.byteFrame.afterWork
  · exact ⟨⟨rfl, rfl, rfl⟩, ⟨rfl, rfl⟩, rfl, .inl ⟨rfl, rfl⟩⟩

theorem acceptCall_frame {f : CallFrame} {s t : State} (h : acceptCall f s = .next t) : ByteFrame s t := by
  rcases acceptCall_next h with ⟨-, rfl⟩ | ⟨-, rfl⟩
  · exact ⟨⟨rfl, rfl, rfl⟩, ⟨rfl, rfl⟩, rfl, .inr ⟨_, ⟨rfl, rfl⟩, callOnlyRecord_wf f⟩⟩
  · exact ⟨⟨rfl, rfl, rfl⟩, ⟨rfl, rfl⟩, rfl, .inl ⟨rfl, rfl⟩⟩

theorem rejectCall_frame {c : FailCause} {s t : State} (h : rejectCall c s = .next t) : ByteFrame s t :=
  (raiseFail_frame h).afterWork (s := s)

theorem takeCall_frame {b : Byte} {t : Timestamp} {s u : State} (h : takeCall b t s = .next u) : ByteFrame s u := by
  unfold takeCall at h
  split at h
  · exact acceptCall_frame h
  · exact rejectCall_frame h
  · exact rejectCall_frame h

theorem execByte_frame {b : Byte} {t : Timestamp} {s u : State} (h : execByte b t s = .next u) : ByteFrame s u := by
  unfold execByte at h
  split at h
  · exact takeCall_frame h
  · exact takeCall_frame h
  · exact takeCall_frame h
  · exact takeHeader_frame h
  · exact takeIdentifier_frame h
  · exact takeData_frame h
  · cases h

/-! ### States that meet the invariant -/

/-- The invariant reads neither `ver` nor the interface. -/
theorem StateInv.withInterface {s : State} (h : StateInv s) (v : Version) (ps : List Ports)
    (o : Option OutputRecord) : StateInv { s with ver := v, inp := ps, out := o } where
  table := ⟨h.table.atCall, h.table.header, h.table.identifier, h.table.data, h.table.failing, h.table.resting⟩
  candWf := h.candWf
  bufWf := h.bufWf
  lenBound := h.lenBound
  callFrame := h.callFrame
  consistent := ⟨h.consistent.pattern, h.consistent.header, h.consistent.identifier⟩

/-- Between two decodes the invariant asks for a clear working state and the reason of `Fail` alone. -/
theorem stateInv_of_workClear {s : State} (hw : WorkClear s) (hst : AtCall s) (hfr : s.fr ≠ none ↔ s.st = .fail) :
    StateInv s := by
  have ⟨hcf, hcand, hbuf, hlen, _⟩ := hw
  have noSurvivor : ∀ P, EverySurvivor s P := fun P i hi => by simp [hcand] at hi
  exact {
    table := {
      atCall := fun _ => hw
      header := fun h => by simp [AtCall, h] at hst
      identifier := fun h => by simp [AtCall, h] at hst
      data := fun h => by simp [AtCall, h] at hst
      failing := hfr
      resting := fun h => by simp [AtCall, h] at hst }
    candWf := by simp [CandWf, hcand]
    bufWf := by simp [BufWf, hbuf, hlen]
    lenBound := by simp [hlen]
    callFrame := by simp [hcf]
    consistent := ⟨noSurvivor _, fun _ => noSurvivor _, fun _ => noSurvivor _⟩ }

theorem stateInv_resetWith (c : Catalog) (v : Version) (p : UnknownPolicy) (trace : List Ports) :
    StateInv (resetWith c v p trace) :=
  stateInv_of_workClear ⟨rfl, rfl, rfl, rfl, rfl⟩ (.inl rfl) (by simp [resetWith])

theorem stateInv_backToCall (s : State) : StateInv (backToCall s) :=
  stateInv_of_workClear ⟨rfl, rfl, rfl, rfl, rfl⟩ (.inl rfl) (by simp)

theorem stateInv_failOutcome (r : OutputRecord) (c : FailCause) (s : State) : StateInv (failOutcome r c s) :=
  stateInv_of_workClear ⟨rfl, rfl, rfl, rfl, rfl⟩ (.inr (.inr rfl)) (by simp)

theorem stateInv_emitOutcome {s : State} (r : OutputRecord) (h : s.fr = none) : StateInv (emitOutcome r s) :=
  stateInv_of_workClear ⟨rfl, rfl, rfl, rfl, rfl⟩ (.inr (.inl rfl)) (by simp [h])

/-- The invariant right after a call byte that a frame follows (R97, R99, R100). -/
theorem stateInv_awaitHeader {f : CallFrame} {s : State} (hc : classifyCall f.raw f.ts = .frame f)
    (hk : f.kind = .framedMessage ∨ (f.kind = .unknown ∧ s.policy = .expectHeader)) :
    StateInv { beginDecode f s with st := .waitingForHeader } where
  table := {
    atCall := by rintro (h | h | h) <;> cases h
    header := fun _ => ⟨f, rfl, hk, rfl, rfl, rfl⟩
    identifier := fun h => nomatch h
    data := fun h => nomatch h
    failing := by simp
    resting := fun h => nomatch h }
  candWf := ⟨seedSet_rising _ _, fun i hi => by
    obtain ⟨d, hd, -⟩ := mem_seedSet.mp hi
    exact (List.getElem?_eq_some_iff.mp hd).1⟩
  bufWf := rfl
  lenBound := by simp
  callFrame := fun g hg => by cases hg; exact hc
  consistent := {
    pattern := fun i hi d hd => by
      obtain ⟨e, he, hp⟩ := mem_seedSet.mp hi
      cases hd.symm.trans he
      exact ⟨f, rfl, hp⟩
    header := by rintro (h | h) <;> cases h
    identifier := fun h => nomatch h }

/-! ### The invariant inside a frame -/

/-- What holds inside a frame from its header on, at every point of a byte's step: all of the invariant but what it
says of `st` and `need`. -/
structure MidFrame (s : State) : Prop where
  callFrame : ∃ f, s.cf = some f ∧ classifyCall f.raw f.ts = .frame f
  noReason : s.fr = none
  candWf : CandWf s
  bufWf : BufWf s
  begun : 1 ≤ s.len.toNat
  lenBound : s.len.toNat ≤ bufCap
  pattern : EverySurvivor s (fun d => ∃ f, s.cf = some f ∧ patMatch d f = true)
  header : EverySurvivor s (fun d => ∃ h, s.buf.read 0 = some h ∧ hdrMatch d h = true)

/-- The third clause of `Consistent`, which holds from the data phase on (R15). -/
def IdentifierSeen (s : State) : Prop :=
  EverySurvivor s (fun d => d.identifier = none ∨ ∃ k, s.buf.read 1 = some k ∧ idAccepts d k = true)

theorem EverySurvivor.sublist {s t : State} {P : MessageDefinition → Prop} (h : EverySurvivor s P)
    (hsub : t.cand.Sublist s.cand) (hcat : t.cat = s.cat) : EverySurvivor t P :=
  fun i hi d hd => h i (hsub.subset hi) d (hcat ▸ hd)

theorem EverySurvivor.imp {s : State} {P Q : MessageDefinition → Prop} (h : EverySurvivor s P)
    (hPQ : ∀ d, P d → Q d) : EverySurvivor s Q :=
  fun i hi d hd => hPQ d (h i hi d hd)

theorem CandWf.sublist {s t : State} (h : CandWf s) (hsub : t.cand.Sublist s.cand) (hcat : t.cat = s.cat) :
    CandWf t :=
  ⟨h.1.sublist hsub, fun i hi => hcat ▸ h.2 i (hsub.subset hi)⟩

/-- A survivor's index names an entry (R15). -/
theorem CandWf.entry {s : State} (h : CandWf s) {i : Nat} (hi : i ∈ s.cand) :
    ∃ d, s.cat.entries[i]? = some d :=
  ⟨_, List.getElem?_eq_getElem (h.2 i hi)⟩

theorem versionSet_sublist (c : Catalog) (v : Version) (cand : List Nat) : (versionSet c v cand).Sublist cand :=
  List.filter_sublist

/-- Writing the slot at `len` keeps what the slots below hold. -/
theorem BufWf.read_write {s : State} (h : BufWf s) {a c : Nat} {b k : Byte} (ha : s.len.toNat = a)
    (hc : s.buf.read c = some k) : (s.buf.write a b).read c = some k := by
  subst ha
  rw [Memory.write_append h, Memory.read_append, hc]

/-- A count of at most `BUFCAP` fits the register `len` (R13, R30). -/
theorem toNat_count {n : Nat} (h : n ≤ bufCap) : (BitVec.ofNat 5 n).toNat = n :=
  Nat.mod_eq_of_lt (Nat.lt_of_le_of_lt h (by decide))

/-- Storing a byte at `len` keeps the listed slots those below `len` (R13). -/
theorem BufWf.write {s : State} (h : BufWf s) {a : Nat} {b : Byte} (ha : s.len.toNat = a) (hlt : a < bufCap) :
    BufWf { s with buf := s.buf.write a b, len := BitVec.ofNat 5 (a + 1) } := by
  subst ha
  have hl := toNat_count hlt
  unfold BufWf at h ⊢
  simp only [hl]
  rw [Memory.write_append h, List.map_append, h, List.range_succ]
  rfl

theorem BufWf.read_zero {s : State} (h : BufWf s) (hl : 1 ≤ s.len.toNat) :
    ∃ b, s.buf.read 0 = some b ∧ Machine.readSlot s 0 = .ok b := by
  obtain ⟨b, hb, hr⟩ := h.readSlot (a := 0) hl
  exact ⟨b, (Memory.read_range h 0).trans hb, hr⟩

/-- A filter step inside a frame (R85: the set only shrinks), whatever `st` and `need` are. -/
theorem MidFrame.keepSurvivors {s : State} (m : MidFrame s) {cand : List Nat} (h : cand.Sublist s.cand) (x : AsmState)
    (n : Count) : MidFrame { s with st := x, cand := cand, need := n } where
  callFrame := m.callFrame
  noReason := m.noReason
  candWf := m.candWf.sublist h rfl
  bufWf := m.bufWf
  begun := m.begun
  lenBound := m.lenBound
  pattern := m.pattern.sublist h rfl
  header := m.header.sublist h rfl

/-- A store at `len` inside a frame (R102, R104). -/
theorem MidFrame.store {s : State} (m : MidFrame s) {a : Nat} (b : Byte) (n : Count) (ha : s.len.toNat = a)
    (hlt : a < bufCap) :
    MidFrame { s with buf := s.buf.write a b, len := BitVec.ofNat 5 (a + 1), need := n } := by
  have hl := toNat_count hlt
  exact {
    callFrame := m.callFrame
    noReason := m.noReason
    candWf := m.candWf
    bufWf := m.bufWf.write ha hlt
    begun := by simp only [hl]; omega
    lenBound := by simp only [hl]; omega
    pattern := m.pattern
    header := m.header.imp fun _ ⟨h, hr, hm⟩ => ⟨h, m.bufWf.read_write ha hr, hm⟩ }

theorem StateInv.fr_none {s : State} (h : StateInv s) (hst : s.st ≠ .fail) : s.fr = none := by
  by_contra hf
  exact hst (h.table.failing.mp hf)

/-- In the two states that follow the header the invariant gives `MidFrame`. -/
theorem StateInv.midFrame {s : State} (h : StateInv s) (hst : s.st = .waitingForIdentifier ∨ s.st = .waitingForData) :
    MidFrame s := by
  have ⟨⟨f, hf⟩, hl⟩ : (∃ f, s.cf = some f) ∧ 1 ≤ s.len.toNat := by
    rcases hst with hi | hd
    · obtain ⟨hf, hlen, -⟩ := h.table.identifier hi
      exact ⟨hf, by simp [hlen]⟩
    · obtain ⟨hf, hlen, -⟩ := h.table.data hd
      exact ⟨hf, hlen⟩
  exact {
    callFrame := ⟨f, hf, h.callFrame f hf⟩
    noReason := h.fr_none (by rcases hst with hi | hd <;> simp [*])
    candWf := h.candWf
    bufWf := h.bufWf
    begun := hl
    lenBound := h.lenBound
    pattern := h.consistent.pattern
    header := h.consistent.header hst }

/-- Storing and filtering by the header enters the frame (R101). -/
theorem StateInv.midFrame_header {s : State} (h : StateInv s) (hst : s.st = .waitingForHeader) (b : Byte) :
    MidFrame { s with buf := s.buf.write 0 b, len := 1, cand := headerSet s.cat b s.cand } := by
  obtain ⟨f, hf, -, hlen, -, -⟩ := h.table.header hst
  have hsub : (headerSet s.cat b s.cand).Sublist s.cand := List.filter_sublist
  exact {
    callFrame := ⟨f, hf, h.callFrame f hf⟩
    noReason := h.fr_none (by simp [hst])
    candWf := h.candWf.sublist hsub rfl
    bufWf := h.bufWf.write (by simp [hlen]) (by decide)
    begun := Nat.le_refl 1
    lenBound := (by decide : 1 ≤ bufCap)
    pattern := h.consistent.pattern.sublist hsub rfl
    header := fun i hi d hd => by
      obtain ⟨-, e, he, hm⟩ := mem_headerSet.mp hi
      cases hd.symm.trans he
      exact ⟨b, Memory.read_write_same _ _ _, hm⟩ }

/-- Inside a frame some identifier is still to come (R101). -/
theorem MidFrame.stateInv_awaitIdentifier {s : State} (m : MidFrame s) (hst : s.st = .waitingForIdentifier)
    (hlen : s.len = 1) (hneed : s.need = 0) (hne : s.cand ≠ []) (hid : someIdentifier s.cat s.cand = true) :
    StateInv s := by
  obtain ⟨f, hf, hc⟩ := m.callFrame
  exact {
    table := {
      atCall := by simp [AtCall, hst]
      header := by simp [hst]
      identifier := fun _ => ⟨⟨f, hf⟩, hlen, hneed, hne, hid⟩
      data := by simp [hst]
      failing := by simp [m.noReason, hst]
      resting := by simp [hst] }
    candWf := m.candWf
    bufWf := m.bufWf
    lenBound := m.lenBound
    callFrame := fun g hg => by cases hf.symm.trans hg; exact hc
    consistent := ⟨m.pattern, fun _ => m.header, by simp [hst]⟩ }

/-- Inside a frame `need` bytes are missing from the survivors' common length (R103, R104). -/
theorem MidFrame.stateInv_awaitData {s : State} (m : MidFrame s) (hst : s.st = .waitingForData)
    (hneed : 1 ≤ s.need.toNat) (hsum : s.len.toNat + s.need.toNat ≤ 18) (hne : s.cand ≠ [])
    (hl : EverySurvivor s (fun d => ∃ h, s.buf.read 0 = some h ∧ flen d h = s.len.toNat + s.need.toNat))
    (hid : IdentifierSeen s) : StateInv s := by
  obtain ⟨f, hf, hc⟩ := m.callFrame
  exact {
    table := {
      atCall := by simp [AtCall, hst]
      header := by simp [hst]
      identifier := by simp [hst]
      data := fun _ => ⟨⟨f, hf⟩, m.begun, by omega, hneed, hsum, hne, hl⟩
      failing := by simp [m.noReason, hst]
      resting := by simp [hst] }
    candWf := m.candWf
    bufWf := m.bufWf
    lenBound := m.lenBound
    callFrame := fun g hg => by cases hf.symm.trans hg; exact hc
    consistent := ⟨m.pattern, fun _ => m.header, fun _ => hid⟩ }

/-! ### Every operation on a byte lands in the invariant -/

/-- The operation completes, in a state that meets the invariant. -/
def Lands (x : Result) : Prop := ∃ t, x = .next t ∧ StateInv t

theorem raiseFail_lands {s : State} (m : MidFrame s) (c : FailCause) : Lands (raiseFail c s) := by
  obtain ⟨f, hf, -⟩ := m.callFrame
  exact ⟨_, raiseFail_of_readFrame (m.bufWf.readFrame hf), stateInv_failOutcome _ _ _⟩

theorem messageOutcome_lands {s : State} (m : MidFrame s) (i : Nat) (c : Carved) : Lands (messageOutcome i c s) := by
  obtain ⟨f, hf, -⟩ := m.callFrame
  exact ⟨_, messageOutcome_of_readFrame (m.bufWf.readFrame hf), stateInv_emitOutcome _ m.noReason⟩

/-- `carve` on a buffer that holds the definition's fields (R108). -/
theorem carveFields_of_bufWf {d : MessageDefinition} {s : State} {h : Byte} (hb : BufWf s)
    (hr : s.buf.read 0 = some h) (hl : 1 + idlen d + dlen d h ≤ s.len.toNat) :
    carveFields d s = .ok
      { header := if d.header.isSome then some h else none
        ident := if d.identifier.isSome then (bufBytes s)[1]? else none
        payload := ((bufBytes s).drop (1 + idlen d)).take (dlen d h) } := by
  have h0 : readSlot s 0 = .ok h := by
    rw [readSlot, if_pos (by omega), hr]
  have hident : (if d.identifier.isSome then (readSlot s 1).map some else .ok none)
      = .ok (if d.identifier.isSome then (bufBytes s)[1]? else none) := by
    split
    · rename_i hd
      obtain ⟨k, hk, hk'⟩ := hb.readSlot (a := 1) (by simp only [idlen, hd, if_true] at hl; omega)
      rw [hk, hk']
      rfl
    · rfl
  simp only [carveFields, h0, hident, hb.readSpan _ _ hl]

/-- A complete frame of a catalog entry is judged (R105). -/
theorem judgeMessage_lands {s : State} (m : MidFrame s) {i : Nat} {d : MessageDefinition} {h : Byte}
    (hd : s.cat.entries[i]? = some d) (hr : s.buf.read 0 = some h) (hl : flen d h = s.len.toNat) :
    Lands (judgeMessage i s) := by
  obtain ⟨c, hcarve⟩ : ∃ c, carveFields d s = .ok c :=
    ⟨_, carveFields_of_bufWf m.bufWf hr (by unfold flen at hl; omega)⟩
  simp only [judgeMessage, readEntry_ok.mpr hd, hcarve, checksumOk_of_bufWf m.bufWf m.begun, withRead_ok]
  split_ifs
  · exact messageOutcome_lands m _ _
  · exact raiseFail_lands m _
  · exact messageOutcome_lands m _ _

/-- `process()` on a frame of the length all survivors have (R105). -/
theorem processFrame_lands {s : State} (m : MidFrame s)
    (hl : EverySurvivor s (fun d => ∃ h, s.buf.read 0 = some h ∧ flen d h = s.len.toNat)) :
    Lands (processFrame s) := by
  have hsub := versionSet_sublist s.cat s.ver s.cand
  have m1 := m.keepSurvivors hsub .processingData s.need
  unfold processFrame
  simp only
  split
  · exact raiseFail_lands m1 _
  · exact raiseFail_lands m1 _
  · rename_i i hfin
    have hi : i ∈ versionSet s.cat s.ver s.cand := by simp [finalizeSet_unique.mp hfin]
    obtain ⟨d, hd⟩ := m.candWf.entry (hsub.subset hi)
    obtain ⟨h, hr, hlen⟩ := hl i (hsub.subset hi) d hd
    exact judgeMessage_lands m1 hd hr hlen

/-- The end of `enter_data()` with the survivors' common length (R103). -/
theorem commitLength_lands {s : State} (m : MidFrame s) {h : Byte} {n : Nat} (hne : s.cand ≠ [])
    (hr : s.buf.read 0 = some h) (hl : EverySurvivor s (fun d => flen d h = n)) (hid : IdentifierSeen s) :
    Lands (commitLength n s) := by
  have hn : n ≤ bufCap := by
    obtain ⟨i, hi⟩ := List.exists_mem_of_ne_nil _ hne
    obtain ⟨d, hd⟩ := m.candWf.entry hi
    exact hl i hi d hd ▸ flen_le_bufCap (Catalog.entryWf_of_getElem hd) h
  unfold commitLength
  split_ifs with hshort hfull
  · exact raiseFail_lands m _
  · exact processFrame_lands m (hl.imp fun d hd => ⟨h, hr, hd.trans hfull⟩)
  · have hneed := toNat_count ((Nat.sub_le n s.len.toNat).trans hn)
    have hsum : s.len.toNat + (BitVec.ofNat 5 (n - s.len.toNat)).toNat = n := by omega
    have m1 := m.keepSurvivors (List.Sublist.refl s.cand) .waitingForData (BitVec.ofNat 5 (n - s.len.toNat))
    exact ⟨_, rfl, m1.stateInv_awaitData rfl (by simp only [hneed]; omega) (hsum.trans_le hn) hne
      (hl.imp fun d hd => ⟨h, hr, hd.trans hsum.symm⟩) hid⟩

/-- What a common length of the candidates says of each (R103). -/
theorem everySurvivor_of_agreement {s : State} {h : Byte} {n : Nat}
    (ha : agreement (candLengths s.cat h s.cand) = .common n) :
    s.cand ≠ [] ∧ EverySurvivor s (fun d => flen d h = n) := by
  obtain ⟨hne, hall⟩ := agreement_common.mp ha
  refine ⟨fun e => hne (by simp [e, candLengths]), fun i hi d hd => ?_⟩
  exact hall _ (mem_candLengths.mpr ⟨i, hi, d, hd, rfl⟩)

theorem enterDataPhase_lands {s : State} (m : MidFrame s) (hid : IdentifierSeen s) : Lands (enterDataPhase s) := by
  obtain ⟨h, hr, hslot⟩ := m.bufWf.read_zero m.begun
  have hsub := versionSet_sublist s.cat s.ver s.cand
  have m1 := m.keepSurvivors hsub s.st s.need
  simp only [enterDataPhase, hslot, withRead_ok]
  split
  · exact raiseFail_lands m _
  · rename_i n ha
    obtain ⟨hne, hl⟩ := everySurvivor_of_agreement ha
    exact commitLength_lands m hne hr hl hid
  · split
    · exact raiseFail_lands m1 _
    · exact raiseFail_lands m1 _
    · rename_i n ha
      obtain ⟨hne, hl⟩ := everySurvivor_of_agreement (s := { s with cand := versionSet s.cat s.ver s.cand }) ha
      exact commitLength_lands m1 hne hr hl (hid.sublist hsub rfl)

/-- A byte in WaitingForHeader (R101). -/
theorem takeHeader_lands {s : State} (h : StateInv s) (hst : s.st = .waitingForHeader) (b : Byte) :
    Lands (takeHeader b s) := by
  have m := h.midFrame_header hst b
  obtain ⟨-, -, -, -, hneed, -⟩ := h.table.header hst
  rw [takeHeader_eq]
  simp only
  split_ifs with hempty hsome
  · exact raiseFail_lands m _
  · have m1 := m.keepSurvivors (List.Sublist.refl _) .waitingForIdentifier s.need
    exact ⟨_, rfl, m1.stateInv_awaitIdentifier rfl rfl hneed hempty hsome⟩
  · refine enterDataPhase_lands m fun i hi d hd => .inl ?_
    by_contra hident
    exact hsome (someIdentifier_iff.mpr ⟨i, hi, d, hd, Option.isSome_iff_ne_none.mpr hident⟩)

/-- A byte in WaitingForIdentifier (R102). -/
theorem takeIdentifier_lands {s : State} (h : StateInv s) (hst : s.st = .waitingForIdentifier) (b : Byte) :
    Lands (takeIdentifier b s) := by
  obtain ⟨-, hlen, -⟩ := h.table.identifier hst
  have stored := (h.midFrame (.inl hst)).store b s.need (a := 1) (by simp [hlen]) (by decide)
  have m := stored.keepSurvivors (cand := identifierSet s.cat b s.cand) List.filter_sublist s.st s.need
  rw [takeIdentifier_eq]
  simp only
  split_ifs
  · exact raiseFail_lands m _
  · refine enterDataPhase_lands m fun i hi d hd => .inr ?_
    obtain ⟨-, e, he, hacc⟩ := mem_identifierSet.mp hi
    cases hd.symm.trans he
    exact ⟨b, Memory.read_write_same _ _ _, hacc⟩

/-- A byte in WaitingForData (R104). -/
theorem takeData_lands {s : State} (h : StateInv s) (hst : s.st = .waitingForData) (b : Byte) :
    Lands (takeData b s) := by
  obtain ⟨-, -, hle, hneed, hsum, hne, hl⟩ := h.table.data hst
  have hlt : s.len.toNat < bufCap := by simp only [bufCap]; omega
  have m := (h.midFrame (.inr hst)).store b (s.need - 1) rfl hlt
  have hlen := toNat_count hlt
  have hneed1 : (s.need - 1).toNat = s.need.toNat - 1 := by bv_omega
  rw [takeData_eq b s hlt]
  simp only
  split_ifs with hlast
  · refine processFrame_lands m (EverySurvivor.imp hl fun d ⟨k, hr, hf⟩ => ⟨k, h.bufWf.read_write rfl hr, ?_⟩)
    have : (s.need - 1).toNat = 0 := by rw [hlast]; rfl
    simp only [hlen]
    omega
  · have hpos : (s.need - 1).toNat ≠ 0 := fun e => hlast (BitVec.eq_of_toNat_eq e)
    refine ⟨_, rfl, m.stateInv_awaitData hst (by simp only; omega) (by simp only [hlen]; omega) hne ?_ ?_⟩
    · exact EverySurvivor.imp hl fun d ⟨k, hr, hf⟩ =>
        ⟨k, h.bufWf.read_write rfl hr, by simp only [hlen]; omega⟩
    · exact (h.consistent.identifier hst).imp fun d hd =>
        hd.imp id fun ⟨k, hr, hacc⟩ => ⟨k, h.bufWf.read_write rfl hr, hacc⟩

/-- A call byte that classified (R97), from any state. -/
theorem acceptCall_lands {f : CallFrame} (hc : classifyCall f.raw f.ts = .frame f) (s : State) :
    Lands (acceptCall f s) := by
  have bare : Lands (callOnlyOutcome (beginDecode f s)) :=
    ⟨_, callOnlyOutcome_of_cf rfl, stateInv_emitOutcome _ rfl⟩
  unfold acceptCall
  split
  · exact bare
  · exact bare
  · exact bare
  · rename_i hk
    unfold unknownOutcome
    split
    · exact bare
    · exact ⟨_, rfl, stateInv_awaitHeader hc (.inr ⟨hk, ‹_›⟩)⟩
  · exact ⟨_, rfl, stateInv_awaitHeader hc (.inl ‹_›)⟩

/-- A call byte (R97), from any state. -/
theorem takeCall_lands (b : Byte) (t : Timestamp) (s : State) : Lands (takeCall b t s) := by
  unfold takeCall
  split
  · rename_i f hf
    obtain ⟨hraw, hts, -, -⟩ := classifyCall_frame hf
    exact acceptCall_lands (by rw [hraw, hts, hf]) s
  · exact ⟨_, rfl, stateInv_failOutcome _ _ _⟩
  · exact ⟨_, rfl, stateInv_failOutcome _ _ _⟩

/-- A byte in any state that meets the invariant (R96). -/
theorem execByte_lands {s : State} (h : StateInv s) (b : Byte) (t : Timestamp) : Lands (execByte b t s) := by
  unfold execByte
  split
  · exact takeCall_lands b t s
  · exact takeCall_lands b t s
  · exact takeCall_lands b t s
  · exact takeHeader_lands h ‹_› b
  · exact takeIdentifier_lands h ‹_› b
  · exact takeData_lands h ‹_› b
  · exact absurd ‹_› h.table.resting

/-! ### Events, samples, steps, runs -/

/-- Whether an event is a byte: only a byte produces a record. -/
def isByteEvent : Event → Bool
  | .byte _ _ => true
  | .reset | .ver _ | .discard => false

/-- What the execution of some events keeps beside the invariant: the catalog, the input still to come, and a bound on
the records produced. -/
structure Advances (n : Nat) (s t : State) : Prop where
  inv : StateInv t
  cat : t.cat = s.cat
  inp : t.inp = s.inp
  log : t.log.length ≤ s.log.length + n

/-- One event (R96, R127 to R129). -/
theorem runEvent_advances {s : State} (h : StateInv s) (e : Event) :
    ∃ t, runEvent e s = .next t ∧ Advances ([e].countP isByteEvent) s t := by
  cases e with
  | reset =>
    exact ⟨_, rfl, (stateInv_backToCall s).withInterface s.verInit s.inp s.out, rfl, rfl, Nat.le_add_right _ _⟩
  | ver v => exact ⟨_, rfl, h.withInterface v s.inp s.out, rfl, rfl, Nat.le_add_right _ _⟩
  | discard => exact ⟨_, rfl, stateInv_backToCall s, rfl, rfl, Nat.le_add_right _ _⟩
  | byte b t =>
    obtain ⟨u, hu, hi⟩ := execByte_lands h b t
    have frame := execByte_frame hu
    exact ⟨u, (runEvent_byte b t s).trans hu, hi, frame.machine.1, frame.interface.1, frame.log_length⟩

/-- The events of a sample, in order (R130). -/
theorem runEvents_advances (es : List Event) {s : State} (h : StateInv s) :
    ∃ t, runEvents es s = .next t ∧ Advances (es.countP isByteEvent) s t := by
  induction es generalizing s with
  | nil => exact ⟨s, rfl, h, rfl, rfl, Nat.le_refl _⟩
  | cons e es ih =>
    obtain ⟨u, hu, head⟩ := runEvent_advances h e
    obtain ⟨t, ht, rest⟩ := ih head.inv
    refine ⟨t, by simp only [runEvents, hu, ht], rest.inv, rest.cat.trans head.cat, rest.inp.trans head.inp, ?_⟩
    have hcount : (e :: es).countP isByteEvent = [e].countP isByteEvent + es.countP isByteEvent :=
      List.countP_append (l₁ := [e])
    have := head.log
    have := rest.log
    omega

/-- One sample raises at most one BYTE event (R19, R130). -/
theorem countP_portEvents_le (p : Ports) : (portEvents p).countP isByteEvent ≤ 1 := by
  unfold portEvents
  split_ifs <;> simp [isByteEvent]

/-- One step from the invariant completes, whatever sample comes (R7, R24, R171), and takes that sample. -/
theorem step_of_stateInv {s : State} (h : StateInv s) :
    ∃ t, step s = .next t ∧ StateInv t ∧ t.cat = s.cat ∧ t.inp = s.inp.tail
      ∧ t.log.length ≤ s.log.length + 1 := by
  unfold step
  split
  · rename_i hinp
    exact ⟨_, rfl, h.withInterface s.ver s.inp none, rfl, by simp [hinp], Nat.le_add_right _ _⟩
  · rename_i p ps hinp
    obtain ⟨t, ht, a⟩ := runEvents_advances (portEvents p) (h.withInterface s.ver ps none)
    exact ⟨t, ht, a.inv, a.cat, by simpa [hinp] using a.inp, a.log.trans (by simpa using countP_portEvents_le p)⟩

/-- The induction over a run: `n` steps from the invariant complete in it and take `n` samples. -/
theorem run_of_stateInv (n : Nat) {s : State} (h : StateInv s) :
    ∃ t : State, Sys2Proof.core.run n s = .next t ∧ StateInv t ∧ t.cat = s.cat ∧ t.inp = s.inp.drop n
      ∧ t.log.length ≤ s.log.length + n := by
  induction n generalizing s with
  | zero => exact ⟨s, rfl, h, rfl, rfl, Nat.le_refl _⟩
  | succ n ih =>
    obtain ⟨u, hu, invu, catu, inpu, logu⟩ := step_of_stateInv h
    obtain ⟨t, ht, invt, catt, inpt, logt⟩ := ih invu
    have hstep : Sys2Proof.core.step s = .next u := hu
    refine ⟨t, by simp only [Host.Core.run, hstep, ht], invt, catt.trans catu, ?_, by omega⟩
    rw [inpt, inpu, List.drop_tail]

/-- Settles O52: reset meets the invariant, and a run from the invariant completes in it. -/
theorem everyRunFromResetCompletes : Obligations.EveryRunFromResetCompletes := by
  intro c v p trace n
  obtain ⟨t, ht, inv, cat, inp, log⟩ := run_of_stateInv n (stateInv_resetWith c v p trace)
  exact ⟨t, ht, inv, cat, inp, by simpa [resetWith] using log⟩

end Sys2Proof.Machine

/-! PROOFS. The state family (O50, O53, O54, O55, O1, O2, O18). The parts, in order: reset, `clear_work` and the invariant
along a step; the record that an operation forms and how long its fields are; how a byte ends, operation by operation; what
every instruction leaves unchanged and the records it can produce. -/

namespace Sys2Proof.Machine

/-! ### Reset, clear_work, and the invariant along a step -/

/-- Settles O50: a step from the invariant completes in it, and a step has one answer. -/
theorem stepKeepsInvariant : Obligations.StepKeepsInvariant := by
  intro s t h hst
  obtain ⟨u, hu, inv, -⟩ := step_of_stateInv h
  cases hst.symm.trans hu
  exact inv

/-- Without a valid byte no slot is readable (R13, R35). -/
theorem readSlot_of_len_zero {s : State} (h : s.len = 0) (a : Nat) : readSlot s a = .error .bufUnreadable := by
  simp [readSlot, h]

/-- Settles O1: each register by its value, each slot because `len` is 0, a byte because `st` is WaitingForCall. -/
theorem resetStateValues : Obligations.ResetStateValues :=
  ⟨rfl, rfl, rfl, rfl, rfl, rfl, rfl, rfl, readSlot_of_len_zero rfl, fun _ _ => rfl⟩

/-- Settles O2: reset leaves a clear working state in WaitingForCall, which is all the invariant asks there. -/
theorem resetMeetsInvariant : Obligations.ResetMeetsInvariant := stateInv_resetWith

/-- Settles O18. -/
theorem clearWorkDiscardsDecode : Obligations.ClearWorkDiscardsDecode :=
  fun s => ⟨clearWork s, rfl, rfl, readSlot_of_len_zero rfl, rfl⟩

/-! ### Reading the buffer: which registers count, and how many bytes come back -/

theorem readSlot_ok {s : State} {a : Nat} {b : Byte} :
    readSlot s a = .ok b ↔ a < s.len.toNat ∧ s.buf.read a = some b := by
  unfold readSlot
  split_ifs with ha
  · cases s.buf.read a <;> simp [ha]
  · simp [ha]

/-- A span is read from `buf` and `len` alone. -/
theorem readSpan_congr {s t : State} (hbuf : t.buf = s.buf) (hlen : t.len = s.len) (n a : Nat) :
    readSpan t a n = readSpan s a n := by
  induction n generalizing a with
  | zero => rfl
  | succ n ih => simp only [readSpan, readSlot, hbuf, hlen, ih]

theorem frameBytes_congr {s t : State} (hbuf : t.buf = s.buf) (hlen : t.len = s.len) : frameBytes t = frameBytes s := by
  rw [frameBytes, readSpan_congr hbuf hlen, hlen, frameBytes]

theorem carveFields_congr {s t : State} {d : MessageDefinition} (hbuf : t.buf = s.buf) (hlen : t.len = s.len) :
    carveFields d t = carveFields d s := by
  simp only [carveFields, readSlot, readSpan_congr hbuf hlen, hbuf, hlen]

theorem readSpan_length {s : State} {n a : Nat} {bs : List Byte} (h : readSpan s a n = .ok bs) : bs.length = n := by
  induction n generalizing a bs with
  | zero => cases h; rfl
  | succ n ih =>
    unfold readSpan at h
    split at h
    · cases h
    · split at h
      · cases h
      · rename_i hrest
        cases h
        rw [List.length_cons, ih hrest]

theorem frameBytes_length {s : State} {bs : List Byte} (h : frameBytes s = .ok bs) : bs.length = s.len.toNat :=
  readSpan_length h

/-- What `carve` cuts as payload has the length the definition gives (R50, R108). -/
theorem carveFields_payload_length {d : MessageDefinition} {s : State} {m : Carved} (h : carveFields d s = .ok m) :
    ∃ hd, m.payload.length = dlen d hd := by
  unfold carveFields at h
  split at h
  · cases h
  · rename_i hd _
    split at h
    · cases h
    · split at h
      · cases h
      · rename_i hspan
        cases h
        exact ⟨hd, readSpan_length hspan⟩

/-! ### The record an operation forms -/

/-- The bounds of R20's table on the two lists of a record. -/
def Bounded (r : OutputRecord) : Prop := r.payload.length ≤ 15 ∧ r.raw.length ≤ 18

/-- A record that names no definition carries no payload. -/
theorem RecordWf.bounded_of_unnamed {r : OutputRecord} (h : RecordWf r) (hd : r.defIdx = none) (hraw : r.raw.length ≤ 18) :
    Bounded r := by
  obtain ⟨-, -, hp⟩ := h.message hd
  exact ⟨by simp [hp], hraw⟩

/-- A record formed from the call byte `b` at `t` alone (R98, R144 rows 1 and 2). -/
structure CallRecord (b : Byte) (t : Timestamp) (r : OutputRecord) : Prop where
  wf : RecordWf r
  callRaw : r.callRaw = b
  callTs : r.callTs = t
  unnamed : r.defIdx = none
  raw : r.raw = []

theorem CallRecord.bounded {b : Byte} {t : Timestamp} {r : OutputRecord} (h : CallRecord b t r) : Bounded r :=
  h.wf.bounded_of_unnamed h.unnamed (by simp [h.raw])

/-- A record formed from the frame that `s` holds (R105, R106, R144 rows 3 to 5): a definition it names is a survivor, and
the message is what `carve` cuts for it. -/
structure FrameRecord (s : State) (r : OutputRecord) : Prop where
  wf : RecordWf r
  cf : r.cf = s.cf
  raw : frameBytes s = .ok r.raw
  named : r.ok = true → r.defIdx ≠ none
  carved : ∀ i, r.defIdx = some i → i ∈ s.cand ∧ ∃ d m, s.cat.entries[i]? = some d ∧ carveFields d s = .ok m
    ∧ r.header = m.header ∧ r.ident = m.ident ∧ r.payload = m.payload

/-- Such a record where the frame has the length of the definition named (R50). -/
structure FullRecord (s : State) (r : OutputRecord) : Prop extends FrameRecord s r where
  full : ∀ i d, r.defIdx = some i → s.cat.entries[i]? = some d → ∃ h, readSlot s 0 = .ok h ∧ flen d h = s.len.toNat

/-- The early version filter and the passage through ProcessingData do not show in the record. -/
theorem FrameRecord.widen {s : State} {x : AsmState} {cand : List Nat} {r : OutputRecord}
    (h : FrameRecord { s with st := x, cand := cand } r) (hsub : cand.Sublist s.cand) : FrameRecord s r where
  wf := h.wf
  cf := h.cf
  raw := by
    rw [← h.raw]
    exact frameBytes_congr rfl rfl
  named := h.named
  carved := fun i hi => by
    obtain ⟨hmem, d, m, hd, hm, fields⟩ := h.carved i hi
    refine ⟨hsub.subset hmem, d, m, hd, ?_, fields⟩
    rw [← hm]
    exact carveFields_congr rfl rfl

theorem FullRecord.widen {s : State} {cand : List Nat} {r : OutputRecord}
    (h : FullRecord { s with cand := cand } r) (hsub : cand.Sublist s.cand) : FullRecord s r :=
  { FrameRecord.widen (x := s.st) h.toFrameRecord hsub with full := h.full }

/-- If every survivor's length is the frame's, so is that of the survivor named. -/
theorem FrameRecord.full_of_survivors {s : State} {r : OutputRecord} (h : FrameRecord s r)
    (hl : EverySurvivor s (fun d => ∃ h, readSlot s 0 = .ok h ∧ flen d h = s.len.toNat)) : FullRecord s r :=
  { h with full := fun i d hi hd => hl i (h.carved i hi).1 d hd }

theorem FrameRecord.full_of_unnamed {s : State} {r : OutputRecord} (h : FrameRecord s r) (hd : r.defIdx = none) :
    FullRecord s r :=
  { h with full := fun i d hi => by simp [hd] at hi }

theorem FrameRecord.bounded {s : State} {r : OutputRecord} (h : FrameRecord s r) (hl : s.len.toNat ≤ bufCap) :
    Bounded r := by
  have hraw : r.raw.length ≤ 18 := (frameBytes_length h.raw).trans_le hl
  cases hi : r.defIdx with
  | none => exact h.wf.bounded_of_unnamed hi hraw
  | some i =>
    obtain ⟨-, d, m, hd, hm, -, -, hp⟩ := h.carved i hi
    obtain ⟨k, hk⟩ := carveFields_payload_length hm
    exact ⟨by rw [hp, hk]; exact dlen_le_maxData (Catalog.entryWf_of_getElem hd) k, hraw⟩

/-- With the buffer's slots those below `len`, the values of R20's table: the fields of the message are cut from the
record's own `raw`. -/
theorem FullRecord.carved_of_bufWf {s : State} {r : OutputRecord} (hr : FullRecord s r) (hb : BufWf s) {i : Nat}
    (hi : r.defIdx = some i) :
    ∃ d h, s.cat.entries[i]? = some d ∧ r.raw[0]? = some h ∧ r.raw.length = flen d h
      ∧ r.header = (if d.header.isSome then some h else none)
      ∧ r.ident = (if d.identifier.isSome then r.raw[1]? else none)
      ∧ r.payload = (r.raw.drop (1 + idlen d)).take (dlen d h) := by
  obtain ⟨-, d, m, hd, hm, hhdr, hid, hpay⟩ := hr.carved i hi
  obtain ⟨h, hslot, hflen⟩ := hr.full i d hi hd
  obtain ⟨-, hread⟩ := readSlot_ok.mp hslot
  have hraw : bufBytes s = r.raw := Except.ok.inj (hb.frameBytes.symm.trans hr.raw)
  rw [carveFields_of_bufWf hb hread (by unfold flen at hflen; omega), hraw] at hm
  cases hm
  refine ⟨d, h, hd, ?_, ?_, hhdr, hid, hpay⟩
  · rw [← hraw, ← hread, Memory.read_range hb 0, bufBytes]
  · rw [frameBytes_length hr.raw, hflen]

/-- The record of a frame for which no definition, or more than one, has survived (R144 rows 3 and 4). -/
theorem frameRecord_of_failRecord {c : FailCause} {s : State} {r : OutputRecord}
    (hc : c = .noMatchingDefinition ∨ c = .ambiguousDefinition) (h : failRecord s c = .ok r) :
    FrameRecord s r ∧ r.defIdx = none := by
  have hwf := (failRecord_spec h).1
  rcases hc with rfl | rfl
  all_goals
    obtain ⟨⟨f, bs⟩, hp, rfl⟩ := map_ok h
    obtain ⟨hf, hb⟩ := readFrame_ok.mp hp
    exact ⟨⟨hwf, hf.symm, hb, fun e => (nomatch e), fun i hi => nomatch hi⟩, rfl⟩

/-! ### How a byte ends -/

/-- The decode ends with record `r` (R109): it is produced, the working state is clear, and `st` and `fr` say which
outcome it was. -/
structure Concludes (s t : State) (r : OutputRecord) : Prop where
  produced : Produced r s t
  clear : WorkClear t
  outcome : (t.st = .emit ∧ r.ok = true) ∨ (t.st = .fail ∧ r.ok = false ∧ t.fr = r.reason)

theorem Ends.concludes {s t : State} {r : OutputRecord} (e : Ends s t r) : Concludes s t r :=
  ⟨e.produced, e.clear, e.outcome.imp (fun ⟨ok, st, _⟩ => ⟨st, ok⟩) (fun ⟨ok, st, fr, _⟩ => ⟨st, ok, fr⟩)⟩

/-- `st` is a Waiting state inside a frame. -/
def AwaitsFrameByte (s : State) : Prop :=
  s.st = .waitingForHeader ∨ s.st = .waitingForIdentifier ∨ s.st = .waitingForData

/-- The two ways a byte ends (R109): no record and a frame byte awaited, or the decode ended with a record as `P` says. -/
def ByteOutcome (P : OutputRecord → Prop) (s t : State) : Prop :=
  (NoRecord s t ∧ AwaitsFrameByte t) ∨ ∃ r, Concludes s t r ∧ P r

theorem ByteOutcome.imp {P Q : OutputRecord → Prop} {s t : State} (h : ByteOutcome P s t) (hPQ : ∀ r, P r → Q r) :
    ByteOutcome Q s t :=
  Or.imp id (fun ⟨r, hc, hp⟩ => ⟨r, hc, hPQ r hp⟩) h

/-- Writes of the working registers before the operation do not show in the outcome. -/
theorem ByteOutcome.afterWork {P : OutputRecord → Prop} {s t : State} {cf : Option CallFrame} {fr : Option FailReason}
    {cand : List Nat} {buf : Memory} {len need : Count}
    (h : ByteOutcome P { s with cf := cf, fr := fr, cand := cand, buf := buf, len := len, need := need } t) :
    ByteOutcome P s t :=
  Or.imp id (fun ⟨r, hc, hp⟩ => ⟨r, ⟨hc.produced, hc.clear, hc.outcome⟩, hp⟩) h

theorem raiseFail_outcome {c : FailCause} {s t : State} (hc : c = .noMatchingDefinition ∨ c = .ambiguousDefinition)
    (h : raiseFail c s = .next t) : ∃ r, Concludes s t r ∧ FullRecord s r := by
  obtain ⟨r, hr, e⟩ := raiseFail_ends h
  obtain ⟨hf, hd⟩ := frameRecord_of_failRecord hc hr
  exact ⟨r, e.concludes, hf.full_of_unnamed hd⟩

/-- The end of `process()` on a survivor (R105): either way the record names it with its carved fields. -/
theorem judgeMessage_outcome {i : Nat} {s t : State} (hi : i ∈ s.cand) (h : judgeMessage i s = .next t) :
    ∃ r, Concludes s t r ∧ FrameRecord s r := by
  obtain ⟨d, m, hd, hm, ⟨h, -⟩ | ⟨h, -, -⟩⟩ := judgeMessage_next h
  · obtain ⟨f, bs, hf, hb, rfl⟩ := messageOutcome_next h
    have hwf := messageRecord_wf f i m bs
    refine ⟨_, (emitOutcome_ends s hwf rfl).concludes, hwf, hf.symm, hb, fun _ => nofun, fun j hj => ?_⟩
    cases hj
    exact ⟨hi, d, m, hd, hm, rfl, rfl, rfl⟩
  · obtain ⟨r, hr, e⟩ := raiseFail_ends h
    obtain ⟨⟨f, bs⟩, hp, rfl⟩ := map_ok hr
    obtain ⟨hf, hb⟩ := readFrame_ok.mp hp
    refine ⟨_, e.concludes, e.record, hf.symm, hb, fun ok => (nomatch ok), fun j hj => ?_⟩
    cases hj
    exact ⟨hi, d, m, hd, hm, rfl, rfl, rfl⟩

theorem processFrame_outcome {s t : State} (h : processFrame s = .next t) :
    ∃ r, Concludes s t r ∧ FrameRecord s r := by
  have hsub := versionSet_sublist s.cat s.ver s.cand
  have lift : ∀ {r}, Concludes { s with st := .processingData, cand := versionSet s.cat s.ver s.cand } t r →
      FrameRecord { s with st := .processingData, cand := versionSet s.cat s.ver s.cand } r →
      ∃ r, Concludes s t r ∧ FrameRecord s r :=
    fun hc hr => ⟨_, ⟨hc.produced, hc.clear, hc.outcome⟩, hr.widen hsub⟩
  unfold processFrame at h
  simp only at h
  split at h
  · obtain ⟨r, hc, hr⟩ := raiseFail_outcome (.inl rfl) h
    exact lift hc hr.toFrameRecord
  · obtain ⟨r, hc, hr⟩ := raiseFail_outcome (.inr rfl) h
    exact lift hc hr.toFrameRecord
  · rename_i i hfin
    obtain ⟨r, hc, hr⟩ := judgeMessage_outcome (by simp [finalizeSet_unique.mp hfin]) h
    exact lift hc hr

theorem commitLength_outcome {n : Nat} {k : Byte} {s t : State} (hslot : readSlot s 0 = .ok k)
    (hl : EverySurvivor s (fun d => flen d k = n)) (h : commitLength n s = .next t) :
    ByteOutcome (FullRecord s) s t := by
  unfold commitLength at h
  split_ifs at h with hshort hfull
  · exact .inr (raiseFail_outcome (.inl rfl) h)
  · obtain ⟨r, hc, hr⟩ := processFrame_outcome h
    exact .inr ⟨r, hc, hr.full_of_survivors (hl.imp fun d hlen => ⟨k, hslot, hlen.trans hfull⟩)⟩
  · cases h
    exact .inl ⟨⟨rfl, rfl⟩, .inr (.inr rfl)⟩

theorem enterDataPhase_outcome {s t : State} (h : enterDataPhase s = .next t) : ByteOutcome (FullRecord s) s t := by
  have filtered : ByteOutcome (FullRecord { s with cand := versionSet s.cat s.ver s.cand })
      { s with cand := versionSet s.cat s.ver s.cand } t → ByteOutcome (FullRecord s) s t :=
    fun o => o.afterWork.imp fun r hr => hr.widen (versionSet_sublist _ _ _)
  obtain ⟨k, hslot, h⟩ := withRead_next h
  split at h
  · exact .inr (raiseFail_outcome (.inl rfl) h)
  · rename_i n ha
    exact commitLength_outcome hslot (everySurvivor_of_agreement ha).2 h
  · simp only at h
    split at h
    · exact filtered (.inr (raiseFail_outcome (.inl rfl) h))
    · exact filtered (.inr (raiseFail_outcome (.inr rfl) h))
    · rename_i n ha
      exact filtered (commitLength_outcome hslot
        (everySurvivor_of_agreement (s := { s with cand := versionSet s.cat s.ver s.cand }) ha).2 h)

theorem takeHeader_outcome {b : Byte} {s t : State} (h : takeHeader b s = .next t) :
    ByteOutcome (FullRecord { s with buf := s.buf.write 0 b, len := 1, cand := headerSet s.cat b s.cand }) s t := by
  obtain ⟨s1, rfl, ⟨-, h⟩ | ⟨-, -, rfl⟩ | ⟨-, -, h⟩⟩ := takeHeader_next h
  · exact ByteOutcome.afterWork (.inr (raiseFail_outcome (.inl rfl) h))
  · exact .inl ⟨⟨rfl, rfl⟩, .inr (.inl rfl)⟩
  · exact (enterDataPhase_outcome h).afterWork

theorem takeIdentifier_outcome {b : Byte} {s t : State} (h : takeIdentifier b s = .next t) :
    ByteOutcome (FullRecord { s with buf := s.buf.write 1 b, len := 2, cand := identifierSet s.cat b s.cand }) s t := by
  obtain ⟨s1, rfl, ⟨-, h⟩ | ⟨-, h⟩⟩ := takeIdentifier_next h
  · exact ByteOutcome.afterWork (.inr (raiseFail_outcome (.inl rfl) h))
  · exact (enterDataPhase_outcome h).afterWork

/-- As an instruction `data_step` runs from every state; it leaves `st` alone until `need` reaches 0 (R104). -/
theorem takeData_outcome {b : Byte} {s t : State} (h : takeData b s = .next t) :
    (NoRecord s t ∧ t.st = s.st) ∨ (s.need - 1 = 0 ∧ ∃ r, Concludes s t r ∧ FrameRecord { s with
      buf := s.buf.write s.len.toNat b, len := BitVec.ofNat 5 (s.len.toNat + 1), need := s.need - 1 } r) := by
  obtain ⟨-, s1, rfl, ⟨hlast, h⟩ | ⟨-, rfl⟩⟩ := takeData_next h
  · obtain ⟨r, hc, hr⟩ := processFrame_outcome h
    exact .inr ⟨hlast, r, ⟨hc.produced, hc.clear, hc.outcome⟩, hr⟩
  · exact .inl ⟨⟨rfl, rfl⟩, rfl⟩

theorem callOnlyRecord_spec (f : CallFrame) : CallRecord f.raw f.ts (callOnlyRecord f) :=
  ⟨callOnlyRecord_wf f, rfl, rfl, rfl, rfl⟩

theorem acceptCall_outcome {f : CallFrame} {s t : State} (h : acceptCall f s = .next t) :
    ByteOutcome (CallRecord f.raw f.ts) s t := by
  rcases acceptCall_next h with ⟨-, rfl⟩ | ⟨-, rfl⟩
  · exact ByteOutcome.afterWork
      (.inr ⟨_, (emitOutcome_ends (beginDecode f s) (callOnlyRecord_wf f) rfl).concludes, callOnlyRecord_spec f⟩)
  · exact .inl ⟨⟨rfl, rfl⟩, .inl rfl⟩

theorem rejectCall_outcome {c : FailCause} {b : Byte} {x : Timestamp} {s t : State}
    (hc : c = .parityError b x ∨ c = .unclassifiedCallError b x) (h : rejectCall c s = .next t) :
    ByteOutcome (CallRecord b x) s t := by
  obtain ⟨r, hr, e⟩ := raiseFail_ends h
  have hcall : CallRecord b x r := by
    rcases hc with rfl | rfl
    all_goals
      cases hr
      exact ⟨e.record, rfl, rfl, rfl, rfl⟩
  exact ByteOutcome.afterWork (.inr ⟨r, e.concludes, hcall⟩)

theorem takeCall_outcome {b : Byte} {x : Timestamp} {s t : State} (h : takeCall b x s = .next t) :
    ByteOutcome (CallRecord b x) s t := by
  unfold takeCall at h
  split at h
  · rename_i f hf
    obtain ⟨hraw, hts, -, -⟩ := classifyCall_frame hf
    exact hraw ▸ hts ▸ acceptCall_outcome h
  · exact rejectCall_outcome (.inl rfl) h
  · exact rejectCall_outcome (.inr rfl) h

/-! ### The values of a byte's record -/

theorem BufWf.bufBytes_write {s : State} (h : BufWf s) {a : Nat} (b : Byte) (ha : s.len.toNat = a) :
    (s.buf.write a b).map (fun c => c.2) = bufBytes s ++ [b] := by
  subst ha
  rw [Memory.write_append h, List.map_append]
  rfl

theorem CallRecord.recordOfByte {b : Byte} {x : Timestamp} {s : State} {r : OutputRecord} (h : CallRecord b x r)
    (hs : AtCall s) : RecordOfByte b x s r where
  atCall := fun _ => ⟨h.callRaw, h.callTs, h.unnamed, h.raw⟩
  later := fun hn => absurd hs hn
  carved := fun i hi => by simp [h.unnamed] at hi

/-- `s1` is `s` with the byte stored. -/
theorem FullRecord.recordOfByte {b : Byte} {x : Timestamp} {s s1 : State} {r : OutputRecord} (h : FullRecord s1 r)
    (hs : ¬ AtCall s) (hb : BufWf s1) (hcf : s1.cf = s.cf) (hcat : s1.cat = s.cat)
    (hbytes : bufBytes s1 = bufBytes s ++ [b]) : RecordOfByte b x s r where
  atCall := fun hc => absurd hc hs
  later := fun _ => ⟨h.cf.trans hcf, (Except.ok.inj (h.raw.symm.trans hb.frameBytes)).trans hbytes, h.named⟩
  carved := fun _ hi => hcat ▸ h.carved_of_bufWf hb hi

/-- The record of the last byte of the data phase: in the row WaitingForData of R24 every survivor's length is
`len + need`. -/
theorem StateInv.takeData_recordOfByte {s t : State} (h : StateInv s) (hst : s.st = .waitingForData) {b : Byte}
    (x : Timestamp) (ht : takeData b s = .next t) : ByteOutcome (RecordOfByte b x s) s t := by
  obtain ⟨-, -, hle, hneed, -, -, hl⟩ := h.table.data hst
  have hlt : s.len.toNat < bufCap := by simp only [bufCap]; omega
  have hlen := toNat_count hlt
  have hb := h.bufWf.write (b := b) rfl hlt
  rcases takeData_outcome ht with ⟨no, hst'⟩ | ⟨hlast, r, hc, hr⟩
  · exact .inl ⟨no, .inr (.inr (hst'.trans hst))⟩
  · have full := hr.full_of_survivors (EverySurvivor.imp hl fun d ⟨k, hk, hf⟩ => ⟨k, ?_, ?_⟩)
    · exact .inr ⟨r, hc,
        full.recordOfByte (by simp [AtCall, hst]) hb rfl rfl (h.bufWf.bufBytes_write b rfl)⟩
    · exact readSlot_ok.mpr ⟨by simp only [hlen]; omega, h.bufWf.read_write rfl hk⟩
    · have hone : s.need.toNat = 1 := by bv_omega
      simp only [hlen]
      omega

/-- A byte in any state that meets the invariant ends as R109 says, and its record holds the values of R20's table. -/
theorem execByte_outcome {b : Byte} {x : Timestamp} {s t : State} (h : StateInv s) (ht : execByte b x s = .next t) :
    ByteOutcome (RecordOfByte b x s) s t := by
  unfold execByte at ht
  split at ht <;> rename_i hst
  · exact (takeCall_outcome ht).imp fun r hr => hr.recordOfByte (.inl hst)
  · exact (takeCall_outcome ht).imp fun r hr => hr.recordOfByte (.inr (.inl hst))
  · exact (takeCall_outcome ht).imp fun r hr => hr.recordOfByte (.inr (.inr hst))
  · obtain ⟨-, -, -, hlen, -, -⟩ := h.table.header hst
    exact (takeHeader_outcome ht).imp fun r hr => hr.recordOfByte (by simp [AtCall, hst])
      (h.midFrame_header hst b).bufWf rfl rfl (h.bufWf.bufBytes_write b (by simp [hlen]))
  · obtain ⟨-, hlen, -⟩ := h.table.identifier hst
    have ha : s.len.toNat = 1 := by simp [hlen]
    exact (takeIdentifier_outcome ht).imp fun r hr => hr.recordOfByte (by simp [AtCall, hst])
      (h.bufWf.write ha (by decide)) rfl rfl (h.bufWf.bufBytes_write b ha)
  · exact h.takeData_recordOfByte hst x ht
  · cases ht

/-- Settles O53: `execByte_outcome`, and `fr` is clear in Emit because the invariant holds again. -/
theorem byteProducesRecordExactlyAtOutcome : Obligations.ByteProducesRecordExactlyAtOutcome := by
  intro b x s u h hu
  obtain ⟨u', hu', inv⟩ := execByte_lands h b x
  cases hu.symm.trans hu'
  rcases execByte_outcome h hu with waiting | ⟨r, hc, -⟩
  · exact .inr waiting
  · exact .inl ⟨r, hc.produced, hc.clear,
      hc.outcome.imp (fun ⟨st, ok⟩ => ⟨st, ok, inv.fr_none (by simp [st])⟩) id⟩

/-! ### What every instruction leaves unchanged, and the records it can produce -/

/-- No record, or one that `P` holds of. -/
def MayRecord (P : OutputRecord → Prop) (s t : State) : Prop :=
  NoRecord s t ∨ ∃ r, Produced r s t ∧ P r

theorem ByteOutcome.mayRecord {P Q : OutputRecord → Prop} {s t : State} (h : ByteOutcome P s t)
    (hPQ : ∀ r, P r → Q r) : MayRecord Q s t :=
  Or.imp And.left (fun ⟨r, hc, hp⟩ => ⟨r, hc.produced, hPQ r hp⟩) h

/-- What R20's table asks of a record that instruction `i` produces in `s`. -/
def RecordOf (i : Instr) (s : State) (r : OutputRecord) : Prop :=
  RecordWf r ∧ (i.wellFormed = true → s.len.toNat ≤ bufCap → Bounded r)

theorem CallRecord.recordOf {b : Byte} {x : Timestamp} {r : OutputRecord} (h : CallRecord b x r) (i : Instr) (s : State) :
    RecordOf i s r :=
  ⟨h.wf, fun _ _ => h.bounded⟩

/-- What every instruction does to the part of the state no decode works on. -/
structure InstrFrame (i : Instr) (s t : State) : Prop where
  machine : SameMachine s t
  inp : t.inp = s.inp
  ver : t.ver = s.ver ∨ (∃ v, i = .ver v ∧ t.ver = v) ∨ (i = .reset ∧ t.ver = s.verInit)
  records : MayRecord (RecordOf i s) s t

theorem ByteFrame.instrFrame {i : Instr} {s t : State} (h : ByteFrame s t) (hr : MayRecord (RecordOf i s) s t) :
    InstrFrame i s t :=
  ⟨h.machine, h.interface.1, .inl h.ver, hr⟩

theorem acceptCall_instrFrame {i : Instr} {f : CallFrame} {s t : State} (h : acceptCall f s = .next t) :
    InstrFrame i s t :=
  (acceptCall_frame h).instrFrame ((acceptCall_outcome h).mayRecord fun _ hr => hr.recordOf i s)

theorem rejectCall_instrFrame {i : Instr} {c : FailCause} {b : Byte} {x : Timestamp} {s t : State}
    (hc : c = .parityError b x ∨ c = .unclassifiedCallError b x) (h : rejectCall c s = .next t) : InstrFrame i s t :=
  (rejectCall_frame h).instrFrame ((rejectCall_outcome hc h).mayRecord fun _ hr => hr.recordOf i s)

theorem takeCall_instrFrame {i : Instr} {b : Byte} {x : Timestamp} {s t : State} (h : takeCall b x s = .next t) :
    InstrFrame i s t :=
  (takeCall_frame h).instrFrame ((takeCall_outcome h).mayRecord fun _ hr => hr.recordOf i s)

theorem takeHeader_instrFrame {i : Instr} {b : Byte} {s t : State} (h : takeHeader b s = .next t) : InstrFrame i s t :=
  (takeHeader_frame h).instrFrame
    ((takeHeader_outcome h).mayRecord fun _ hr => ⟨hr.wf, fun _ _ => hr.bounded (by decide : 1 ≤ bufCap)⟩)

theorem takeIdentifier_instrFrame {i : Instr} {b : Byte} {s t : State} (h : takeIdentifier b s = .next t) :
    InstrFrame i s t :=
  (takeIdentifier_frame h).instrFrame
    ((takeIdentifier_outcome h).mayRecord fun _ hr => ⟨hr.wf, fun _ _ => hr.bounded (by decide : 2 ≤ bufCap)⟩)

theorem enterDataPhase_instrFrame {i : Instr} {s t : State} (h : enterDataPhase s = .next t) : InstrFrame i s t :=
  (enterDataPhase_frame h).instrFrame ((enterDataPhase_outcome h).mayRecord fun _ hr => ⟨hr.wf, fun _ => hr.bounded⟩)

/-- The store of `data_step` fails at `BUFCAP`, so `len` stays within it whatever it was (R30). -/
theorem takeData_instrFrame {i : Instr} {b : Byte} {s t : State} (h : takeData b s = .next t) : InstrFrame i s t := by
  refine (takeData_frame h).instrFrame ?_
  obtain ⟨hlt, -⟩ := takeData_next h
  rcases takeData_outcome h with ⟨no, -⟩ | ⟨-, r, hc, hr⟩
  · exact .inl no
  · exact .inr ⟨r, hc.produced, hr.wf, fun _ _ => hr.bounded ((toNat_count hlt).trans_le hlt)⟩

theorem processFrame_instrFrame {i : Instr} {s t : State} (h : processFrame s = .next t) : InstrFrame i s t := by
  obtain ⟨_, e⟩ := processFrame_ends h
  obtain ⟨r, hc, hr⟩ := processFrame_outcome h
  exact e.byteFrame.instrFrame (.inr ⟨r, hc.produced, hr.wf, fun _ => hr.bounded⟩)

theorem callOnlyOutcome_instrFrame {i : Instr} {s t : State} (h : callOnlyOutcome s = .next t) : InstrFrame i s t := by
  obtain ⟨f, -, rfl⟩ := callOnlyOutcome_next h
  have e := emitOutcome_ends s (callOnlyRecord_wf f) rfl
  exact e.byteFrame.instrFrame (.inr ⟨_, e.produced, (callOnlyRecord_spec f).recordOf i s⟩)

/-- `emit_message` takes its fields as operands: their bound is that of a well-formed instruction. -/
theorem messageOutcome_instrFrame {i : Nat} {m : Carved} {s t : State} (h : messageOutcome i m s = .next t) :
    InstrFrame (.emitMessage i m) s t := by
  obtain ⟨f, bs, -, hb, rfl⟩ := messageOutcome_next h
  have hwf := messageRecord_wf f i m bs
  have e := emitOutcome_ends s hwf rfl
  exact e.byteFrame.instrFrame (.inr ⟨_, e.produced, hwf, fun hi hl =>
    ⟨of_decide_eq_true hi, (frameBytes_length hb).trans_le hl⟩⟩)

/-- The record a failure entry forms is bounded where its cause's payload is. -/
theorem failRecord_bounded {c : FailCause} {s : State} {r : OutputRecord} (h : failRecord s c = .ok r)
    (hc : c.wellFormed = true) (hl : s.len.toNat ≤ bufCap) : Bounded r := by
  cases c with
  | parityError b x => cases h; exact ⟨Nat.zero_le _, Nat.zero_le _⟩
  | unclassifiedCallError b x => cases h; exact ⟨Nat.zero_le _, Nat.zero_le _⟩
  | noMatchingDefinition => exact (frameRecord_of_failRecord (.inl rfl) h).1.bounded hl
  | ambiguousDefinition => exact (frameRecord_of_failRecord (.inr rfl) h).1.bounded hl
  | checksumError i m =>
    obtain ⟨⟨f, bs⟩, hp, rfl⟩ := map_ok h
    obtain ⟨-, hb⟩ := readFrame_ok.mp hp
    exact ⟨of_decide_eq_true hc, (frameBytes_length hb).trans_le hl⟩

theorem raiseFail_instrFrame {c : FailCause} {s t : State} (h : raiseFail c s = .next t) :
    InstrFrame (.raiseFail c) s t := by
  obtain ⟨r, hr, e⟩ := raiseFail_ends h
  exact e.byteFrame.instrFrame (.inr ⟨r, e.produced, e.record, failRecord_bounded hr⟩)

/-- An instruction that writes working registers, `st`, `fr` or `ret` alone. -/
theorem instrFrame_of_work (i : Instr) (s : State) (x : AsmState) (fr : Option FailReason) (cf : Option CallFrame)
    (cand : List Nat) (buf : Memory) (len need : Count) (ret : Option Returned) :
    InstrFrame i s { s with
      st := x, fr := fr, cf := cf, cand := cand, buf := buf, len := len, need := need, ret := ret } :=
  ⟨⟨rfl, rfl, rfl⟩, rfl, .inl rfl, .inl ⟨rfl, rfl⟩⟩

theorem unknownOutcome_instrFrame {i : Instr} {s t : State} (h : unknownOutcome s = .next t) : InstrFrame i s t := by
  rcases unknownOutcome_next h with ⟨-, h⟩ | ⟨-, rfl⟩
  · exact callOnlyOutcome_instrFrame h
  · exact instrFrame_of_work i s _ _ _ _ _ _ _ _

theorem execByte_instrFrame {i : Instr} {b : Byte} {x : Timestamp} {s t : State} (h : execByte b x s = .next t) :
    InstrFrame i s t := by
  unfold execByte at h
  split at h
  · exact takeCall_instrFrame h
  · exact takeCall_instrFrame h
  · exact takeCall_instrFrame h
  · exact takeHeader_instrFrame h
  · exact takeIdentifier_instrFrame h
  · exact takeData_instrFrame h
  · cases h

/-- The frame of every instruction, row by row of the opcode table. -/
theorem exec_instrFrame {i : Instr} {s t : State} (h : exec i s = .next t) : InstrFrame i s t := by
  cases i with
  | sendRequest | requestResend | broadcastFeedbackPoll | framedMessageBcast | framedMessageAddr | unknown =>
    simp only [exec] at h
    exact acceptCall_instrFrame h
  | parityError => exact rejectCall_instrFrame (.inl rfl) h
  | unclassifiedCallError => exact rejectCall_instrFrame (.inr rfl) h
  | callStep => exact takeCall_instrFrame h
  | emitCallOnly => exact callOnlyOutcome_instrFrame h
  | unknownCall => exact unknownOutcome_instrFrame h
  | headerStep => exact takeHeader_instrFrame h
  | identifierStep => exact takeIdentifier_instrFrame h
  | enterData => exact enterDataPhase_instrFrame h
  | dataStep => exact takeData_instrFrame h
  | process => exact processFrame_instrFrame h
  | emitMessage => exact messageOutcome_instrFrame h
  | raiseFail => exact raiseFail_instrFrame h
  | byte => exact execByte_instrFrame h
  | parityValid | classify | framedCall | clearWork | applyHeader | applyIdentifier | applyVersion | finalize
  | discard =>
    cases h
    exact instrFrame_of_work _ s _ _ _ _ _ _ _ _
  | seed | checksumOk =>
    obtain ⟨_, -, h⟩ := withRead_next h
    cases h
    exact instrFrame_of_work _ s _ _ _ _ _ _ _ _
  | carve =>
    obtain ⟨_, -, h⟩ := withRead_next h
    obtain ⟨_, -, h⟩ := withRead_next h
    cases h
    exact instrFrame_of_work _ s _ _ _ _ _ _ _ _
  | ver v =>
    cases h
    exact ⟨⟨rfl, rfl, rfl⟩, rfl, .inr (.inl ⟨v, rfl, rfl⟩), .inl ⟨rfl, rfl⟩⟩
  | reset =>
    cases h
    exact ⟨⟨rfl, rfl, rfl⟩, rfl, .inr (.inr ⟨rfl, rfl⟩), .inl ⟨rfl, rfl⟩⟩

/-- Settles O55: the first three fields of every instruction's frame. -/
theorem onlyVersionWriteAndResetChangeVersion : Obligations.OnlyVersionWriteAndResetChangeVersion := by
  intro i s t h
  have frame := exec_instrFrame h
  exact ⟨frame.machine, frame.inp, frame.ver⟩

theorem NoRecord.not_produced {s t : State} {r : OutputRecord} (h : NoRecord s t) : ¬ Produced r s t := by
  rintro ⟨-, hlog⟩
  simp [h.2] at hlog

/-- Settles O54: the records of every instruction's frame, and those of a byte by `execByte_outcome`. -/
theorem everyRecordIsWellFormed : Obligations.EveryRecordIsWellFormed := by
  refine ⟨fun i s t h => (exec_instrFrame h).records, fun b x s u r h hu hr => ?_⟩
  rcases execByte_outcome h hu with ⟨no, -⟩ | ⟨r', hc, hr'⟩
  · exact absurd hr no.not_produced
  · cases hr.1.symm.trans hc.produced.1
    exact hr'

end Sys2Proof.Machine

/-! PROOFS. The memory family (O59, O58, O57): what the catalog and the frame buffer say of a message. The parts, in order:
the frame lengths of a well-formed catalog; the dispatch on a byte; the canonical form of the buffer under every
instruction; what the definition a record names matches; the two conditions checked last, version and checksum; the one
byte of a step that can produce a record. -/

namespace Sys2Proof

/-! ### Frame lengths of a well-formed catalog (spec/20_memory.md R32) -/

theorem Catalog.entryWf_of_mem {c : Catalog} {d : MessageDefinition} (hd : d ∈ c.entries) : entryWf d = true := by
  obtain ⟨i, hi⟩ := List.mem_iff_getElem?.mp hd
  exact Catalog.entryWf_of_getElem hi

/-- WF7: an entry with a header ends in a checksum byte. -/
theorem cklen_of_header {d : MessageDefinition} (hw : entryWf d = true) (hh : d.header ≠ none) : cklen d = 1 := by
  obtain ⟨k, hk⟩ := Option.ne_none_iff_exists'.mp hh
  simp only [entryWf, Bool.and_eq_true] at hw
  obtain ⟨⟨-, h7⟩, -⟩ := hw
  have hck : d.requiresChecksum = true := by simpa [wf7, hk] using h7
  simp [cklen, hck]

/-- WF8: an entry of type code 3 has a header. -/
theorem header_of_framed {d : MessageDefinition} (hw : entryWf d = true) (ht : d.cbp.type = 3) : d.header ≠ none := by
  simp only [entryWf, Bool.and_eq_true] at hw
  obtain ⟨-, h8⟩ := hw
  simpa [wf8, ht, Option.isSome_iff_ne_none] using h8

theorem patMatch_type {d : MessageDefinition} {f : CallFrame} (h : patMatch d f = true) : d.cbp.type = tc f.raw := by
  simp only [patMatch, Bool.and_eq_true, beq_iff_eq] at h
  obtain ⟨⟨htype, -⟩, -⟩ := h
  exact htype

/-- A frame of one byte leaves no room for an identifier (R50). -/
theorem identifier_none_of_flen {d : MessageDefinition} {h : Byte} (hl : flen d h = 1) : d.identifier = none := by
  by_contra hid
  have hone : idlen d = 1 := by simp [idlen, Option.isSome_iff_ne_none.mpr hid]
  unfold flen at hl
  omega

end Sys2Proof

namespace Sys2Proof.Machine

/-- Settles O59: the header and checksum bytes give the lower bounds, WF3 the upper one, WF8 the header. -/
theorem frameLengthBounds : Obligations.FrameLengthBounds := by
  intro c d h hd
  have hw := Catalog.entryWf_of_mem hd
  refine ⟨by unfold flen; omega, flen_le_bufCap hw h, fun hh => ?_, fun f hf hp => ?_⟩
  · have := cklen_of_header hw hh
    unfold flen
    omega
  · exact header_of_framed hw ((patMatch_type hp).trans hf)

/-! ### The dispatch on a byte (spec/42_frame_assembler.md R96) -/

/-- What a byte's step can be, by `st`. -/
theorem execByte_next {b : Byte} {x : Timestamp} {s t : State} (h : execByte b x s = .next t) :
    takeCall b x s = .next t ∨ (s.st = .waitingForHeader ∧ takeHeader b s = .next t)
      ∨ (s.st = .waitingForIdentifier ∧ takeIdentifier b s = .next t)
      ∨ (s.st = .waitingForData ∧ takeData b s = .next t) := by
  unfold execByte at h
  split at h
  · exact .inl h
  · exact .inl h
  · exact .inl h
  · exact .inr (.inl ⟨‹_›, h⟩)
  · exact .inr (.inr (.inl ⟨‹_›, h⟩))
  · exact .inr (.inr (.inr ⟨‹_›, h⟩))
  · cases h

/-! ### The canonical form of the buffer (spec/20_memory.md R30, R35) -/

theorem WorkClear.memory_wf {t : State} (h : WorkClear t) : t.buf.wf := by
  obtain ⟨-, -, hbuf, -, -⟩ := h
  exact hbuf ▸ Memory.nil_wf

theorem raiseFail_memory_wf {c : FailCause} {s t : State} (h : raiseFail c s = .next t) : t.buf.wf := by
  obtain ⟨r, -, e⟩ := raiseFail_ends h
  exact e.clear.memory_wf

theorem processFrame_memory_wf {s t : State} (h : processFrame s = .next t) : t.buf.wf := by
  obtain ⟨r, e⟩ := processFrame_ends h
  exact e.clear.memory_wf

theorem callOnlyOutcome_memory_wf {s t : State} (h : callOnlyOutcome s = .next t) : t.buf.wf := by
  obtain ⟨f, -, rfl⟩ := callOnlyOutcome_next h
  exact Memory.nil_wf

theorem messageOutcome_memory_wf {i : Nat} {m : Carved} {s t : State} (h : messageOutcome i m s = .next t) :
    t.buf.wf := by
  obtain ⟨f, bs, -, -, rfl⟩ := messageOutcome_next h
  exact Memory.nil_wf

theorem unknownOutcome_memory_wf {s t : State} (hs : s.buf.wf) (h : unknownOutcome s = .next t) : t.buf.wf := by
  rcases unknownOutcome_next h with ⟨-, h⟩ | ⟨-, rfl⟩
  · exact callOnlyOutcome_memory_wf h
  · exact hs

/-- A call byte starts on an empty buffer (R97). -/
theorem acceptCall_memory_wf {f : CallFrame} {s t : State} (h : acceptCall f s = .next t) : t.buf.wf := by
  rcases acceptCall_next h with ⟨-, rfl⟩ | ⟨-, rfl⟩
  · exact Memory.nil_wf
  · exact Memory.nil_wf

theorem rejectCall_memory_wf {c : FailCause} {s t : State} (h : rejectCall c s = .next t) : t.buf.wf :=
  raiseFail_memory_wf h

theorem takeCall_memory_wf {b : Byte} {x : Timestamp} {s t : State} (h : takeCall b x s = .next t) : t.buf.wf := by
  unfold takeCall at h
  split at h
  · exact acceptCall_memory_wf h
  · exact rejectCall_memory_wf h
  · exact rejectCall_memory_wf h

theorem enterDataPhase_memory_wf {s t : State} (hs : s.buf.wf) (h : enterDataPhase s = .next t) : t.buf.wf := by
  rcases enterDataPhase_next h with ⟨r, e⟩ | ⟨_, _, _, -, -, -, -, rfl⟩
  · exact e.clear.memory_wf
  · exact hs

theorem takeHeader_memory_wf {b : Byte} {s t : State} (hs : s.buf.wf) (h : takeHeader b s = .next t) : t.buf.wf := by
  have hw : (s.buf.write 0 b).wf := Memory.write_wf hs (by decide)
  obtain ⟨s1, rfl, ⟨-, h⟩ | ⟨-, -, rfl⟩ | ⟨-, -, h⟩⟩ := takeHeader_next h
  · exact raiseFail_memory_wf h
  · exact hw
  · exact enterDataPhase_memory_wf hw h

theorem takeIdentifier_memory_wf {b : Byte} {s t : State} (hs : s.buf.wf) (h : takeIdentifier b s = .next t) :
    t.buf.wf := by
  have hw : (s.buf.write 1 b).wf := Memory.write_wf hs (by decide)
  obtain ⟨s1, rfl, ⟨-, h⟩ | ⟨-, h⟩⟩ := takeIdentifier_next h
  · exact raiseFail_memory_wf h
  · exact enterDataPhase_memory_wf hw h

/-- The store of `data_step` is at `len`, which the step requires to be a slot. -/
theorem takeData_memory_wf {b : Byte} {s t : State} (hs : s.buf.wf) (h : takeData b s = .next t) : t.buf.wf := by
  obtain ⟨hlt, s1, rfl, ⟨-, h⟩ | ⟨-, rfl⟩⟩ := takeData_next h
  · exact processFrame_memory_wf h
  · exact Memory.write_wf hs hlt

theorem execByte_memory_wf {b : Byte} {x : Timestamp} {s t : State} (hs : s.buf.wf) (h : execByte b x s = .next t) :
    t.buf.wf := by
  rcases execByte_next h with h | ⟨-, h⟩ | ⟨-, h⟩ | ⟨-, h⟩
  · exact takeCall_memory_wf h
  · exact takeHeader_memory_wf hs h
  · exact takeIdentifier_memory_wf hs h
  · exact takeData_memory_wf hs h

/-- Row by row of the opcode table: an instruction stores at a slot that exists, empties the buffer, or leaves it. -/
theorem exec_memory_wf {i : Instr} {s t : State} (hs : s.buf.wf) (h : exec i s = .next t) : t.buf.wf := by
  cases i with
  | sendRequest | requestResend | broadcastFeedbackPoll | framedMessageBcast | framedMessageAddr | unknown =>
    simp only [exec] at h
    exact acceptCall_memory_wf h
  | parityError | unclassifiedCallError =>
    simp only [exec] at h
    exact rejectCall_memory_wf h
  | raiseFail => exact raiseFail_memory_wf h
  | callStep => exact takeCall_memory_wf h
  | emitCallOnly => exact callOnlyOutcome_memory_wf h
  | unknownCall => exact unknownOutcome_memory_wf hs h
  | headerStep => exact takeHeader_memory_wf hs h
  | identifierStep => exact takeIdentifier_memory_wf hs h
  | enterData => exact enterDataPhase_memory_wf hs h
  | dataStep => exact takeData_memory_wf hs h
  | process => exact processFrame_memory_wf h
  | emitMessage => exact messageOutcome_memory_wf h
  | byte => exact execByte_memory_wf hs h
  | clearWork | discard | reset =>
    cases h
    exact Memory.nil_wf
  | parityValid | classify | framedCall | applyHeader | applyIdentifier | applyVersion | finalize | ver =>
    cases h
    exact hs
  | seed | checksumOk =>
    obtain ⟨_, -, h⟩ := withRead_next h
    cases h
    exact hs
  | carve =>
    obtain ⟨_, -, h⟩ := withRead_next h
    obtain ⟨_, -, h⟩ := withRead_next h
    cases h
    exact hs

/-- Settles O58. -/
theorem frameBufferKeepsCanonicalForm : Obligations.FrameBufferKeepsCanonicalForm :=
  ⟨reset_memory_wf, fun _ _ _ => exec_memory_wf⟩

/-! ### What the definition a record names matches (spec/10_state.md R15) -/

/-- A definition that `r` names matches the record's own call byte, header and, if it has an identifier, identifier
byte. -/
def NamesMatching (c : Catalog) (r : OutputRecord) : Prop :=
  ∀ i, r.defIdx = some i → ∃ d f h, c.entries[i]? = some d ∧ r.cf = some f ∧ patMatch d f = true
    ∧ r.raw[0]? = some h ∧ hdrMatch d h = true ∧ (d.identifier = none ∨ ∃ k, r.raw[1]? = some k ∧ idAccepts d k = true)

/-- The definition named is a survivor, and survivors match the bytes seen. -/
theorem FrameRecord.namesMatching {s : State} {r : OutputRecord} (hr : FrameRecord s r) (m : MidFrame s)
    (hid : ∀ i d, r.defIdx = some i → s.cat.entries[i]? = some d →
      d.identifier = none ∨ ∃ k, s.buf.read 1 = some k ∧ idAccepts d k = true) : NamesMatching s.cat r := by
  intro i hi
  obtain ⟨hmem, d, -, hd, -⟩ := hr.carved i hi
  obtain ⟨f, hf, hpat⟩ := m.pattern i hmem d hd
  obtain ⟨h, hh, hhdr⟩ := m.header i hmem d hd
  have hraw : bufBytes s = r.raw := Except.ok.inj (m.bufWf.frameBytes.symm.trans hr.raw)
  have raw_of_read : ∀ {a k}, s.buf.read a = some k → r.raw[a]? = some k := fun {a k} hk => by
    rw [← hraw, ← hk, Memory.read_range m.bufWf a, bufBytes]
  exact ⟨d, f, h, hd, hr.cf.trans hf, hpat, raw_of_read hh, hhdr,
    (hid i d hi hd).imp id fun ⟨k, hk, hacc⟩ => ⟨k, raw_of_read hk, hacc⟩⟩

theorem FrameRecord.namesMatching_of_seen {s : State} {r : OutputRecord} (hr : FrameRecord s r) (m : MidFrame s)
    (hid : IdentifierSeen s) : NamesMatching s.cat r :=
  hr.namesMatching m fun i d hi hd => hid i (hr.carved i hi).1 d hd

theorem CallRecord.namesMatching {b : Byte} {x : Timestamp} {r : OutputRecord} (h : CallRecord b x r) (c : Catalog) :
    NamesMatching c r :=
  fun i hi => by simp [h.unnamed] at hi

/-- A byte in WaitingForHeader: a message of one byte has no identifier. -/
theorem StateInv.takeHeader_namesMatching {s t : State} {b : Byte} (h : StateInv s) (hst : s.st = .waitingForHeader)
    (ht : takeHeader b s = .next t) : ByteOutcome (NamesMatching s.cat) s t :=
  (takeHeader_outcome ht).imp fun r hr =>
    hr.toFrameRecord.namesMatching (h.midFrame_header hst b) fun i d hi hd => by
      obtain ⟨k, -, hlen⟩ := hr.full i d hi hd
      exact .inl (identifier_none_of_flen hlen)

/-- A byte in WaitingForIdentifier: the survivors are those that accept it. -/
theorem StateInv.takeIdentifier_namesMatching {s t : State} {b : Byte} (h : StateInv s)
    (hst : s.st = .waitingForIdentifier) (ht : takeIdentifier b s = .next t) :
    ByteOutcome (NamesMatching s.cat) s t := by
  obtain ⟨-, hlen, -⟩ := h.table.identifier hst
  have stored := (h.midFrame (.inl hst)).store b s.need (a := 1) (by simp [hlen]) (by decide)
  have m := stored.keepSurvivors (cand := identifierSet s.cat b s.cand) List.filter_sublist s.st s.need
  refine (takeIdentifier_outcome ht).imp fun r hr =>
    hr.toFrameRecord.namesMatching_of_seen m fun i hi d hd => .inr ?_
  obtain ⟨-, e, he, hacc⟩ := mem_identifierSet.mp hi
  cases hd.symm.trans he
  exact ⟨b, Memory.read_write_same _ _ _, hacc⟩

/-- A byte in WaitingForData: slot 1 keeps the identifier byte that the survivors accepted. -/
theorem StateInv.takeData_namesMatching {s t : State} {b : Byte} (h : StateInv s) (hst : s.st = .waitingForData)
    (ht : takeData b s = .next t) : ByteOutcome (NamesMatching s.cat) s t := by
  obtain ⟨hlt, -⟩ := takeData_next ht
  rcases takeData_outcome ht with ⟨no, hst'⟩ | ⟨-, r, hc, hr⟩
  · exact .inl ⟨no, .inr (.inr (hst'.trans hst))⟩
  · have m := (h.midFrame (.inr hst)).store b (s.need - 1) rfl hlt
    refine .inr ⟨r, hc, hr.namesMatching_of_seen m (EverySurvivor.imp (h.consistent.identifier hst) fun d hd => ?_)⟩
    exact hd.imp id fun ⟨k, hk, hacc⟩ => ⟨k, h.bufWf.read_write rfl hk, hacc⟩

theorem execByte_namesMatching {b : Byte} {x : Timestamp} {s t : State} (h : StateInv s)
    (ht : execByte b x s = .next t) : ByteOutcome (NamesMatching s.cat) s t := by
  rcases execByte_next ht with ht | ⟨hst, ht⟩ | ⟨hst, ht⟩ | ⟨hst, ht⟩
  · exact (takeCall_outcome ht).imp fun _ hr => hr.namesMatching _
  · exact h.takeHeader_namesMatching hst ht
  · exact h.takeIdentifier_namesMatching hst ht
  · exact h.takeData_namesMatching hst ht

/-! ### Version and checksum of an emitted message (spec/42_frame_assembler.md R105) -/

/-- A definition that an emitted record names is valid for version `v`, and its checksum holds where it asks for one. -/
def Vetted (c : Catalog) (v : Version) (r : OutputRecord) : Prop :=
  r.ok = true → ∀ i, r.defIdx = some i → ∃ d, c.entries[i]? = some d ∧ verMatch d v = true
    ∧ (d.requiresChecksum = true → checksumHolds r.raw = true)

/-- A record on the output port is vetted. It reads `out`, `cat` and `ver` alone, so writes of the working registers do not
show in it. -/
def OutVetted (s : State) : Prop := ∀ r, s.out = some r → Vetted s.cat s.ver r

theorem checksumOk_ok {s : State} {good : Bool} (h : checksumOk s = .ok good) :
    ∃ bs, frameBytes s = .ok bs ∧ good = checksumHolds bs := by
  unfold checksumOk at h
  split at h
  · cases h
  · exact map_ok h

theorem raiseFail_outVetted {c : FailCause} {s t : State} (h : raiseFail c s = .next t) : OutVetted t := by
  obtain ⟨r, hr, rfl⟩ := raiseFail_next h
  obtain ⟨-, notOk, -⟩ := failRecord_spec hr
  intro r' hr' ok
  cases hr'
  simp [notOk] at ok

theorem judgeMessage_outVetted {i : Nat} {s t : State}
    (hv : ∀ d, s.cat.entries[i]? = some d → verMatch d s.ver = true) (h : judgeMessage i s = .next t) : OutVetted t := by
  obtain ⟨d, m, hd, -, ⟨h, hck⟩ | ⟨h, -, -⟩⟩ := judgeMessage_next h
  · obtain ⟨f, bs, -, hb, rfl⟩ := messageOutcome_next h
    intro r hr _ j hj
    cases hr
    cases hj
    refine ⟨d, hd, hv d hd, fun hreq => ?_⟩
    obtain ⟨bs', hb', hgood⟩ := checksumOk_ok (hck hreq)
    cases hb.symm.trans hb'
    exact hgood.symm
  · exact raiseFail_outVetted h

/-- `process()` judges a definition that the version filter kept. -/
theorem processFrame_outVetted {s t : State} (h : processFrame s = .next t) : OutVetted t := by
  unfold processFrame at h
  simp only at h
  split at h
  · exact raiseFail_outVetted h
  · exact raiseFail_outVetted h
  · rename_i i hfin
    refine judgeMessage_outVetted (fun d hd => ?_) h
    have hi : i ∈ versionSet s.cat s.ver s.cand := by simp [finalizeSet_unique.mp hfin]
    obtain ⟨-, e, he, hver⟩ := mem_versionSet.mp hi
    cases hd.symm.trans he
    exact hver

theorem commitLength_outVetted {n : Nat} {s t : State} (h : commitLength n s = .next t)
    (hs : OutVetted s) : OutVetted t := by
  unfold commitLength at h
  split_ifs at h
  · exact raiseFail_outVetted h
  · exact processFrame_outVetted h
  · cases h
    exact hs

theorem enterDataPhase_outVetted {s t : State} (h : enterDataPhase s = .next t) (hs : OutVetted s) : OutVetted t := by
  obtain ⟨k, -, h⟩ := withRead_next h
  split at h
  · exact raiseFail_outVetted h
  · exact commitLength_outVetted h hs
  · simp only at h
    split at h
    · exact raiseFail_outVetted h
    · exact raiseFail_outVetted h
    · exact commitLength_outVetted h hs

theorem takeHeader_outVetted {b : Byte} {s t : State} (hs : OutVetted s) (h : takeHeader b s = .next t) :
    OutVetted t := by
  obtain ⟨s1, rfl, ⟨-, h⟩ | ⟨-, -, rfl⟩ | ⟨-, -, h⟩⟩ := takeHeader_next h
  · exact raiseFail_outVetted h
  · exact hs
  · exact enterDataPhase_outVetted h hs

theorem takeIdentifier_outVetted {b : Byte} {s t : State} (hs : OutVetted s) (h : takeIdentifier b s = .next t) :
    OutVetted t := by
  obtain ⟨s1, rfl, ⟨-, h⟩ | ⟨-, h⟩⟩ := takeIdentifier_next h
  · exact raiseFail_outVetted h
  · exact enterDataPhase_outVetted h hs

theorem takeData_outVetted {b : Byte} {s t : State} (hs : OutVetted s) (h : takeData b s = .next t) : OutVetted t := by
  obtain ⟨-, s1, rfl, ⟨-, h⟩ | ⟨-, rfl⟩⟩ := takeData_next h
  · exact processFrame_outVetted h
  · exact hs

/-- The record of a call byte names no definition. -/
theorem takeCall_outVetted {b : Byte} {x : Timestamp} {s t : State} (hs : OutVetted s) (h : takeCall b x s = .next t) :
    OutVetted t := by
  rcases takeCall_outcome h with ⟨⟨hout, -⟩, -⟩ | ⟨r, hc, hr⟩
  · have frame := takeCall_frame h
    unfold OutVetted
    rw [hout, frame.machine.1, frame.ver]
    exact hs
  · intro r' hr' _ i hi
    cases hr'.symm.trans hc.produced.1
    simp [hr.unnamed] at hi

theorem execByte_outVetted {b : Byte} {x : Timestamp} {s t : State} (hs : OutVetted s) (h : execByte b x s = .next t) :
    OutVetted t := by
  rcases execByte_next h with h | ⟨-, h⟩ | ⟨-, h⟩ | ⟨-, h⟩
  · exact takeCall_outVetted hs h
  · exact takeHeader_outVetted hs h
  · exact takeIdentifier_outVetted hs h
  · exact takeData_outVetted hs h

/-! ### The one byte of a step that can produce a record (spec/44_host_events.md R130) -/

theorem runEvents_append {es fs : List Event} {s t : State} (h : runEvents (es ++ fs) s = .next t) :
    ∃ u, runEvents es s = .next u ∧ runEvents fs u = .next t := by
  induction es generalizing s with
  | nil => exact ⟨s, rfl, h⟩
  | cons e es ih =>
    simp only [List.cons_append, runEvents] at h ⊢
    split at h
    · exact ih h
    · cases h
    · cases h

theorem runEvents_singleton {e : Event} {s t : State} (h : runEvents [e] s = .next t) : runEvent e s = .next t := by
  simp only [runEvents] at h
  split at h
  · rw [‹runEvent e s = _›, h]
  · cases h
  · cases h

/-- A host event leaves the output port alone (R127 to R129). -/
theorem runEvent_out_of_not_byte {e : Event} {s t : State} (he : isByteEvent e = false) (h : runEvent e s = .next t) :
    t.out = s.out := by
  cases e with
  | reset | ver | discard => cases h; rfl
  | byte => cases he

theorem runEvents_out_of_no_byte {es : List Event} {s t : State} (he : ∀ e ∈ es, isByteEvent e = false)
    (h : runEvents es s = .next t) : t.out = s.out := by
  induction es generalizing s with
  | nil => cases h; rfl
  | cons e es ih =>
    obtain ⟨u, hu, ht⟩ := runEvents_append (es := [e]) h
    have head := runEvent_out_of_not_byte (he e List.mem_cons_self) (runEvents_singleton hu)
    exact (ih (fun e' he' => he e' (List.mem_cons_of_mem _ he')) ht).trans head

/-- The events of a sample in the order of R130: the host events, then the byte if there is one. -/
theorem portEvents_byte_last (p : Ports) : ∃ es, (∀ e ∈ es, isByteEvent e = false)
    ∧ (portEvents p = es ∨ portEvents p = es ++ [.byte p.inByte p.inTs]) := by
  by_cases hr : p.rst = true
  · exact ⟨[.reset], by simp [isByteEvent], .inl (by simp [portEvents, hr])⟩
  · refine ⟨(if p.verWr then [.ver p.verWdata] else []) ++ (if p.discard then [.discard] else []), ?_, ?_⟩
    · split_ifs <;> simp [isByteEvent]
    · by_cases hb : p.inValid = true
      · exact .inr (by simp [portEvents, hr, hb])
      · exact .inl (by simp [portEvents, hr, hb])

/-- A step that shows a record ends with a byte, in a state that meets the invariant with the output port clear. -/
theorem step_record_by_byte {s t : State} {r : OutputRecord} (h : StateInv s) (ht : step s = .next t)
    (hr : t.out = some r) : ∃ u b x, StateInv u ∧ u.out = none ∧ execByte b x u = .next t := by
  unfold step at ht
  split at ht
  · cases ht
    cases hr
  · rename_i p ps _
    have clear := h.withInterface s.ver ps none
    obtain ⟨es, noByte, hes | hes⟩ := portEvents_byte_last p <;> simp only [stepPorts, hes] at ht
    · rw [runEvents_out_of_no_byte noByte ht] at hr
      cases hr
    · obtain ⟨u, hu, ht⟩ := runEvents_append ht
      obtain ⟨u', hu', adv⟩ := runEvents_advances es clear
      cases hu.symm.trans hu'
      exact ⟨u, _, _, adv.inv, runEvents_out_of_no_byte noByte hu,
        (runEvent_byte _ _ u).symm.trans (runEvents_singleton ht)⟩

/-- The payload that `carve` cuts from a frame of the definition's length has the length R50 gives. -/
theorem length_payload_of_flen {d : MessageDefinition} {h : Byte} {raw : List Byte} (hl : raw.length = flen d h) :
    ((raw.drop (1 + idlen d)).take (dlen d h)).length = dlen d h := by
  unfold flen at hl
  simp only [List.length_take, List.length_drop]
  omega

/-- Settles O57: the record is a byte's; its definition is matched by `execByte_namesMatching`, has the frame's length by
`execByte_outcome`, and is vetted by `execByte_outVetted`. -/
theorem emittedMessageIsSound : Obligations.EmittedMessageIsSound := by
  intro s t r i hs ht hr ok hi
  obtain ⟨u, b, x, hu, clear, hbyte⟩ := step_record_by_byte hs ht hr
  have sameCat := (execByte_frame hbyte).machine.1
  have outVetted : OutVetted t := execByte_outVetted (fun r hr => by simp [clear] at hr) hbyte
  have record : ∀ {P}, ByteOutcome P u t → P r := by
    rintro P (⟨⟨hout, -⟩, -⟩ | ⟨r', hc, hp⟩)
    · rw [hout, clear] at hr
      cases hr
    · cases hr.symm.trans hc.produced.1
      exact hp
  obtain ⟨d, f, h, hd, hf, hpat, hraw, hhdr, hid⟩ := record (execByte_namesMatching hu hbyte) i hi
  obtain ⟨d', h', hd', hraw', hlen, -, -, hpay⟩ := (record (execByte_outcome hu hbyte)).carved i hi
  obtain ⟨d'', hd'', hver, hck⟩ := outVetted r hr ok i hi
  cases hd.symm.trans hd'
  cases hraw.symm.trans hraw'
  rw [← sameCat] at hd
  cases hd.symm.trans hd''
  exact ⟨d, f, h, hd, hf, hpat, hraw, hhdr, hid, hver, hlen, hpay ▸ length_payload_of_flen hlen, hck⟩

end Sys2Proof.Machine

/-! PROOFS. The encoding family (O46, O47, O48, O49, O45). The parts, in order: an event and the port sample that raises it;
the rows of the call byte, from instruction to byte and back; the ROM word of a catalog entry; the record that a step shows
at the output port, and its signals. -/

namespace Sys2Proof

open Machine (atCallPosition callByte_of_tc callByte_of_bcast)

/-! ### An instruction, its event and its port sample (spec/30_encoding.md R59) -/

/-- The sample of one event raises that event and no other. -/
theorem portEvents_eventPorts (e : Event) : portEvents (eventPorts e) = [e] := by
  cases e <;> rfl

/-- An instruction that the decoder names in some state is one that an event presents. -/
theorem encodeEvent_of_fetchedIn {st : AsmState} {i : Instr} (h : fetchedIn st i = true) :
    ∃ e, encodeEvent i = some e := by
  cases i with
  | sendRequest | requestResend | broadcastFeedbackPoll | framedMessageBcast | framedMessageAddr | unknown | parityError
  | unclassifiedCallError | headerStep | identifierStep | dataStep | ver | discard | reset => exact ⟨_, rfl⟩
  | parityValid | classify | callStep | emitCallOnly | unknownCall | framedCall | enterData | process | emitMessage | carve
  | clearWork | seed | applyHeader | applyIdentifier | applyVersion | finalize | checksumOk | raiseFail | byte => cases h

/-! ### The rows of the call byte (spec/30_encoding.md R45, R57) -/

/-- The bytes of BroadcastFeedbackPoll have valid parity (R78 (b)), so its row asks nothing of its operand. -/
theorem parity_poll : ∀ p : BitVec 1, hasValidParity (callByte p 1#2 0#5) = true := by decide

/-- Where the next byte is a call byte, a BYTE event is the row of that byte (R96). -/
theorem decodeByte_of_atCallPosition {st : AsmState} (h : atCallPosition st = true) (b : Byte) (t : Timestamp) :
    decodeByte st b t = .instr (decodeCall b t) := by
  cases st with
  | waitingForCall | emit | fail => rfl
  | waitingForHeader | waitingForIdentifier | waitingForData | processingData => cases h

/-- A well-formed row is read back from its byte: its condition picks it, and shuts out the rows above it (R67). -/
theorem decodeCall_of_encodeEvent {i : Instr} {b : Byte} {t : Timestamp} (hw : i.wellFormed = true)
    (hf : fetchedIn .waitingForCall i = true) (he : encodeEvent i = some (.byte b t)) : decodeCall b t = i := by
  cases i with
  | sendRequest p a _ =>
    cases he
    have hp : hasValidParity (callByte p 2#2 a) = true := hw
    simp [decodeCall, tc_callByte, pbit_callByte, addr_callByte, hp]
  | requestResend p a _ =>
    cases he
    have ⟨hp, ha⟩ : hasValidParity (callByte p 0#2 a) = true ∧ a ≠ 0#5 := by simpa [Instr.wellFormed] using hw
    simp [decodeCall, tc_callByte, pbit_callByte, addr_callByte, isBcast_callByte, hp, ha]
  | broadcastFeedbackPoll p _ =>
    cases he
    simp [decodeCall, tc_callByte, pbit_callByte, isBcast_callByte, parity_poll]
  | framedMessageBcast p _ =>
    cases he
    simp [decodeCall, tc_callByte, pbit_callByte, isBcast_callByte]
  | framedMessageAddr p a _ =>
    cases he
    have ⟨hp, ha⟩ : hasValidParity (callByte p 3#2 a) = true ∧ a ≠ 0#5 := by simpa [Instr.wellFormed] using hw
    simp [decodeCall, tc_callByte, pbit_callByte, addr_callByte, isBcast_callByte, hp, ha]
  | unknown p a _ =>
    cases he
    have ⟨hp, ha⟩ : hasValidParity (callByte p 1#2 a) = true ∧ a ≠ 0#5 := by simpa [Instr.wellFormed] using hw
    simp [decodeCall, tc_callByte, pbit_callByte, addr_callByte, isBcast_callByte, hp, ha]
  | parityError p ty a _ =>
    cases he
    have ⟨hp, hb⟩ : hasValidParity (callByte p ty a) = false ∧ (¬ ty = 3#2 ∨ ¬ a = 0#5) := by simpa [Instr.wellFormed] using hw
    simp [decodeCall, tc_callByte, pbit_callByte, addr_callByte, isBcast_callByte, hp, not_and_or.mpr hb]
  | unclassifiedCallError p ty a _ =>
    have ⟨⟨hp, hty⟩, ha⟩ : (hasValidParity (callByte p ty a) = true ∧ ty = 0) ∧ a = 0 := by
      simpa [Instr.wellFormed] using hw
    have := parity_zero (callByte p ty a) (by simp [tc_callByte, hty]) (by simp [isBcast_callByte, ha])
    simp [hp] at this
  | ver | discard | reset => cases he
  | parityValid | classify | callStep | emitCallOnly | unknownCall | framedCall | headerStep | identifierStep | enterData
  | dataStep | process | emitMessage | carve | clearWork | seed | applyHeader | applyIdentifier | applyVersion | finalize
  | checksumOk | raiseFail | byte => cases hf

/-- The event of a well-formed instruction decodes to it, in every state that fetches it. -/
theorem decodeEvent_of_encodeEvent {st : AsmState} {i : Instr} {e : Event} (hw : i.wellFormed = true)
    (hf : fetchedIn st i = true) (he : encodeEvent i = some e) : decodeEvent st e = .instr i := by
  cases i with
  | sendRequest | requestResend | broadcastFeedbackPoll | framedMessageBcast | framedMessageAddr | unknown | parityError
  | unclassifiedCallError =>
    cases he
    exact (decodeByte_of_atCallPosition hf _ _).trans (congrArg Decoded.instr (decodeCall_of_encodeEvent hw rfl rfl))
  | headerStep | identifierStep | dataStep =>
    cases he
    cases eq_of_beq hf
    rfl
  | ver | discard | reset =>
    cases he
    rfl
  | parityValid | classify | callStep | emitCallOnly | unknownCall | framedCall | enterData | process | emitMessage | carve
  | clearWork | seed | applyHeader | applyIdentifier | applyVersion | finalize | checksumOk | raiseFail | byte => cases hf

/-- Settles O46: the sample of the instruction's event raises that event, which decodes back. -/
theorem decodeOfEncodeIsIdentity : Obligations.DecodeOfEncodeIsIdentity := by
  intro st i hw hf
  obtain ⟨e, he⟩ := encodeEvent_of_fetchedIn hf
  exact ⟨eventPorts e, e, by simp [encode, he], portEvents_eventPorts e, decodeEvent_of_encodeEvent hw hf he⟩

/-- Valid parity leaves no byte to row 8 of the table (R75). -/
theorem tc_of_validParity {b : Byte} (hp : hasValidParity b = true) :
    tc b = 2 ∨ (tc b = 0 ∧ isBcast b = false) ∨ tc b = 1 ∨ tc b = 3 := by
  have row0 (h : tc b = 0) : isBcast b = false := by
    by_contra hb
    have := parity_zero b h (by simpa using hb)
    simp [hp] at this
  rcases typeCode_cases (tc b) with h | h | h | h
  · exact .inr (.inl ⟨h, row0 h⟩)
  · exact .inr (.inr (.inl h))
  · exact .inl h
  · exact .inr (.inr (.inr h))

/-- The row named for a byte is well-formed, belongs to the call position, and its word is that byte: branch by branch of
the table (R67). -/
theorem decodeCall_spec {st : AsmState} (hst : atCallPosition st = true) (b : Byte) (t : Timestamp) :
    (decodeCall b t).wellFormed = true ∧ fetchedIn st (decodeCall b t) = true
      ∧ encodeEvent (decodeCall b t) = some (.byte b t) := by
  have event {w : Byte} (h : w = b) : some (Event.byte w t) = some (.byte b t) := by rw [h]
  have addressed (h : isBcast b = false) : (addr b != 0) = true := by simpa [isBcast, bne] using h
  unfold decodeCall
  simp only [Bool.and_eq_true, beq_iff_eq, Bool.not_eq_true', and_assoc]
  split_ifs with sendRow resendRow pollRow bcastRow addrRow unknownRow parityRow
  · obtain ⟨hty, hp⟩ := sendRow
    have word := callByte_of_tc hty
    exact ⟨by simp only [Instr.wellFormed, word, hp], hst, event word⟩
  · obtain ⟨hty, hp, ha⟩ := resendRow
    have word := callByte_of_tc hty
    exact ⟨by simp only [Instr.wellFormed, word, hp, addressed ha, Bool.and_self], hst, event word⟩
  · obtain ⟨hty, -, hb⟩ := pollRow
    exact ⟨rfl, hst, event (callByte_of_bcast hty hb)⟩
  · obtain ⟨hty, hb⟩ := bcastRow
    exact ⟨rfl, hst, event (callByte_of_bcast hty hb)⟩
  · obtain ⟨hty, hp, ha⟩ := addrRow
    have word := callByte_of_tc hty
    exact ⟨by simp only [Instr.wellFormed, word, hp, addressed ha, Bool.and_self], hst, event word⟩
  · obtain ⟨hty, hp, ha⟩ := unknownRow
    have word := callByte_of_tc hty
    exact ⟨by simp only [Instr.wellFormed, word, hp, addressed ha, Bool.and_self], hst, event word⟩
  · have notRelaxed : (tc b == 3 && addr b == 0) = false := by simpa [isBcast] using bcastRow
    exact ⟨by simp only [Instr.wellFormed, callByte_fields, parityRow, notRelaxed, Bool.not_false, Bool.and_self], hst,
      event (callByte_fields b)⟩
  · have hp : hasValidParity b = true := by simpa using parityRow
    rcases tc_of_validParity hp with h | ⟨h, hb⟩ | h | h
    · exact absurd ⟨h, hp⟩ sendRow
    · exact absurd ⟨h, hp, hb⟩ resendRow
    · cases hb : isBcast b with
      | false => exact absurd ⟨h, hp, hb⟩ unknownRow
      | true => exact absurd ⟨h, hp, hb⟩ pollRow
    · cases hb : isBcast b with
      | false => exact absurd ⟨h, hp, hb⟩ addrRow
      | true => exact absurd ⟨h, hb⟩ bcastRow

/-- Settles O47: at the call position the decoder names the row of `decodeCall_spec`. -/
theorem everyCallByteDecodesBack : Obligations.EveryCallByteDecodesBack := by
  intro b t st hst
  exact ⟨decodeCall b t, decodeByte_of_atCallPosition hst b t, decodeCall_spec hst b t⟩

/-- Settles O45: each word is one byte, whose fields pick its row of the table. -/
theorem exampleWordsDecode : Obligations.ExampleWordsDecode :=
  ⟨rfl, rfl, rfl, rfl, rfl, rfl, rfl, rfl, rfl⟩

/-! ### The ROM word (spec/30_encoding.md R52) -/

/-- The fields that lie in the word, each at its bits of R52's table: what is read back before well-formedness is used. -/
theorem romEntry_romWord (d : MessageDefinition) : romEntry (romWord d) =
    { name := ""
      cbp := d.cbp
      header := if d.header.isSome then some (d.header.getD 0) else none
      dataLength := if d.dataLength == .variableLength then .variableLength else .fixed (romCount d.dataLength).toNat
      identifier :=
        if d.identifier.isSome then
          some { value := romIdValue d.identifier, partialMatch := romIdPartial d.identifier,
                 plen := (romIdLength d.identifier).toNat }
        else none
      vmin := d.vmin
      vmax := d.vmax
      requiresChecksum := d.requiresChecksum } := by
  rw [romEntry, romWord]
  simp (disch := decide) only [BitVec.extractLsb'_append_eq_of_le, BitVec.extractLsb'_append_eq_of_add_le,
    BitVec.getLsbD_append, Nat.reduceSub, Nat.reduceLT, Nat.lt_irrefl, ↓reduceIte]
  simp

/-- The present bit and the byte give the header back. -/
theorem some_getD_of_isSome {α : Type} (o : Option α) (a : α) : (if o.isSome then some (o.getD a) else none) = o := by
  cases o <;> rfl

/-- WF3: a fixed count fits its four bits. -/
theorem dataLength_of_romCount {d : MessageDefinition} (h : wf3 d = true) :
    (if d.dataLength == .variableLength then .variableLength else .fixed (romCount d.dataLength).toNat) = d.dataLength := by
  cases hd : d.dataLength with
  | variableLength => rfl
  | fixed n =>
    have hn : n ≤ 15 := by simpa [wf3, hd] using h
    simp [romCount]
    omega

/-- WF4: the length of an identifier of which only the top bits count fits its three bits; the word holds 0 for any other. -/
theorem identifier_of_romFields {d : MessageDefinition} (h : wf4 d = true)
    (h0 : ∀ p, d.identifier = some p → p.partialMatch = false → p.plen = 0) :
    (if d.identifier.isSome then
        some { value := romIdValue d.identifier, partialMatch := romIdPartial d.identifier,
               plen := (romIdLength d.identifier).toNat }
      else none) = d.identifier := by
  cases hd : d.identifier with
  | none => rfl
  | some p =>
    have length : (romIdLength (some p)).toNat = p.plen := by
      cases hp : p.partialMatch with
      | false => simp [romIdLength, hp, h0 p hd hp]
      | true =>
        have ⟨_, hle⟩ : 1 ≤ p.plen ∧ p.plen ≤ 7 := by simpa [wf4, hd, hp] using h
        simp [romIdLength, hp]
        omega
    simp [romIdValue, romIdPartial, length]

/-- Settles O48: the word gives every field back, the two counts by WF3 and WF4. -/
theorem romWordRoundTrip : Obligations.RomWordRoundTrip := by
  intro d hw hname hplen
  simp only [entryWf, Bool.and_eq_true] at hw
  obtain ⟨⟨⟨⟨⟨-, h3⟩, h4⟩, -⟩, -⟩, -⟩ := hw
  rw [romEntry_romWord, some_getD_of_isSome, dataLength_of_romCount h3, identifier_of_romFields h4 hplen, ← hname]

end Sys2Proof

namespace Sys2Proof

/-! ### The codes and the definition index (spec/30_encoding.md R54, spec/00_scope.md R6) -/

/-- `DEFIDW` bits count at least `NDEF` values: the search for the least width never fails. -/
theorem le_two_pow_defIdWidth (ndef : Nat) : ndef ≤ 2 ^ defIdWidth ndef := by
  unfold defIdWidth
  cases hw : (List.range (ndef + 1)).find? (fun w => decide (max ndef 1 ≤ 2 ^ w)) with
  | none => exact Nat.le_of_lt Nat.lt_two_pow_self
  | some w =>
    have hmax : max ndef 1 ≤ 2 ^ w := by simpa only [decide_eq_true_eq] using List.find?_some hw
    exact (Nat.le_max_left _ _).trans hmax

namespace Machine

/-- The inverse of R54's table reads every code back. -/
theorem reasonOfCode_reasonCode (x : Option FailReason) : reasonOfCode (reasonCode x) = some x := by
  cases x with
  | none => rfl
  | some r => cases r <;> rfl

theorem reasonCode_injective : Function.Injective reasonCode := fun x y h =>
  Option.some.inj ((reasonOfCode_reasonCode x).symm.trans ((congrArg reasonOfCode h).trans (reasonOfCode_reasonCode y)))

/-- A one-bit signal is 1 exactly when what it shows holds. -/
theorem ofBool_eq_one (b : Bool) : BitVec.ofBool b = 1 ↔ b = true := by
  cases b <;> decide

/-! ### The record that a step shows -/

/-- The CallFrame of a record is what `classify` made of its own byte (R12, R76). -/
def OwnCallFrame (r : OutputRecord) : Prop :=
  ∀ f, r.cf = some f → classifyCall f.raw f.ts = .frame f

theorem acceptCall_ownCallFrame {f : CallFrame} {s t : State} (hf : classifyCall f.raw f.ts = .frame f)
    (h : acceptCall f s = .next t) : MayRecord OwnCallFrame s t := by
  rcases acceptCall_next h with ⟨-, rfl⟩ | ⟨-, rfl⟩
  · exact .inr ⟨callOnlyRecord f, ⟨rfl, rfl⟩, fun g hg => by cases hg; exact hf⟩
  · exact .inl ⟨rfl, rfl⟩

/-- The record of a call byte that did not classify has no CallFrame (R144, rows 1 and 2). -/
theorem rejectCall_ownCallFrame {c : FailCause} {b : Byte} {x : Timestamp} {s t : State}
    (hc : c = .parityError b x ∨ c = .unclassifiedCallError b x) (h : rejectCall c s = .next t) :
    MayRecord OwnCallFrame s t := by
  obtain ⟨r, hr, rfl⟩ := raiseFail_next h
  have noFrame : r.cf = none := by rcases hc with rfl | rfl <;> cases hr <;> rfl
  exact .inr ⟨r, ⟨rfl, rfl⟩, fun f hf => by simp [noFrame] at hf⟩

theorem takeCall_ownCallFrame {b : Byte} {x : Timestamp} {s t : State} (h : takeCall b x s = .next t) :
    MayRecord OwnCallFrame s t := by
  unfold takeCall at h
  split at h
  · rename_i f hf
    obtain ⟨rfl, rfl, -, -⟩ := classifyCall_frame hf
    exact acceptCall_ownCallFrame hf h
  · exact rejectCall_ownCallFrame (.inl rfl) h
  · exact rejectCall_ownCallFrame (.inr rfl) h

/-- A record of a later byte holds the CallFrame of the decode, of which the invariant speaks. -/
theorem execByte_ownCallFrame {b : Byte} {x : Timestamp} {s t : State} (h : StateInv s) (ht : execByte b x s = .next t) :
    MayRecord OwnCallFrame s t := by
  by_cases hs : AtCall s
  · rcases hs with hst | hst | hst <;> exact takeCall_ownCallFrame (by simpa only [execByte, hst] using ht)
  · refine (execByte_outcome h ht).mayRecord fun r hr f hf => ?_
    obtain ⟨hcf, -, -⟩ := hr.later hs
    exact h.callFrame f (hcf ▸ hf)

/-- The record that stands on a port that was clear before is the one produced. -/
theorem MayRecord.of_out {P : OutputRecord → Prop} {s t : State} {r : OutputRecord} (h : MayRecord P s t)
    (clear : s.out = none) (hr : t.out = some r) : P r := by
  rcases h with ⟨hout, -⟩ | ⟨r', ⟨hout, -⟩, hp⟩
  · rw [hout, clear] at hr
    cases hr
  · cases hr.symm.trans hout
    exact hp

/-- What holds of the record on the output port after a step from the invariant, as far as its signals need it. -/
structure PortRecord (t : State) (r : OutputRecord) : Prop where
  wf : RecordWf r
  bounded : Bounded r
  ownCallFrame : OwnCallFrame r
  defIdx : ∀ i, r.defIdx = some i → i < t.cat.entries.length

theorem step_portRecord {s t : State} {r : OutputRecord} (h : StateInv s) (ht : step s = .next t)
    (hr : t.out = some r) : PortRecord t r := by
  obtain ⟨u, b, x, hu, clear, hbyte⟩ := step_record_by_byte h ht hr
  have frame := exec_instrFrame (i := .byte b x) hbyte
  obtain ⟨wf, bounded⟩ := frame.records.of_out clear hr
  have ofByte : RecordOfByte b x u r := ((execByte_outcome hu hbyte).mayRecord fun _ => id).of_out clear hr
  refine ⟨wf, bounded rfl hu.lenBound, (execByte_ownCallFrame hu hbyte).of_out clear hr, fun i hi => ?_⟩
  obtain ⟨d, _, hd, -⟩ := ofByte.carved i hi
  obtain ⟨sameCat, -, -⟩ := frame.machine
  exact sameCat ▸ (List.getElem?_eq_some_iff.mp hd).1

/-! ### The signals of that record (spec/30_encoding.md R56) -/

/-- `out_addr` and `out_bcast` read the call byte, with a CallFrame or without. -/
theorem PortRecord.addr_bcast {t : State} {r : OutputRecord} (p : PortRecord t r) :
    (recordSignals r).outAddr = addr r.callRaw ∧ (recordSignals r).outBcast = BitVec.ofBool (isBcast r.callRaw) := by
  cases hcf : r.cf with
  | none => simp [recordSignals, hcf, addr, isBcast]
  | some f =>
    obtain ⟨hraw, -⟩ := p.wf.callByte f hcf
    obtain ⟨-, -, haddr, hbcast⟩ := classifyCall_frame (p.ownCallFrame f hcf)
    simp [recordSignals, hcf, hraw, haddr, hbcast]

/-- The two length signals are wide enough for the bounds of R20's table. -/
theorem PortRecord.lengths {t : State} {r : OutputRecord} (p : PortRecord t r) :
    (recordSignals r).outPayloadLen.toNat = r.payload.length ∧ (recordSignals r).outRawLen.toNat = r.raw.length := by
  obtain ⟨hpay, hraw⟩ := p.bounded
  exact ⟨Nat.mod_eq_of_lt (Nat.lt_of_le_of_lt hpay (by decide)), Nat.mod_eq_of_lt (Nat.lt_of_le_of_lt hraw (by decide))⟩

theorem outBcast_iff (b : Byte) : BitVec.ofBool (isBcast b) = 1 ↔ addr b = 0 := by
  rw [ofBool_eq_one, isBcast, beq_iff_eq]

/-- Settles O49: the tables by evaluation; of the signals, those that are not a field of the record by `PortRecord`. -/
theorem outputPortSignals : Obligations.OutputPortSignals := by
  refine ⟨⟨rfl, rfl, rfl, rfl, rfl⟩, ⟨rfl, rfl, rfl, rfl, rfl, rfl⟩, ⟨rfl, rfl, rfl, rfl, rfl, rfl, rfl⟩,
    fun s u h hu => ⟨rfl, rfl, fun hnone => by simp [outPort, hnone], fun r hr => ?_⟩⟩
  have p := step_portRecord h hu hr
  obtain ⟨haddr, hbcast⟩ := p.addr_bcast
  obtain ⟨hpay, hraw⟩ := p.lengths
  have defFits (i : Nat) (hi : r.defIdx = some i) : i < 2 ^ defIdWidth u.cat.entries.length :=
    (p.defIdx i hi).trans_le (le_two_pow_defIdWidth _)
  have checksum : BitVec.ofBool r.checksumValid = BitVec.ofBool r.ok := congrArg _ p.wf.checksum
  have ambiguous : BitVec.ofBool r.diag = 1 ↔ reasonCode r.reason = reasonCode (some .ambiguousDefinition) := by
    rw [ofBool_eq_one, p.wf.diag, reasonCode_injective.eq_iff]
  exact ⟨recordSignals r, by simp [outPort, hr], rfl, rfl, rfl, rfl, haddr,
    by rw [haddr, hbcast]; exact outBcast_iff r.callRaw,
    fun hnone => by simp [recordSignals, hnone], fun f hf => by simp [recordSignals, hf],
    rfl, defFits, rfl, rfl, hpay, rfl, rfl, checksum, hraw, rfl, rfl, ambiguous⟩

end Machine

end Sys2Proof

/-! PROOFS. The classifier family (O8, O9, O6, O7, O13). The parts, in order: the 1 bits counted one by one and the bit that
parity does not read; the rows of the table and what `classify` gives in each; the fields that bit 7 does not change; the
failure entry of a call byte. -/

namespace Sys2Proof

/-! ### Parity (spec/40_call_classifier.md R65, R78) -/

theorem length_filter_getLsbD (b : Byte) (is : List Nat) :
    (is.filter b.getLsbD).length = (is.map fun i => (b.getLsbD i).toNat).sum := by
  induction is with
  | nil => rfl
  | cons i is ih => cases hi : b.getLsbD i <;> simp [hi, ih, Nat.add_comm]

theorem popcount8_eq_sum (b : Byte) : popcount8 b =
    (b.getLsbD 0).toNat + (b.getLsbD 1).toNat + (b.getLsbD 2).toNat + (b.getLsbD 3).toNat + (b.getLsbD 4).toNat
      + (b.getLsbD 5).toNat + (b.getLsbD 6).toNat + (b.getLsbD 7).toNat := by
  rw [popcount8, length_filter_getLsbD]
  simp [List.range_succ, Nat.add_assoc]

theorem popcount8_eq_low_add_bit7 (b : Byte) : popcount8 b = popcount8 (b &&& 0x7F) + (b.getLsbD 7).toNat := by
  simp [popcount8_eq_sum]

/-- The parity bit is counted too, so it cancels: only the low seven bits decide (R78 (a)). -/
theorem hasValidParity_iff (b : Byte) : hasValidParity b = true ↔ popcount8 (b &&& 0x7F) % 2 = 1 := by
  rw [hasValidParity, popcount8_eq_low_add_bit7]
  cases b.getLsbD 7 with
  | false => simp
  | true =>
    simp only [Bool.toNat_true, Bool.true_beq, beq_iff_eq]
    omega

theorem hasValidParity_flip_bit7 (b : Byte) : hasValidParity (b ^^^ 0x80) = hasValidParity b := by
  have sameLowBits : popcount8 ((b ^^^ 0x80) &&& 0x7F) = popcount8 (b &&& 0x7F) := by simp [popcount8_eq_sum]
  rw [Bool.eq_iff_iff, hasValidParity_iff, hasValidParity_iff, sameLowBits]

/-- Settles O6: (a) and (b) by the lemmas above, (c) by evaluation, (d) by the formula itself. -/
theorem parityFollowsLowSevenBits : Obligations.ParityFollowsLowSevenBits := by
  refine ⟨hasValidParity_iff, fun b => (hasValidParity_flip_bit7 b).symm, by decide, by decide, by decide, by decide,
    by decide, by decide, by decide, by decide, fun b even => ?_, fun b odd => ?_⟩
  · simp [hasValidParity, even]
  · simp [hasValidParity, odd]

namespace Machine

/-- Settles O7: `parity_valid` answers the formula, whose count is the sum of the bits. -/
theorem parityValidReturnsFormula : Obligations.ParityValidReturnsFormula := by
  intro b s
  rw [← popcount8_eq_sum]
  rfl

/-! ### The rows of the table (spec/40_call_classifier.md R67) -/

section
variable {b : Byte} (t : Timestamp)

theorem classifyCall_sendRequest (hty : tc b = 2) (hp : hasValidParity b = true) :
    classifyCall b t = .frame (callFrame .sendRequest b t) := by
  simp [classifyCall, hty, hp]

theorem classifyCall_requestResend (hty : tc b = 0) (hp : hasValidParity b = true) (hb : isBcast b = false) :
    classifyCall b t = .frame (callFrame .requestResend b t) := by
  simp [classifyCall, hty, hp, hb]

theorem classifyCall_broadcastFeedbackPoll (hty : tc b = 1) (hp : hasValidParity b = true) (hb : isBcast b = true) :
    classifyCall b t = .frame (callFrame .broadcastFeedbackPoll b t) := by
  simp [classifyCall, hty, hp, hb]

theorem classifyCall_framedMessage_of_bcast (hty : tc b = 3) (hb : isBcast b = true) :
    classifyCall b t = .frame (callFrame .framedMessage b t) := by
  simp [classifyCall, hty, hb]

theorem classifyCall_framedMessage_of_addr (hty : tc b = 3) (hp : hasValidParity b = true) (hb : isBcast b = false) :
    classifyCall b t = .frame (callFrame .framedMessage b t) := by
  simp [classifyCall, hty, hp, hb]

theorem classifyCall_unknown (hty : tc b = 1) (hp : hasValidParity b = true) (hb : isBcast b = false) :
    classifyCall b t = .frame (callFrame .unknown b t) := by
  simp [classifyCall, hty, hp, hb]

/-- Of the six rows above the failures, only the relaxed one takes a byte of invalid parity. -/
theorem classifyCall_parityError (hp : hasValidParity b = false) (notRelaxed : ¬ (tc b = 3 ∧ isBcast b = true)) :
    classifyCall b t = .parityError := by
  simpa [classifyCall, hp] using notRelaxed

/-- Below the first six rows parity alone decides (rows 7 and 8). -/
theorem classifyCall_of_noRow (no1 : ¬ (tc b = 2 ∧ hasValidParity b = true))
    (no2 : ¬ (tc b = 0 ∧ hasValidParity b = true ∧ isBcast b = false))
    (no3 : ¬ (tc b = 1 ∧ hasValidParity b = true ∧ isBcast b = true)) (no4 : ¬ (tc b = 3 ∧ isBcast b = true))
    (no5 : ¬ (tc b = 3 ∧ hasValidParity b = true ∧ isBcast b = false))
    (no6 : ¬ (tc b = 1 ∧ hasValidParity b = true ∧ isBcast b = false)) :
    classifyCall b t = if hasValidParity b = false then .parityError else .unclassifiedCallError := by
  simp only [classifyCall, Bool.not_eq_true]
  rw [if_neg no1, if_neg no2, if_neg no3, if_neg no4, if_neg no5, if_neg no6]

/-- A byte of valid parity meets one of the first six rows: its type code and its broadcast flag say which (R75). -/
theorem classifyCall_ne_unclassified : classifyCall b t ≠ .unclassifiedCallError := by
  cases hp : hasValidParity b with
  | false =>
    by_cases relaxed : tc b = 3 ∧ isBcast b = true
    · simp [classifyCall_framedMessage_of_bcast t relaxed.1 relaxed.2]
    · simp [classifyCall_parityError t hp relaxed]
  | true =>
    rcases tc_of_validParity hp with hty | ⟨hty, hb⟩ | hty | hty
    · simp [classifyCall_sendRequest t hty hp]
    · simp [classifyCall_requestResend t hty hp hb]
    · cases hb : isBcast b with
      | false => simp [classifyCall_unknown t hty hp hb]
      | true => simp [classifyCall_broadcastFeedbackPoll t hty hp hb]
    · cases hb : isBcast b with
      | false => simp [classifyCall_framedMessage_of_addr t hty hp hb]
      | true => simp [classifyCall_framedMessage_of_bcast t hty hb]

end

/-- Settles O8: `classify` answers `classifyCall`, and the rows' lemmas say what that is. -/
theorem classifyReturnsTableRow : Obligations.ClassifyReturnsTableRow := by
  intro b t s
  refine ⟨classifyCall b t, rfl, ?_⟩
  intro ty bc pv frame row1 row2 row3 row4 row5 row6 noRow
  have fallThrough : noRow → classifyCall b t = if pv = false then .parityError else .unclassifiedCallError :=
    fun ⟨no1, no2, no3, no4, no5, no6⟩ => classifyCall_of_noRow t no1 no2 no3 no4 no5 no6
  exact ⟨fun ⟨hty, hp⟩ => classifyCall_sendRequest t hty hp,
    fun ⟨hty, hp, hb⟩ => classifyCall_requestResend t hty hp hb,
    fun ⟨hty, hp, hb⟩ => classifyCall_broadcastFeedbackPoll t hty hp hb,
    fun ⟨hty, hb⟩ => classifyCall_framedMessage_of_bcast t hty hb,
    fun ⟨hty, hp, hb⟩ => classifyCall_framedMessage_of_addr t hty hp hb,
    fun ⟨hty, hp, hb⟩ => classifyCall_unknown t hty hp hb,
    fun ⟨no, hp⟩ => (fallThrough no).trans (if_pos hp),
    fun ⟨no, hp⟩ => (fallThrough no).trans (if_neg (ne_false_of_eq_true hp))⟩

/-! ### Bit 7 (spec/40_call_classifier.md R79 (e)) -/

theorem tc_flip_bit7 (b : Byte) : tc (b ^^^ 0x80) = tc b := by
  simp [tc, BitVec.extractLsb'_xor]

theorem addr_flip_bit7 (b : Byte) : addr (b ^^^ 0x80) = addr b := by
  simp [addr, BitVec.extractLsb'_xor]

theorem isBcast_flip_bit7 (b : Byte) : isBcast (b ^^^ 0x80) = isBcast b := by
  rw [isBcast, isBcast, addr_flip_bit7]

theorem callFrame_flip_bit7 (kind : CallKind) (b : Byte) (t : Timestamp) :
    callFrame kind (b ^^^ 0x80) t = { callFrame kind b t with raw := b ^^^ 0x80 } := by
  simp only [callFrame, addr_flip_bit7, isBcast_flip_bit7]

/-- Settles O9: the table reads the type code, the address and the parity, none of which bit 7 changes. -/
theorem unclassifiedIsUnreachable : Obligations.UnclassifiedIsUnreachable := by
  refine ⟨fun b t => classifyCall_ne_unclassified t, fun b t => ?_⟩
  simp only [classifyCall, tc_flip_bit7, isBcast_flip_bit7, hasValidParity_flip_bit7, callFrame_flip_bit7]
  split_ifs <;> rfl

/-! ### A call byte that does not classify (spec/42_frame_assembler.md R97, spec/60_exceptions.md R144) -/

theorem rejectCall_of_failRecord {c : FailCause} {r : OutputRecord} {s : State}
    (h : failRecord (freshDecode s) c = .ok r) : rejectCall c s = .next (failOutcome r c (freshDecode s)) := by
  rw [rejectCall, raiseFail, h, withRead_ok]

/-- Settles O13: both rows are the failure entry with `callFailRecord`, which reads no register. -/
theorem callFailuresEnterFail : Obligations.CallFailuresEnterFail := by
  intro s p ty a t fails
  constructor
  · exact rejectCall_of_failRecord (c := .parityError (callByte p ty a) t) rfl
  · exact rejectCall_of_failRecord (c := .unclassifiedCallError (callByte p ty a) t) rfl

end Machine

end Sys2Proof

/-! PROOFS. The candidate filter family (O19, O20, O21, O22). The parts, in order: top bits under a mask as a quotient; what
each match predicate asks of an entry; membership after `seed` and the apply steps; the apply steps as one kind of narrowing;
the result of `finalize`. -/

namespace Sys2Proof

/-! ### Masks of the top bits (spec/30_encoding.md R48, R49) -/

/-- Two words agree under the mask that drops the low `n` bits exactly when they agree after those bits are cut off. -/
theorem and_topMask_eq_iff {w : Nat} (x y : BitVec w) (n : Nat) :
    x &&& (BitVec.allOnes w <<< n) = y &&& (BitVec.allOnes w <<< n) ↔ x.toNat / 2 ^ n = y.toNat / 2 ^ n := by
  rw [← Nat.shiftRight_eq_div_pow, ← Nat.shiftRight_eq_div_pow, ← BitVec.toNat_ushiftRight, ← BitVec.toNat_ushiftRight,
    BitVec.toNat_inj]
  constructor <;> intro h <;> apply BitVec.eq_of_getLsbD_eq <;> intro i hi
  · by_cases hni : n + i < w
    · simpa [hni] using congrArg (BitVec.getLsbD · (n + i)) h
    · simp [BitVec.getLsbD_of_ge _ _ (Nat.le_of_not_lt hni)]
  · by_cases hni : i < n
    · simp [hni]
    · have hcut := congrArg (BitVec.getLsbD · (i - n)) h
      simp only [BitVec.getLsbD_ushiftRight, Nat.add_sub_cancel' (Nat.le_of_not_lt hni)] at hcut
      simp [hcut]

theorem highNibble_mask_eq_iff (x y : Byte) : x &&& 0xF0 = y &&& 0xF0 ↔ x.extractLsb' 4 4 = y.extractLsb' 4 4 := by
  have hx := x.isLt
  have hy := y.isLt
  rw [show (0xF0 : Byte) = BitVec.allOnes 8 <<< 4 by decide, and_topMask_eq_iff, ← BitVec.toNat_inj,
    BitVec.extractLsb'_toNat, BitVec.extractLsb'_toNat, Nat.shiftRight_eq_div_pow, Nat.shiftRight_eq_div_pow]
  omega

/-! ### The match predicates (spec/41_candidate_filter.md R80 to R83) -/

theorem patMatch_iff {d : MessageDefinition} {f : CallFrame} :
    patMatch d f = true ↔ d.cbp.type = f.raw.extractLsb' 5 2 ∧ d.cbp.broadcast = f.bcast
      ∧ (d.cbp.parityRequired = true → hasValidParity f.raw = true) := by
  have hparity : (!d.cbp.parityRequired || hasValidParity f.raw) = true
      ↔ (d.cbp.parityRequired = true → hasValidParity f.raw = true) := by
    cases d.cbp.parityRequired <;> simp
  simp only [patMatch, Bool.and_eq_true, beq_iff_eq, hparity, tc, and_assoc]

theorem hdrMatch_iff {d : MessageDefinition} {b : Byte} :
    hdrMatch d b = true ↔ d.header = none
      ∨ (d.dataLength = .variableLength ∧ ∃ h, d.header = some h ∧ h.extractLsb' 4 4 = b.extractLsb' 4 4)
      ∨ (d.dataLength ≠ .variableLength ∧ d.header = some b) := by
  unfold hdrMatch
  cases d.header with
  | none => simp
  | some h =>
    cases d.dataLength with
    | variableLength => simpa using highNibble_mask_eq_iff h b
    | fixed n => simp

theorem idMatch_iff {p : IdPattern} {b : Byte} :
    idMatch p b = true ↔
      if p.partialMatch then b.toNat / 2 ^ (8 - p.plen) = p.value.toNat / 2 ^ (8 - p.plen) else b = p.value := by
  rw [idMatch, beq_iff_eq, idMask, show (0xFF : Byte) = BitVec.allOnes 8 by decide]
  split
  · exact and_topMask_eq_iff b p.value _
  · rw [BitVec.and_allOnes, BitVec.and_allOnes]

theorem idAccepts_iff {d : MessageDefinition} {b : Byte} :
    idAccepts d b = true ↔ ∀ p, d.identifier = some p → idMatch p b = true := by
  unfold idAccepts
  cases d.identifier <;> simp

theorem verMatch_iff {d : MessageDefinition} {v : Version} :
    verMatch d v = true ↔ d.vmin.toNat ≤ v.toNat ∧ v.toNat ≤ d.vmax.toNat := by
  simp only [verMatch, Bool.and_eq_true, decide_eq_true_eq, BitVec.le_def]

namespace Machine

/-! ### Membership after each step -/

/-- Settles O19: `seedSet` filters the rising list of all indices by `patMatch`. -/
theorem seedSelectsPatterns : Obligations.SeedSelectsPatterns := by
  intro s f hf
  have hexec : exec .seed s = .next { s with cand := seedSet s.cat f } := by
    change withRead (readCf s) _ = _
    rw [readCf_ok.mpr hf, withRead_ok]
  exact ⟨_, hexec, seedSet_rising s.cat f, fun i => by simp only [mem_seedSet, patMatch_iff]⟩

/-- Settles O20: each step filters by its predicate, and the predicates' lemmas say what each asks of an entry. -/
theorem applyStepsKeepMatches : Obligations.ApplyStepsKeepMatches := by
  intro s b
  refine ⟨⟨headerSet s.cat b s.cand, rfl, fun i => ?_⟩, ⟨identifierSet s.cat b s.cand, rfl, fun i => ?_⟩,
    ⟨versionSet s.cat s.ver s.cand, rfl, fun i => ?_⟩⟩
  · simp only [mem_headerSet, hdrMatch_iff]
  · simp only [mem_identifierSet, idAccepts_iff, idMatch_iff]
  · simp only [mem_versionSet, verMatch_iff]

/-! ### The apply steps as narrowings (spec/41_candidate_filter.md R85) -/

/-- Keep the survivors whose entry satisfies `P` at the machine's version. -/
def narrow (P : MessageDefinition → Version → Bool) (s : State) : State :=
  { s with cand := s.cand.filter (entryHolds s.cat (fun d => P d s.ver)) }

theorem narrow_sublist (P : MessageDefinition → Version → Bool) (s : State) : (narrow P s).cand.Sublist s.cand :=
  List.filter_sublist

/-- A narrowing reads the catalog and the version, which no narrowing writes. -/
theorem narrow_comm (P Q : MessageDefinition → Version → Bool) (s : State) :
    narrow P (narrow Q s) = narrow Q (narrow P s) := by
  simp only [narrow, List.filter_comm]

theorem narrow_idem (P : MessageDefinition → Version → Bool) (s : State) : narrow P (narrow P s) = narrow P s := by
  simp only [narrow, List.filter_filter, Bool.and_self]

theorem IsApplyStep.exec_eq_narrow {i : Instr} (h : IsApplyStep i) :
    ∃ P, ∀ s, exec i s = .next (narrow P s) := by
  rcases h with ⟨b, rfl⟩ | ⟨b, rfl⟩ | rfl
  · exact ⟨fun d _ => hdrMatch d b, fun s => rfl⟩
  · exact ⟨fun d _ => idAccepts d b, fun s => rfl⟩
  · exact ⟨verMatch, fun s => rfl⟩

/-- Settles O21: every apply step is a narrowing. -/
theorem applyStepsShrinkRepeatCommute : Obligations.ApplyStepsShrinkRepeatCommute := by
  intro s i j hi hj
  obtain ⟨P, hP⟩ := hi.exec_eq_narrow
  obtain ⟨Q, hQ⟩ := hj.exec_eq_narrow
  have repeated : exec i (narrow P s) = .next (narrow P s) := by rw [hP, narrow_idem]
  have commuted : exec i (narrow Q s) = .next (narrow Q (narrow P s)) := by rw [hP, narrow_comm]
  exact ⟨narrow P s, narrow Q s, narrow Q (narrow P s), hP s, repeated, fun _ hk => (narrow_sublist P s).subset hk,
    (narrow_sublist P s).length_le, hQ s, hQ _, commuted⟩

/-! ### The result (spec/41_candidate_filter.md R84) -/

/-- Settles O22: `finalize` answers `finalizeSet`, whose value the number of members decides. -/
theorem finalizeNeedsExactlyOne : Obligations.FinalizeNeedsExactlyOne := fun s =>
  ⟨finalizeSet s.cand, rfl, fun h => finalizeSet_none.mpr (List.eq_nil_of_length_eq_zero h), finalizeSet_ambiguous.mpr,
    fun _ => finalizeSet_unique.mpr⟩

end Machine

end Sys2Proof

/-! PROOFS. The call-byte step (O10, O11, O12, O14, O15, O16, O17). The parts, in order: the two ways an accepted call byte
ends; the byte of a row as a CallFrame; the rows; `call_step`. -/

namespace Sys2Proof.Machine

/-! ### The two ways an accepted call byte ends (spec/42_frame_assembler.md R97 to R100) -/

/-- Whether a frame follows the call byte of `f`: always after FramedMessage, after Unknown by the policy. -/
def FrameFollows (f : CallFrame) (s : State) : Prop :=
  f.kind = .framedMessage ∨ (f.kind = .unknown ∧ s.policy = .expectHeader)

theorem unknownOutcome_of_emitCallOnly {s : State} (h : s.policy = .emitCallOnly) :
    unknownOutcome s = callOnlyOutcome s := by
  simp only [unknownOutcome, h]

theorem unknownOutcome_of_expectHeader {s : State} (h : s.policy = .expectHeader) :
    unknownOutcome s = .next { s with st := .waitingForHeader } := by
  simp only [unknownOutcome, h]

theorem acceptCall_of_frameFollows {f : CallFrame} {s : State} (h : FrameFollows f s) :
    acceptCall f s = .next { beginDecode f s with st := .waitingForHeader } := by
  rcases h with hkind | ⟨hkind, hpolicy⟩
  · simp only [acceptCall, hkind]
  · simp only [acceptCall, hkind]
    exact unknownOutcome_of_expectHeader hpolicy

theorem acceptCall_of_bare {f : CallFrame} {s : State} (h : ¬ FrameFollows f s) :
    acceptCall f s = .next (emitOutcome (callOnlyRecord f) (beginDecode f s)) := by
  have emits : callOnlyOutcome (beginDecode f s) = .next (emitOutcome (callOnlyRecord f) (beginDecode f s)) :=
    callOnlyOutcome_of_cf rfl
  cases hkind : f.kind with
  | sendRequest | requestResend | broadcastFeedbackPoll => simp only [acceptCall, hkind, emits]
  | framedMessage => exact absurd (.inl hkind) h
  | unknown =>
    have hpolicy : (beginDecode f s).policy = .emitCallOnly := by
      cases hp : s.policy with
      | emitCallOnly => exact hp
      | expectHeader => exact absurd (.inr ⟨hkind, hp⟩) h
    simp only [acceptCall, hkind, unknownOutcome_of_emitCallOnly hpolicy, emits]

/-! ### The byte of a row as a CallFrame (spec/40_call_classifier.md R76) -/

theorem callFrame_callByte (kind : CallKind) (p : BitVec 1) (ty : TypeCode) {a : Address} (t : Timestamp) {bcast : Bool}
    (h : (a == 0) = bcast) :
    callFrame kind (callByte p ty a) t = { kind := kind, addr := a, raw := callByte p ty a, ts := t, bcast := bcast } := by
  rw [callFrame, addr_callByte, isBcast_callByte, h]

/-- The condition of the addressed rows (R69, R72, R73). -/
theorem addressed_of_wellFormed {valid : Bool} {a : Address} (h : (valid && a != 0) = true) :
    valid = true ∧ (a == 0) = false := by
  simpa using h

/-! ### The rows -/

/-- Settles O10: of the three kinds no frame follows. -/
theorem bareCallsEmitCallFrame : Obligations.BareCallsEmitCallFrame := by
  intro s p a t emits
  have row {i : Instr} {f : CallFrame} (hi : exec i s = acceptCall f s) (bare : ¬ FrameFollows f s) : emits i f :=
    fun _ => hi.trans (acceptCall_of_bare bare)
  refine ⟨?_, fun hw => ?_, ?_⟩
  · exact row (congrArg (acceptCall · s) (callFrame_callByte .sendRequest p 2 t rfl)) (by simp [FrameFollows])
  · obtain ⟨-, addressed⟩ := addressed_of_wellFormed hw
    exact row (congrArg (acceptCall · s) (callFrame_callByte .requestResend p 0 t addressed)) (by simp [FrameFollows]) hw
  · exact row (congrArg (acceptCall · s) (callFrame_callByte .broadcastFeedbackPoll p 1 t rfl)) (by simp [FrameFollows])

/-- The entries that the byte of a row seeds, by the row's type code (R80). -/
theorem mem_seedSet_callByte {c : Catalog} {f : CallFrame} {p : BitVec 1} {ty : TypeCode} {a : Address}
    (hraw : f.raw = callByte p ty a) {j : Nat} :
    j ∈ seedSet c f ↔ ∃ d, c.entries[j]? = some d ∧ d.cbp.type = ty ∧ d.cbp.broadcast = f.bcast
      ∧ (d.cbp.parityRequired = true → hasValidParity (callByte p ty a) = true) := by
  have hty : (callByte p ty a).extractLsb' 5 2 = ty := tc_callByte p ty a
  simp only [mem_seedSet, patMatch_iff, hraw, hty]

/-- Settles O11: the broadcast form has invalid parity and the addressed form valid parity, so parity excludes an entry
exactly in the broadcast form. -/
theorem framedCallsAwaitHeader : Obligations.FramedCallsAwaitHeader := by
  intro s p a t starts
  have row {i : Instr} {f : CallFrame} {a' : Address} (hi : exec i s = acceptCall f s) (hkind : f.kind = .framedMessage)
      (hraw : f.raw = callByte p 3 a') (hparity : hasValidParity (callByte p 3 a') = true ↔ f.bcast = false) : starts i f :=
    fun _ => ⟨seedSet s.cat f, hi.trans (acceptCall_of_frameFollows (.inl hkind)), seedSet_rising _ _,
      fun j => by rw [mem_seedSet_callByte hraw, hparity]⟩
  refine ⟨?_, fun hw => ?_⟩
  · exact row (congrArg (acceptCall · s) (callFrame_callByte .framedMessage p 3 t rfl)) rfl (a' := 0) rfl
      (by rw [parity_relaxed p]; simp)
  · obtain ⟨valid, addressed⟩ := addressed_of_wellFormed hw
    exact row (congrArg (acceptCall · s) (callFrame_callByte .framedMessage p 3 t addressed)) rfl rfl
      (by simp only [valid]) hw

/-- Settles O12: the policy decides whether a frame follows; the byte's parity is valid, so it excludes no entry. -/
theorem unknownCallFollowsPolicy : Obligations.UnknownCallFollowsPolicy := by
  intro s p a t hw f r
  obtain ⟨valid, addressed⟩ := addressed_of_wellFormed hw
  have hi : exec (.unknown p a t) s = acceptCall f s :=
    congrArg (acceptCall · s) (callFrame_callByte .unknown p 1 t addressed)
  refine ⟨fun hp => ?_, fun hp => ⟨seedSet s.cat f, ?_, fun j => ?_⟩⟩
  · exact hi.trans (acceptCall_of_bare (by simp [FrameFollows, f, hp]))
  · exact hi.trans (acceptCall_of_frameFollows (.inr ⟨rfl, hp⟩))
  · rw [mem_seedSet_callByte (f := f) (ty := 1) (a := a) rfl]
    simp only [valid, implies_true, and_true, f]

/-- Settles O17: the policy alone decides what `unknown_call` does. -/
theorem callBranchOperations : Obligations.CallBranchOperations := by
  intro s f r emitted
  have emits (hf : s.cf = some f) : callOnlyOutcome s = .next emitted := callOnlyOutcome_of_cf hf
  exact ⟨emits, fun hf hp => (unknownOutcome_of_emitCallOnly hp).trans (emits hf), unknownOutcome_of_expectHeader, rfl⟩

/-! ### `call_step` (R97) -/

/-- Settles O14: `exec_decodeCall`, the row's fields put together being the byte again. -/
theorem callStepRunsItsRow : Obligations.CallStepRunsItsRow :=
  fun b t s => (exec_decodeCall b t s).symm

/-- Settles O15: `takeCall` by the result of the classification, its frame by `takeCall_frame`. -/
theorem callStepAlwaysCompletes : Obligations.CallStepAlwaysCompletes := by
  intro b t s
  obtain ⟨u, hu, -⟩ := takeCall_lands b t s
  have frame := takeCall_frame hu
  refine ⟨u, hu, frame.ver, frame.machine, frame.interface, ?_⟩
  cases hc : classifyCall b t with
  | frame f =>
    rw [takeCall, hc] at hu
    simp only
    split_ifs with follows
    · cases hu.symm.trans (acceptCall_of_frameFollows follows)
      exact ⟨rfl, rfl, rfl, rfl, rfl⟩
    · cases hu.symm.trans (acceptCall_of_bare follows)
      exact ⟨rfl, rfl, ⟨rfl, rfl, rfl, rfl, rfl⟩, callOnlyRecord f, ⟨rfl, rfl⟩, rfl, rfl, rfl⟩
  | parityError | unclassifiedCallError =>
    rw [takeCall, hc] at hu
    cases hu.symm.trans (rejectCall_of_failRecord rfl)
    exact ⟨rfl, rfl, ⟨rfl, rfl, rfl, rfl, rfl⟩, _, ⟨rfl, rfl⟩, rfl, rfl, rfl, rfl, rfl⟩

/-- Settles O16: each outcome overwrites the working state, `st` and `fr`, and the branch is taken by the byte and the
policy. -/
theorem callStepForgetsOldDecode : Obligations.CallStepForgetsOldDecode := by
  intro b t s st fr cf cand buf len need
  change takeCall b t _ = takeCall b t s
  unfold takeCall
  split
  · rename_i f _
    by_cases follows : FrameFollows f s
    · rw [acceptCall_of_frameFollows follows]
      exact acceptCall_of_frameFollows follows
    · rw [acceptCall_of_bare follows]
      exact acceptCall_of_bare follows
  · rfl
  · rfl

end Sys2Proof.Machine

/-! PROOFS. Dispatch and the data phase (O41, O42, O44, O31, O32, O60). The parts, in order: BYTE and the assembler state; a
step on a sample that raises one event; `data_step`; the bytes of the data phase. -/

namespace Sys2Proof.Machine

/-! ### BYTE and the assembler state (spec/42_frame_assembler.md R96) -/

theorem execByte_of_atCall {s : State} (h : AtCall s) (b : Byte) (t : Timestamp) : execByte b t s = takeCall b t s := by
  rcases h with hst | hst | hst <;> simp only [execByte, hst]

theorem execByte_of_waitingForHeader {s : State} (h : s.st = .waitingForHeader) (b : Byte) (t : Timestamp) :
    execByte b t s = takeHeader b s := by
  simp only [execByte, h]

theorem execByte_of_waitingForIdentifier {s : State} (h : s.st = .waitingForIdentifier) (b : Byte) (t : Timestamp) :
    execByte b t s = takeIdentifier b s := by
  simp only [execByte, h]

theorem execByte_of_processingData {s : State} (h : s.st = .processingData) (b : Byte) (t : Timestamp) :
    execByte b t s = .refused .transientState := by
  simp only [execByte, h]

theorem execByte_of_waitingForData {s : State} (h : s.st = .waitingForData) (b : Byte) (t : Timestamp) :
    execByte b t s = takeData b s := by
  simp only [execByte, h]

/-- Settles O41: `execByte` by the state, and it completes by `execByte_lands`. -/
theorem byteDispatchesOnState : Obligations.ByteDispatchesOnState := by
  intro b t s
  have complete (inv : StateInv s) : ∃ u, execByte b t s = .next u := by
    obtain ⟨u, hu, -⟩ := execByte_lands inv b t
    exact ⟨u, hu⟩
  exact ⟨fun h => execByte_of_atCall h b t, fun h => execByte_of_waitingForHeader h b t,
    fun h => execByte_of_waitingForIdentifier h b t, fun h => execByte_of_waitingForData h b t,
    fun h => execByte_of_processingData h b t, complete⟩

/-! ### A step on a sample that raises one event (spec/10_state.md R19) -/

theorem runEvents_one (e : Event) (s : State) : runEvents [e] s = runEvent e s := by
  simp only [runEvents]
  cases runEvent e s <;> rfl

/-- The state in which a step runs its sample's events: the samples to come are `ps`, the output port is clear. -/
def takeSample (ps : List Ports) (s : State) : State := { s with inp := ps, out := none }

theorem StateInv.takeSample {s : State} (h : StateInv s) (ps : List Ports) : StateInv (takeSample ps s) :=
  h.withInterface s.ver ps none

theorem step_of_oneEvent {s : State} {p : Ports} {ps : List Ports} {e : Event} (hinp : s.inp = p :: ps)
    (he : portEvents p = [e]) : step s = runEvent e (takeSample ps s) := by
  simp only [step, hinp, stepPorts, he, runEvents_one, takeSample]

theorem runEvent_of_decode {s : State} {e : Event} {i : Instr} (h : decodeEvent s.st e = .instr i) :
    runEvent e s = exec i s := by
  simp only [runEvent, h]

/-- Settles O42: the one event runs on the state with its sample taken. -/
theorem stepRunsDecodedInstruction : Obligations.StepRunsDecodedInstruction :=
  fun _ _ _ _ _ hinp he hdec => (step_of_oneEvent hinp he).trans (runEvent_of_decode hdec)

theorem atCallPosition_iff (s : State) : atCallPosition s.st = true ↔ AtCall s := by
  simp only [atCallPosition, AtCall, Bool.or_eq_true, beq_iff_eq, or_assoc]

/-- Where `presentCallByte` leaves `st`, the next byte is a call byte. -/
theorem presentCallByte_atCallPosition (b : Byte) (s : State) : atCallPosition (presentCallByte b s).st = true := by
  unfold presentCallByte
  split
  · assumption
  · rfl

/-- Settles O44: the word's byte is the one sample that `presentCallByte` puts on the input, met at a call position. -/
theorem tableWordRunsItsRow : Obligations.TableWordRunsItsRow := by
  intro s w
  have hdec : decodeEvent (presentCallByte (BitVec.ofNat 8 w) s).st (.byte (BitVec.ofNat 8 w) 0)
      = .instr (decodeCall (BitVec.ofNat 8 w) 0) :=
    decodeByte_of_atCallPosition (presentCallByte_atCallPosition _ s) _ _
  refine ⟨decodeCall (BitVec.ofNat 8 w) 0, (presentCallByte (BitVec.ofNat 8 w) s).st, rfl, ?_, fun h => ?_, fun h => ?_⟩
  · rw [State.withFetchWord, if_pos rfl]
    exact stepRunsDecodedInstruction (presentCallByte (BitVec.ofNat 8 w) s) _ _ _ _ rfl (portEvents_eventPorts _) hdec
  · exact if_pos ((atCallPosition_iff s).mpr h)
  · exact if_neg (mt (atCallPosition_iff s).mp h)

/-! ### `data_step` (spec/42_frame_assembler.md R104) -/

/-- The state in which `data_step` has stored and counted its byte. -/
def collect (b : Byte) (s : State) : State :=
  { s with buf := s.buf.write s.len.toNat b, len := BitVec.ofNat 5 (s.len.toNat + 1), need := s.need - 1 }

theorem collect_len {s : State} (h : s.len.toNat < bufCap) (b : Byte) : (collect b s).len.toNat = s.len.toNat + 1 :=
  toNat_count h

theorem collect_need {s : State} (h : 1 ≤ s.need.toNat) (b : Byte) : (collect b s).need.toNat = s.need.toNat - 1 := by
  have : (s.need - 1).toNat = s.need.toNat - 1 := by bv_omega
  exact this

theorem collect_read_same (b : Byte) (s : State) : (collect b s).buf.read s.len.toNat = some b :=
  Memory.read_write_same _ _ _

theorem collect_read_other (b : Byte) (s : State) (a : Nat) (h : a ≠ s.len.toNat) :
    (collect b s).buf.read a = s.buf.read a :=
  Memory.read_write_other _ _ _ _ h.symm

theorem takeData_of_last {s : State} (hlt : s.len.toNat < bufCap) (hneed : s.need = 1) (b : Byte) :
    takeData b s = processFrame (collect b s) := by
  rw [takeData_eq b s hlt]
  exact if_pos (by simp [hneed])

theorem takeData_of_more {s : State} (hlt : s.len.toNat < bufCap) (hneed : 1 < s.need.toNat) (b : Byte) :
    takeData b s = .next (collect b s) := by
  have more : (collect b s).need ≠ 0 := fun e => by
    have hcount := collect_need (Nat.le_of_lt hneed) b
    rw [e] at hcount
    simp only [BitVec.ofNat_eq_ofNat, BitVec.toNat_ofNat, Nat.zero_mod] at hcount
    omega
  rw [takeData_eq b s hlt]
  exact if_neg more

/-- Settles O31: above 1, `need` does not reach 0. -/
theorem dataStepCollects : Obligations.DataStepCollects := fun s b hlt hneed =>
  ⟨_, _, _, takeData_of_more hlt hneed b, collect_len hlt b, collect_need (Nat.le_of_lt hneed) b, collect_read_same b s,
    collect_read_other b s⟩

/-- Settles O32: at 1, `need` reaches 0. -/
theorem lastDataByteProcesses : Obligations.LastDataByteProcesses := by
  intro s b hlt hneed
  have last : collect b s = { s with buf := (collect b s).buf, len := (collect b s).len, need := 0 } := by
    simp [collect, hneed]
  exact ⟨_, _, (takeData_of_last hlt hneed b).trans (congrArg processFrame last), collect_len hlt b, collect_read_same b s,
    collect_read_other b s⟩

/-! ### The bytes of the data phase (R104, R109) -/

theorem core_run_succ {s u : State} (h : step s = .next u) (n : Nat) :
    Sys2Proof.core.run (n + 1) s = Sys2Proof.core.run n u := by
  have hstep : Sys2Proof.core.step s = .next u := h
  simp only [Host.Core.run, hstep]

/-- In the data phase a sample of one byte is a `data_step`. -/
theorem step_of_dataByte {s : State} {b : Byte} {x : Timestamp} {ps : List Ports} (hst : s.st = .waitingForData)
    (hinp : s.inp = eventPorts (.byte b x) :: ps) : step s = takeData b (takeSample ps s) := by
  rw [step_of_oneEvent hinp (portEvents_eventPorts _), runEvent_byte]
  exact execByte_of_waitingForData (s := takeSample ps s) hst b x

/-- While bytes are missing there is room for one (R24). -/
theorem StateInv.data_room {s : State} (h : StateInv s) (hst : s.st = .waitingForData) :
    s.len.toNat < bufCap ∧ 1 ≤ s.need.toNat := by
  obtain ⟨-, -, hle, hneed, -⟩ := h.table.data hst
  exact ⟨Nat.lt_of_le_of_lt hle (by decide), hneed⟩

theorem bufBytes_collect {s : State} (h : BufWf s) (b : Byte) : bufBytes (collect b s) = bufBytes s ++ [b] :=
  h.bufBytes_write b rfl

/-- The last byte of the data phase ends the decode with one record, of the bytes collected and itself. -/
theorem StateInv.takeData_ends {s : State} (h : StateInv s) (hst : s.st = .waitingForData) (hneed : s.need.toNat = 1)
    (b : Byte) : ∃ (t : State) (r : OutputRecord), takeData b s = .next t ∧ Produced r s t ∧ (t.st = .emit ∨ t.st = .fail)
      ∧ t.inp = s.inp ∧ r.raw = bufBytes s ++ [b] := by
  obtain ⟨hlt, -⟩ := h.data_room hst
  obtain ⟨t, ht, -⟩ := takeData_lands h hst b
  have hprocess := ht
  rw [takeData_of_last hlt (BitVec.eq_of_toNat_eq hneed)] at hprocess
  obtain ⟨r, ends, record⟩ := processFrame_outcome hprocess
  have hraw : bufBytes (collect b s) = r.raw :=
    Except.ok.inj ((BufWf.frameBytes (s := collect b s) (h.bufWf.write rfl hlt)).symm.trans record.raw)
  exact ⟨t, r, ht, ends.produced, ends.outcome.imp (fun ⟨st, _⟩ => st) (fun ⟨st, _⟩ => st),
    (takeData_frame ht).interface.1, by rw [← hraw, bufBytes_collect h.bufWf]⟩

/-- A byte before the last is collected, and the invariant holds again. -/
theorem StateInv.takeData_collects {s : State} (h : StateInv s) (hst : s.st = .waitingForData) (hneed : 1 < s.need.toNat)
    (b : Byte) : takeData b s = .next (collect b s) ∧ StateInv (collect b s)
      ∧ (collect b s).need.toNat = s.need.toNat - 1 := by
  have hcollect := takeData_of_more (h.data_room hst).1 hneed b
  obtain ⟨t, ht, inv⟩ := takeData_lands h hst b
  cases hcollect.symm.trans ht
  exact ⟨hcollect, inv, collect_need (Nat.le_of_lt hneed) b⟩

/-- Settles O60, by induction on the bytes: each but the last is collected, so the rest of them is what is needed still. -/
theorem dataPhaseEndsAfterNeededBytes : Obligations.DataPhaseEndsAfterNeededBytes := by
  intro s bs ps
  induction bs generalizing s with
  | nil =>
    intro inv hst hcount
    obtain ⟨-, hneed⟩ := inv.data_room hst
    simp only [List.length_nil] at hcount
    omega
  | cons x bs ih =>
    obtain ⟨b, time⟩ := x
    intro inv hst hcount hinp
    have inv0 := inv.takeSample (bs.map (fun x => eventPorts (.byte x.1 x.2)) ++ ps)
    have hstep := step_of_dataByte hst hinp
    rw [← hcount]
    cases bs with
    | nil =>
      obtain ⟨t, r, ht, ⟨hout, hlog⟩, hend, htinp, hraw⟩ := inv0.takeData_ends hst hcount.symm b
      exact ⟨t, r, core_run_succ (hstep.trans ht) 0, hlog, hout, hend, htinp, hraw⟩
    | cons y bs =>
      have hmore : 1 < s.need.toNat := by
        rw [← hcount, List.length_cons, List.length_cons]
        omega
      obtain ⟨hcollect, inv1, hneed1⟩ := inv0.takeData_collects hst hmore b
      have hcount1 := hneed1.trans (Nat.sub_eq_of_eq_add hcount.symm)
      obtain ⟨t, r, hrun, hlog, hout, hend, htinp, hraw⟩ := ih _ inv1 hst hcount1.symm rfl
      refine ⟨t, r, ?_, hlog, hout, hend, htinp, ?_⟩
      · rw [List.length_cons, core_run_succ (hstep.trans hcollect), ← hcount1, hrun]
      · rw [hraw, bufBytes_collect inv0.bufWf, List.append_assoc]
        rfl

end Sys2Proof.Machine

/-! PROOFS. The frame steps (O23 to O30, O33 to O36). The parts, in order: reading the frame's bytes; `header_step` and
`identifier_step` up to `enter_data`; the frame length the survivors share and `enter_data`; how those three fail; `carve`,
`emit_message` and `process`. -/

namespace Sys2Proof.Machine

/-! ### Reading the frame's bytes -/

/-- A slot that holds a value is one below `len` (R13). -/
theorem BufWf.readSlot_of_read {s : State} (hb : BufWf s) {a : Nat} {b : Byte} (h : s.buf.read a = some b) :
    Machine.readSlot s a = .ok b := by
  have hget : (bufBytes s)[a]? = some b := (Memory.read_range hb a).symm.trans h
  obtain ⟨hlt, -⟩ := List.getElem?_eq_some_iff.mp hget
  exact readSlot_ok.mpr ⟨hb.length ▸ hlt, h⟩

theorem readSpan_cons {s : State} {a n : Nat} {b : Byte} {bs : List Byte} (hslot : readSlot s a = .ok b)
    (hspan : readSpan s (a + 1) n = .ok bs) : readSpan s a (n + 1) = .ok (b :: bs) := by
  simp only [readSpan, hslot, hspan]

theorem frameBytes_of_len_one {s : State} {h : Byte} (hlen : s.len = 1) (h0 : s.buf.read 0 = some h) :
    frameBytes s = .ok [h] := by
  have hcount : s.len.toNat = 1 := by rw [hlen]; rfl
  rw [frameBytes, hcount]
  exact readSpan_cons (readSlot_ok.mpr ⟨by omega, h0⟩) rfl

theorem frameBytes_of_len_two {s : State} {h k : Byte} (hlen : s.len = 2) (h0 : s.buf.read 0 = some h)
    (h1 : s.buf.read 1 = some k) : frameBytes s = .ok [h, k] := by
  have hcount : s.len.toNat = 2 := by rw [hlen]; rfl
  rw [frameBytes, hcount]
  exact readSpan_cons (readSlot_ok.mpr ⟨by omega, h0⟩) (readSpan_cons (readSlot_ok.mpr ⟨by omega, h1⟩) rfl)

/-! ### `header_step` and `identifier_step` (spec/42_frame_assembler.md R101, R102) -/

theorem filter_entryHolds_eq_nil {c : Catalog} {P : MessageDefinition → Bool} {cand : List Nat} :
    cand.filter (entryHolds c P) = [] ↔ ∀ i ∈ cand, ∀ d, c.entries[i]? = some d → P d = false := by
  simp only [List.filter_eq_nil_iff, entryHolds_iff, not_exists, not_and, Bool.not_eq_true]

/-- The state in which `header_step` has stored its byte and filtered the set. -/
def storeHeader (b : Byte) (s : State) : State :=
  { s with buf := s.buf.write 0 b, len := 1, cand := headerSet s.cat b s.cand }

/-- The state in which `identifier_step` has stored its byte and filtered the set. -/
def storeIdentifier (b : Byte) (s : State) : State :=
  { s with buf := s.buf.write 1 b, len := 2, cand := identifierSet s.cat b s.cand }

theorem storeHeader_readSlot (b : Byte) (s : State) : readSlot (storeHeader b s) 0 = .ok b :=
  readSlot_ok.mpr ⟨by simp [storeHeader], Memory.read_write_same _ _ _⟩

theorem storeIdentifier_readSlot {s : State} {h : Byte} (h0 : s.buf.read 0 = some h) (b : Byte) :
    readSlot (storeIdentifier b s) 0 = .ok h :=
  readSlot_ok.mpr ⟨by simp [storeIdentifier], (Memory.read_write_other _ _ _ _ (by decide)).trans h0⟩

section
variable {b : Byte} {s : State}

theorem takeHeader_of_noMatch (h : headerSet s.cat b s.cand = []) :
    takeHeader b s = raiseFail .noMatchingDefinition (storeHeader b s) := by
  rw [takeHeader_eq]
  exact if_pos h

theorem takeHeader_of_someIdentifier (h : someIdentifier s.cat (headerSet s.cat b s.cand) = true) :
    takeHeader b s = .next { storeHeader b s with st := .waitingForIdentifier } := by
  have hne : headerSet s.cat b s.cand ≠ [] := fun e => by
    rw [e] at h
    cases h
  rw [takeHeader_eq]
  exact (if_neg hne).trans (if_pos h)

theorem takeHeader_of_noIdentifier (hne : headerSet s.cat b s.cand ≠ [])
    (h : someIdentifier s.cat (headerSet s.cat b s.cand) ≠ true) :
    takeHeader b s = enterDataPhase (storeHeader b s) := by
  rw [takeHeader_eq]
  exact (if_neg hne).trans (if_neg h)

theorem takeIdentifier_of_noMatch (h : identifierSet s.cat b s.cand = []) :
    takeIdentifier b s = raiseFail .noMatchingDefinition (storeIdentifier b s) := by
  rw [takeIdentifier_eq]
  exact if_pos h

theorem takeIdentifier_of_match (hne : identifierSet s.cat b s.cand ≠ []) :
    takeIdentifier b s = enterDataPhase (storeIdentifier b s) := by
  rw [takeIdentifier_eq]
  exact if_neg hne

end

/-- Settles O23: the survivor named is in the filtered set, so some identifier is still to come. -/
theorem headerStepAwaitsIdentifier : Obligations.HeaderStepAwaitsIdentifier := by
  rintro s b ⟨i, hi, d, hd, hmatch, hid⟩
  have some_identifier : someIdentifier s.cat (headerSet s.cat b s.cand) = true :=
    someIdentifier_iff.mpr ⟨i, mem_headerSet.mpr ⟨hi, d, hd, hmatch⟩, d, hd, Option.isSome_iff_ne_none.mpr hid⟩
  exact ⟨_, _, takeHeader_of_someIdentifier some_identifier, Memory.read_write_same _ _ _,
    fun a ha => Memory.read_write_other _ _ _ _ ha.symm, fun i => mem_headerSet⟩

/-! ### The frame length the survivors share (spec/42_frame_assembler.md R103) -/

/-- There are survivors, and each has the frame length `n` under header `h`. -/
def ShareLength (c : Catalog) (h : Byte) (cand : List Nat) (n : Nat) : Prop :=
  cand ≠ [] ∧ ∀ i ∈ cand, ∃ d, c.entries[i]? = some d ∧ flen d h = n

/-- Two survivors have different frame lengths under header `h`. -/
def LengthsDiffer (c : Catalog) (h : Byte) (cand : List Nat) : Prop :=
  ∃ i ∈ cand, ∃ j ∈ cand, ∃ d e, c.entries[i]? = some d ∧ c.entries[j]? = some e ∧ flen d h ≠ flen e h

theorem ShareLength.agreement {c : Catalog} {h : Byte} {cand : List Nat} {n : Nat} (hn : ShareLength c h cand n) :
    agreement (candLengths c h cand) = .common n := by
  obtain ⟨hne, hl⟩ := hn
  obtain ⟨i, hi⟩ := List.exists_mem_of_ne_nil _ hne
  obtain ⟨d, hd, hlen⟩ := hl i hi
  refine agreement_common.mpr ⟨List.ne_nil_of_mem (mem_candLengths.mpr ⟨i, hi, d, hd, hlen⟩), fun k hk => ?_⟩
  obtain ⟨j, hj, e, he, rfl⟩ := mem_candLengths.mp hk
  obtain ⟨e', he', hlen'⟩ := hl j hj
  cases he.symm.trans he'
  exact hlen'

theorem ShareLength.le_bufCap {c : Catalog} {h : Byte} {cand : List Nat} {n : Nat} (hn : ShareLength c h cand n) :
    n ≤ bufCap := by
  obtain ⟨hne, hl⟩ := hn
  obtain ⟨i, hi⟩ := List.exists_mem_of_ne_nil _ hne
  obtain ⟨d, hd, rfl⟩ := hl i hi
  exact flen_le_bufCap (Catalog.entryWf_of_getElem hd) h

/-- After a filter step every survivor names an entry. -/
theorem shareLength_filter {c : Catalog} {P : MessageDefinition → Bool} {h : Byte} {cand : List Nat} {n : Nat}
    (hne : cand.filter (entryHolds c P) ≠ [])
    (hl : ∀ i ∈ cand.filter (entryHolds c P), ∀ d, c.entries[i]? = some d → flen d h = n) :
    ShareLength c h (cand.filter (entryHolds c P)) n := by
  refine ⟨hne, fun i hi => ?_⟩
  obtain ⟨d, hd, -⟩ := entryHolds_iff.mp (List.mem_filter.mp hi).2
  exact ⟨d, hd, hl i hi d hd⟩

theorem LengthsDiffer.agreement {c : Catalog} {h : Byte} {cand : List Nat} (hd : LengthsDiffer c h cand) :
    agreement (candLengths c h cand) = .mixed := by
  obtain ⟨i, hi, j, hj, d, e, hd, he, hne⟩ := hd
  exact agreement_mixed (mem_candLengths.mpr ⟨i, hi, d, hd, rfl⟩) (mem_candLengths.mpr ⟨j, hj, e, he, rfl⟩) hne

section
variable {s : State} {n : Nat}

theorem commitLength_of_lt (hn : n ≤ bufCap) (h : s.len.toNat < n) :
    ∃ need, commitLength n s = .next { s with st := .waitingForData, need := need } ∧ need.toNat = n - s.len.toNat := by
  refine ⟨BitVec.ofNat 5 (n - s.len.toNat), ?_, toNat_count ((Nat.sub_le _ _).trans hn)⟩
  rw [commitLength, if_neg (by omega), if_neg (by omega)]

theorem commitLength_of_eq (h : s.len.toNat = n) : commitLength n s = processFrame s := by
  rw [commitLength, if_neg (by omega), if_pos h.symm]

theorem commitLength_of_gt (h : n < s.len.toNat) : commitLength n s = raiseFail .noMatchingDefinition s := by
  rw [commitLength, if_pos h]

end

section
variable {s : State} {h : Byte}

theorem enterDataPhase_of_shareLength {n : Nat} (hslot : readSlot s 0 = .ok h) (hn : ShareLength s.cat h s.cand n) :
    enterDataPhase s = commitLength n s := by
  simp only [enterDataPhase, hslot, withRead_ok, hn.agreement]

/-- The version filter that a disagreement calls for (R103 (3)). -/
def breakTie (s : State) : State := { s with cand := versionSet s.cat s.ver s.cand }

theorem enterDataPhase_of_tieBreak {n : Nat} (hslot : readSlot s 0 = .ok h) (differ : LengthsDiffer s.cat h s.cand)
    (hn : ShareLength s.cat h (versionSet s.cat s.ver s.cand) n) :
    enterDataPhase s = commitLength n (breakTie s) := by
  simp only [enterDataPhase, hslot, withRead_ok, differ.agreement, hn.agreement, breakTie]

theorem enterDataPhase_of_noVersion (hslot : readSlot s 0 = .ok h) (differ : LengthsDiffer s.cat h s.cand)
    (hnone : versionSet s.cat s.ver s.cand = []) :
    enterDataPhase s = raiseFail .noMatchingDefinition (breakTie s) := by
  have hempty : agreement (candLengths s.cat h (versionSet s.cat s.ver s.cand)) = .empty := by
    rw [hnone]
    rfl
  simp only [enterDataPhase, hslot, withRead_ok, differ.agreement, hempty, breakTie]

theorem enterDataPhase_of_tieRemains (hslot : readSlot s 0 = .ok h) (differ : LengthsDiffer s.cat h s.cand)
    (remain : LengthsDiffer s.cat h (versionSet s.cat s.ver s.cand)) :
    enterDataPhase s = raiseFail .ambiguousDefinition (breakTie s) := by
  simp only [enterDataPhase, hslot, withRead_ok, differ.agreement, remain.agreement, breakTie]

end

/-- Settles O25: no survivor of the filter has an identifier, and the length they share is committed to. -/
theorem headerStepEntersDataPhase : Obligations.HeaderStepEntersDataPhase := by
  rintro s b ⟨i, hi, d, hd, hmatch⟩ noIdentifier
  have hne : headerSet s.cat b s.cand ≠ [] := List.ne_nil_of_mem (mem_headerSet.mpr ⟨hi, d, hd, hmatch⟩)
  have no_identifier : someIdentifier s.cat (headerSet s.cat b s.cand) ≠ true := fun e => by
    obtain ⟨j, hj, d, hd, hid⟩ := someIdentifier_iff.mp e
    obtain ⟨hj, d', hd', hmatch⟩ := mem_headerSet.mp hj
    cases hd.symm.trans hd'
    exact Option.isSome_iff_ne_none.mp hid (noIdentifier j hj d hd hmatch)
  have enters := takeHeader_of_noIdentifier hne no_identifier
  refine ⟨_, _, enters, Memory.read_write_same _ _ _, fun a ha => Memory.read_write_other _ _ _ _ ha.symm,
    fun e => by rw [e]; rfl, fun i => mem_headerSet, fun n hl hn => ?_⟩
  have share := shareLength_filter hne hl
  obtain ⟨need, hcommit, hneed⟩ := commitLength_of_lt (s := storeHeader b s) share.le_bufCap hn
  exact ⟨need, enters.trans ((enterDataPhase_of_shareLength (storeHeader_readSlot b s) share).trans hcommit), hneed⟩

/-- Settles O26: the survivor named keeps the filtered set from being empty, and slot 0 still holds the header. -/
theorem identifierStepEntersDataPhase : Obligations.IdentifierStepEntersDataPhase := by
  rintro s b ⟨i, hi, d, hd, hmatch⟩
  have hne : identifierSet s.cat b s.cand ≠ [] := List.ne_nil_of_mem (mem_identifierSet.mpr ⟨hi, d, hd, hmatch⟩)
  have enters := takeIdentifier_of_match hne
  refine ⟨_, _, enters, Memory.read_write_same _ _ _, fun a ha => Memory.read_write_other _ _ _ _ ha.symm,
    fun h e => by rw [e]; rfl, fun i => mem_identifierSet, fun h n h0 hl => ?_⟩
  have share := shareLength_filter hne hl
  have commits := enters.trans (enterDataPhase_of_shareLength (storeIdentifier_readSlot h0 b) share)
  refine ⟨fun hn => ?_, fun hn => commits.trans (commitLength_of_eq hn.symm)⟩
  obtain ⟨need, hcommit, hneed⟩ := commitLength_of_lt (s := storeIdentifier b s) share.le_bufCap hn
  exact ⟨need, commits.trans hcommit, hneed⟩

/-- Settles O28: survivors that share a length leave no disagreement, so `ver` is not read. -/
theorem enterDataCommitsCommonLength : Obligations.EnterDataCommitsCommonLength := by
  intro s h n hlen h0 hne hl
  have share : ShareLength s.cat h s.cand n := ⟨hne, hl⟩
  have commits := enterDataPhase_of_shareLength (readSlot_ok.mpr ⟨hlen, h0⟩) share
  refine ⟨fun hlt => ?_, fun heq => commits.trans (commitLength_of_eq heq)⟩
  obtain ⟨need, hcommit, hneed⟩ := commitLength_of_lt share.le_bufCap hlt
  exact ⟨need, commits.trans hcommit, hneed⟩

/-- The survivors whose range contains `ver` share the length `n` that R103 (4) commits to. -/
theorem shareLength_versionSet {c : Catalog} {v : Version} {h : Byte} {cand : List Nat} {n : Nat}
    (hsome : ∃ i ∈ cand, ∃ d, c.entries[i]? = some d ∧ verMatch d v = true)
    (hl : ∀ i ∈ cand, ∀ d, c.entries[i]? = some d → verMatch d v = true → flen d h = n) :
    ShareLength c h (versionSet c v cand) n := by
  obtain ⟨i, hi, hd⟩ := hsome
  refine shareLength_filter (List.ne_nil_of_mem (mem_versionSet.mpr ⟨hi, hd⟩)) fun j hj d hd => ?_
  obtain ⟨hj, d', hd', hver⟩ := mem_versionSet.mp hj
  cases hd.symm.trans hd'
  exact hl j hj d hd hver

/-- Settles O29: the survivors of the version filter share the length that is committed to. -/
theorem enterDataVersionTieBreak : Obligations.EnterDataVersionTieBreak := by
  intro s h n hlen h0 differ hsome hl
  have share := shareLength_versionSet hsome hl
  have commits := enterDataPhase_of_tieBreak (readSlot_ok.mpr ⟨hlen, h0⟩) differ share
  refine ⟨_, fun i => mem_versionSet, fun hlt => ?_, fun heq => commits.trans (commitLength_of_eq heq)⟩
  obtain ⟨need, hcommit, hneed⟩ := commitLength_of_lt (s := breakTie s) share.le_bufCap hlt
  exact ⟨need, commits.trans hcommit, hneed⟩

/-! ### Where the frame steps fail (spec/60_exceptions.md R144 rows 3 and 4) -/

/-- Settles O24: the frame is the one byte stored. -/
theorem headerStepWithoutMatchFails : Obligations.HeaderStepWithoutMatchFails := by
  intro s b f hf hnone r
  have hframe : readFrame (storeHeader b s) = .ok (f, [b]) :=
    readFrame_ok.mpr ⟨hf, frameBytes_of_len_one rfl (Memory.read_write_same _ _ _)⟩
  exact (takeHeader_of_noMatch (filter_entryHolds_eq_nil.mpr hnone)).trans (raiseFail_of_readFrame hframe)

/-- Settles O27: the frame is the header that slot 0 holds and the byte stored. -/
theorem identifierStepWithoutMatchFails : Obligations.IdentifierStepWithoutMatchFails := by
  intro s b h f hf h0 hnone r
  have hframe : readFrame (storeIdentifier b s) = .ok (f, [h, b]) :=
    readFrame_ok.mpr ⟨hf, frameBytes_of_len_two rfl ((Memory.read_write_other _ _ _ _ (by decide)).trans h0)
      (Memory.read_write_same _ _ _)⟩
  exact (takeIdentifier_of_noMatch (filter_entryHolds_eq_nil.mpr hnone)).trans (raiseFail_of_readFrame hframe)

/-- Settles O30: the version filter touches `cand` alone, so the frame reported is the buffer's whichever clause fails. -/
theorem enterDataFailures : Obligations.EnterDataFailures := by
  intro s h f hf hb h0 disagree fails
  have hslot := hb.readSlot_of_read h0
  have noMatch : enterDataPhase s = raiseFail .noMatchingDefinition s → fails .noMatchingDefinition :=
    fun e => e.trans (raiseFail_of_readFrame (hb.readFrame hf))
  have hframe : readFrame (breakTie s) = .ok (f, bufBytes s) := BufWf.readFrame (s := breakTie s) hb hf
  have noMatchAfter : enterDataPhase s = raiseFail .noMatchingDefinition (breakTie s) → fails .noMatchingDefinition :=
    fun e => e.trans (raiseFail_of_readFrame hframe)
  have ambiguousAfter : enterDataPhase s = raiseFail .ambiguousDefinition (breakTie s) → fails .ambiguousDefinition :=
    fun e => e.trans (raiseFail_of_readFrame hframe)
  refine ⟨fun differ hnone => ?_, ?_, fun hne hshort agree => ?_, fun differ hsome n hl hshort => ?_⟩
  · exact noMatchAfter (enterDataPhase_of_noVersion hslot differ (filter_entryHolds_eq_nil.mpr hnone))
  · rintro ⟨i, hi, j, hj, d, e, hd, he, hverd, hvere, hlen⟩
    exact ambiguousAfter (enterDataPhase_of_tieRemains hslot ⟨i, hi, j, hj, d, e, hd, he, hlen⟩
      ⟨i, mem_versionSet.mpr ⟨hi, d, hd, hverd⟩, j, mem_versionSet.mpr ⟨hj, e, he, hvere⟩, d, e, hd, he, hlen⟩)
  · obtain ⟨i, hi⟩ := List.exists_mem_of_ne_nil _ hne
    obtain ⟨d, hd, hlt⟩ := hshort i hi
    have share : ShareLength s.cat h s.cand (flen d h) := by
      refine ⟨hne, fun j hj => ?_⟩
      obtain ⟨e, he, -⟩ := hshort j hj
      exact ⟨e, he, by_contra fun hlen => agree ⟨j, hj, i, hi, e, d, he, hd, hlen⟩⟩
    exact noMatch ((enterDataPhase_of_shareLength hslot share).trans (commitLength_of_gt hlt))
  · have commits := enterDataPhase_of_tieBreak hslot differ (shareLength_versionSet hsome hl)
    exact noMatchAfter (commits.trans (commitLength_of_gt hshort))

/-! ### `carve` and `emit_message` (spec/42_frame_assembler.md R106, R108) -/

/-- What `carve` cuts for `d` from the frame in the buffer, under header `h`. -/
def cutMessage (d : MessageDefinition) (h : Byte) (s : State) : Carved where
  header := if d.header.isSome then some h else none
  ident := if d.identifier.isSome then s.buf.read 1 else none
  payload := ((bufBytes s).drop (1 + idlen d)).take (dlen d h)

/-- On a frame of the definition's length every field is readable (R108). -/
theorem carveFields_of_flen {s : State} {d : MessageDefinition} {h : Byte} (hb : BufWf s) (h0 : s.buf.read 0 = some h)
    (hl : flen d h = s.len.toNat) : carveFields d s = .ok (cutMessage d h s) := by
  have fieldsFit : 1 + idlen d + dlen d h ≤ s.len.toNat := by
    unfold flen at hl
    omega
  rw [carveFields_of_bufWf hb h0 fieldsFit, cutMessage, Memory.read_range hb 1, bufBytes]

/-- Settles O36: the fields are `cutMessage`, read slot by slot. -/
theorem carveCutsFields : Obligations.CarveCutsFields := by
  intro s i d h hb hd h0 hl
  have hexec : exec (.carve i) s = .next (answer (.message (cutMessage d h s)) s) := by
    change execCarve i s = _
    simp only [execCarve, readEntry_ok.mpr hd, carveFields_of_flen hb h0 hl, withRead_ok]
  refine ⟨cutMessage d h s, hexec, fun hh => ?_, fun hh => ?_, fun hi => ?_, fun hi => ?_, ?_, fun k hk => ?_⟩
  · exact if_pos (Option.isSome_iff_ne_none.mpr hh)
  · exact if_neg (by simp [hh])
  · exact if_pos (Option.isSome_iff_ne_none.mpr hi)
  · exact if_neg (by simp [hi])
  · exact length_payload_of_flen (hb.length.trans hl.symm)
  · rw [Memory.read_range hb, cutMessage, List.getElem?_take_of_lt hk, List.getElem?_drop, bufBytes]

/-- Settles O35: with the slots those below `len`, the frame's bytes are the buffer's. -/
theorem emitMessageCompletes : Obligations.EmitMessageCompletes :=
  fun _ _ _ _ hf hb => messageOutcome_of_readFrame (hb.readFrame hf)

/-! ### `process` (spec/42_frame_assembler.md R105) -/

/-- The transient state of `process()`: ProcessingData, the set filtered by the version. -/
def processing (s : State) : State := { s with st := .processingData, cand := versionSet s.cat s.ver s.cand }

theorem processFrame_of_none {s : State} (h : versionSet s.cat s.ver s.cand = []) :
    processFrame s = raiseFail .noMatchingDefinition (processing s) := by
  simp only [processFrame, finalizeSet_none.mpr h, processing]

theorem processFrame_of_many {s : State} (h : 2 ≤ (versionSet s.cat s.ver s.cand).length) :
    processFrame s = raiseFail .ambiguousDefinition (processing s) := by
  simp only [processFrame, finalizeSet_ambiguous.mpr h, processing]

theorem processFrame_of_unique {s : State} {i : Nat} (h : versionSet s.cat s.ver s.cand = [i]) :
    processFrame s = judgeMessage i (processing s) := by
  simp only [processFrame, finalizeSet_unique.mpr h, processing]

theorem two_le_length_of_mem {l : List Nat} {i j : Nat} (hi : i ∈ l) (hj : j ∈ l) (hne : i ≠ j) : 2 ≤ l.length := by
  match l with
  | [] => cases hi
  | [k] => exact absurd ((List.mem_singleton.mp hi).trans (List.mem_singleton.mp hj).symm) hne
  | _ :: _ :: _ => exact Nat.le_add_left 2 _

/-- A set that lists each index once (R15) and has one survivor in the version's range is a singleton after the filter. -/
theorem CandWf.versionSet_singleton {s : State} (hc : CandWf s) {i : Nat} {d : MessageDefinition} (hi : i ∈ s.cand)
    (hd : s.cat.entries[i]? = some d) (hver : verMatch d s.ver = true)
    (only : ∀ j ∈ s.cand, ∀ e, s.cat.entries[j]? = some e → verMatch e s.ver = true → j = i) :
    versionSet s.cat s.ver s.cand = [i] := by
  have mem_iff (j : Nat) : j ∈ versionSet s.cat s.ver s.cand ↔ j = i := by
    constructor
    · intro hj
      obtain ⟨hj, e, he, hvere⟩ := mem_versionSet.mp hj
      exact only j hj e he hvere
    · rintro rfl
      exact mem_versionSet.mpr ⟨hi, d, hd, hver⟩
  have nodup : (versionSet s.cat s.ver s.cand).Nodup := (hc.1.imp Nat.ne_of_lt).filter _
  exact List.perm_singleton.mp ((List.perm_ext_iff_of_nodup nodup (List.nodup_singleton i)).mpr (by simpa using mem_iff))

theorem checksumHolds_iff (bs : List Byte) : checksumHolds bs = true ↔ bs.getLast? = some (xorBytes bs.dropLast) := by
  rw [checksumHolds, beq_iff_eq]

/-- Judging a frame of the definition's length: only a required checksum that is wrong fails it (R105, R121). -/
theorem judgeMessage_of_flen {s : State} {i : Nat} {d : MessageDefinition} {h : Byte} (hb : BufWf s)
    (hd : s.cat.entries[i]? = some d) (h0 : s.buf.read 0 = some h) (hl : flen d h = s.len.toNat) :
    judgeMessage i s =
      if d.requiresChecksum = true ∧ checksumHolds (bufBytes s) = false then
        raiseFail (.checksumError i (cutMessage d h s)) s
      else messageOutcome i (cutMessage d h s) s := by
  have begun : 1 ≤ s.len.toNat := by
    unfold flen at hl
    omega
  simp only [judgeMessage, readEntry_ok.mpr hd, carveFields_of_flen hb h0 hl, checksumOk_of_bufWf hb begun, withRead_ok]
  by_cases required : d.requiresChecksum = true
  · cases good : checksumHolds (bufBytes s) <;> simp [required]
  · simp [required]

/-- Settles O33. -/
theorem processEmitsUniqueMessage : Obligations.ProcessEmitsUniqueMessage := by
  intro s f h i d hf hb hc hi hd hver only h0 hl hck r
  have good : ¬ (d.requiresChecksum = true ∧ checksumHolds (bufBytes s) = false) := fun ⟨required, bad⟩ =>
    absurd ((checksumHolds_iff _).mpr (hck required)) (ne_true_of_eq_false bad)
  have judged := (judgeMessage_of_flen (s := processing s) hb hd h0 hl).trans (if_neg good)
  exact (processFrame_of_unique (hc.versionSet_singleton hi hd hver only)).trans
    (judged.trans (messageOutcome_of_readFrame (BufWf.readFrame (s := processing s) hb hf)))

/-- Settles O34: the three results of `finalize`, the last with a wrong checksum. -/
theorem processFailures : Obligations.ProcessFailures := by
  intro s f h hf hb hc h0 fails
  have hframe : readFrame (processing s) = .ok (f, bufBytes s) := BufWf.readFrame (s := processing s) hb hf
  refine ⟨fun hnone => ?_, ?_, fun i hi d hd hver only hl required hbad => ?_⟩
  · exact (processFrame_of_none (filter_entryHolds_eq_nil.mpr hnone)).trans (raiseFail_of_readFrame hframe)
  · rintro ⟨i, hi, j, hj, hne, d, e, hd, he, hverd, hvere⟩
    have many := two_le_length_of_mem (mem_versionSet.mpr ⟨hi, d, hd, hverd⟩) (mem_versionSet.mpr ⟨hj, e, he, hvere⟩) hne
    exact (processFrame_of_many many).trans (raiseFail_of_readFrame hframe)
  · have bad : d.requiresChecksum = true ∧ checksumHolds (bufBytes s) = false :=
      ⟨required, Bool.eq_false_iff.mpr (mt (checksumHolds_iff _).mp hbad)⟩
    have judged := (judgeMessage_of_flen (s := processing s) hb hd h0 hl).trans (if_pos bad)
    exact (processFrame_of_unique (hc.versionSet_singleton hi hd hver only)).trans
      (judged.trans (raiseFail_of_readFrame hframe))

end Sys2Proof.Machine

/-! PROOFS. The checksum validator family (O37, O38, O39). The parts, in order: the exclusive-or of a list of bytes; the
predicate as "the whole exclusive-or is zero"; `checksum_ok`; bit flips. -/

namespace Sys2Proof

/-! ### The exclusive-or of a list of bytes (spec/00_scope.md R8) -/

theorem xorBytes_append (xs ys : List Byte) : xorBytes (xs ++ ys) = xorBytes xs ^^^ xorBytes ys := by
  induction xs with
  | nil => simp [xorBytes]
  | cons x xs ih => simp [xorBytes, ih, BitVec.xor_assoc]

theorem xorBytes_concat (xs : List Byte) (c : Byte) : xorBytes (xs ++ [c]) = xorBytes xs ^^^ c := by
  simp [xorBytes_append, xorBytes]

/-- The running exclusive-or of R120, taken from the left, is `xorBytes`. -/
theorem foldl_xor_eq_xorBytes (xs : List Byte) : xs.foldl (fun x y => x ^^^ y) 0 = xorBytes xs := by
  induction xs using List.reverseRecOn with
  | nil => rfl
  | append_singleton xs c ih => rw [List.foldl_concat, ih, xorBytes_concat]

/-- The exclusive-or of the bytes takes up the mask by which one of them changes. -/
theorem xorBytes_set_xor {bs : List Byte} {i : Nat} {x : Byte} (h : bs[i]? = some x) (m : Byte) :
    xorBytes (bs.set i (x ^^^ m)) = xorBytes bs ^^^ m := by
  induction bs generalizing i with
  | nil => simp at h
  | cons b bs ih =>
    cases i with
    | zero =>
      obtain rfl : b = x := by simpa using h
      simp only [List.set_cons_zero, xorBytes, BitVec.xor_assoc, BitVec.xor_comm m]
    | succ i =>
      rw [List.getElem?_cons_succ] at h
      simp only [List.set_cons_succ, xorBytes, ih h, BitVec.xor_assoc]

/-! ### The predicate (spec/43_checksum_validator.md R120, R123) -/

theorem checksumHolds_concat (xs : List Byte) (c : Byte) : checksumHolds (xs ++ [c]) = (xorBytes xs == c) := by
  rw [checksumHolds, List.getLast?_concat, List.dropLast_concat, Option.some_beq_some, BEq.comm]

/-- R123: the last byte is the exclusive-or of the others iff the two cancel. -/
theorem checksumHolds_iff_xorBytes_eq_zero {bs : List Byte} (hne : bs ≠ []) :
    checksumHolds bs = true ↔ xorBytes bs = 0 := by
  obtain ⟨xs, c, rfl⟩ := (List.eq_nil_or_concat' bs).resolve_left hne
  rw [checksumHolds_concat, beq_iff_eq, xorBytes_concat]
  exact BitVec.xor_eq_zero_iff.symm

/-- A byte changed by a mask leaves a valid checksum iff the exclusive-or of the bytes was that mask. -/
theorem checksumHolds_set_xor {bs : List Byte} {i : Nat} {x : Byte} (h : bs[i]? = some x) (m : Byte) :
    checksumHolds (bs.set i (x ^^^ m)) = true ↔ xorBytes bs = m := by
  have hne : bs.set i (x ^^^ m) ≠ [] := by
    rw [ne_eq, List.set_eq_nil_iff]
    rintro rfl
    cases h
  rw [checksumHolds_iff_xorBytes_eq_zero hne, xorBytes_set_xor h]
  exact BitVec.xor_eq_zero_iff

namespace Machine

/-! ### `checksum_ok` (R120) -/

theorem exec_checksumOk_of_bufWf {s : State} (hb : BufWf s) (hne : bufBytes s ≠ []) :
    exec .checksumOk s = .next { s with ret := some (.flag (checksumHolds (bufBytes s))) } := by
  have begun : 1 ≤ s.len.toNat := hb.length ▸ List.length_pos_iff.mpr hne
  change execChecksumOk s = _
  simp only [execChecksumOk, checksumOk_of_bufWf hb begun, withRead_ok, answer]

/-- Settles O37. -/
theorem checksumOkComparesLastByte : Obligations.ChecksumOkComparesLastByte := by
  intro s xs c hb _ hbytes
  have hne : bufBytes s ≠ [] := hbytes ▸ List.concat_ne_nil c xs
  rw [exec_checksumOk_of_bufWf hb hne, hbytes, checksumHolds_concat, foldl_xor_eq_xorBytes]

/-- Settles O38: the flag returned is the predicate on the buffer's bytes. -/
theorem checksumHoldsIffTotalXorZero : Obligations.ChecksumHoldsIffTotalXorZero := by
  intro s hb hne
  refine ⟨_, exec_checksumOk_of_bufWf hb hne, ?_⟩
  rw [foldl_xor_eq_xorBytes]
  exact checksumHolds_iff_xorBytes_eq_zero hne

end Machine

/-! ### Bit flips (R124) -/

theorem twoPow_ne_zero_of_lt {k : Nat} (hk : k < 8) : BitVec.twoPow 8 k ≠ 0 := by
  intro e
  have flipped : (BitVec.twoPow 8 k).getLsbD k = true := by simp [hk]
  simp [e] at flipped

/-- Settles O39: the bytes and their checksum cancel, one flip leaves its own bit over, the second takes it away. -/
theorem checksumDetectsOneFlip : Obligations.ChecksumDetectsOneFlip := by
  intro xs
  have cancels : xorBytes (xs ++ [xorBytes xs]) = 0 := by rw [xorBytes_concat, BitVec.xor_self]; rfl
  refine ⟨by rw [checksumHolds_concat, beq_self_eq_true], fun i k x hk hx => ⟨?_, fun j y hji hy => ?_⟩⟩
  · rw [Bool.eq_false_iff, ne_eq, checksumHolds_set_xor hx, cancels]
    exact (twoPow_ne_zero_of_lt hk).symm
  · have second : ((xs ++ [xorBytes xs]).set i (x ^^^ BitVec.twoPow 8 k))[j]? = some y :=
      (List.getElem?_set_ne hji.symm).trans hy
    rw [checksumHolds_set_xor second, xorBytes_set_xor hx, cancels]
    exact BitVec.zero_xor

end Sys2Proof

/-! PROOFS. The host events (O3, O4, O5, O43). The parts, in order: each of RESET, DISCARD and VER by its own equation; the
events that VER and `rst` leave of a sample; what those events do from any state; the order of R130. -/

namespace Sys2Proof.Machine

/-! ### RESET, DISCARD, VER (spec/44_host_events.md R127 to R129) -/

theorem exec_reset (s : State) : exec .reset s = .next { backToCall s with ver := s.verInit } := rfl

theorem exec_discard (s : State) : exec .discard s = .next (backToCall s) := rfl

theorem exec_ver (v : Version) (s : State) : exec (.ver v) s = .next { s with ver := v } := rfl

/-- Settles O3: RESET goes back to the call position and reloads `ver`. -/
theorem resetEventReloadsVersion : Obligations.ResetEventReloadsVersion := exec_reset

/-- Settles O4: DISCARD goes back to the call position, which keeps `ver`. -/
theorem discardKeepsVersion : Obligations.DiscardKeepsVersion := exec_discard

/-- Settles O5: the equation of VER. -/
theorem versionWriteOnlyWritesVersion : Obligations.VersionWriteOnlyWritesVersion := exec_ver

/-! ### The events of a sample, one after another (spec/44_host_events.md R130) -/

theorem step_of_sample {s : State} {p : Ports} {ps : List Ports} (hinp : s.inp = p :: ps) :
    step s = runEvents (portEvents p) (takeSample ps s) := by
  simp only [step, hinp, stepPorts, takeSample]

/-- The events of a sample that come after `rst` and VER in the order of R130. -/
def discardAndByte (p : Ports) : List Event :=
  (if p.discard then [.discard] else []) ++ (if p.inValid then [.byte p.inByte p.inTs] else [])

theorem portEvents_of_rst {p : Ports} (hr : p.rst = true) : portEvents p = [.reset] := by
  simp [portEvents, hr]

theorem portEvents_of_noVer {p : Ports} (hr : p.rst = false) (hv : p.verWr = false) :
    portEvents p = discardAndByte p := by
  simp [portEvents, discardAndByte, hr, hv]

theorem portEvents_of_ver {p : Ports} (hr : p.rst = false) (hv : p.verWr = true) :
    portEvents p = .ver p.verWdata :: discardAndByte p := by
  simp [portEvents, discardAndByte, hr, hv]

theorem runEvents_ver_cons (v : Version) (es : List Event) (s : State) :
    runEvents (.ver v :: es) s = runEvents es { s with ver := v } := rfl

theorem runEvents_discard_cons (es : List Event) (s : State) :
    runEvents (.discard :: es) s = runEvents es (backToCall s) := rfl

theorem runEvents_byte (b : Byte) (t : Timestamp) (s : State) : runEvents [.byte b t] s = exec (.byte b t) s := by
  rw [runEvents_one, runEvent_byte]
  rfl

/-- A byte right after a discard is a call byte. -/
theorem exec_byte_backToCall (b : Byte) (t : Timestamp) (s : State) :
    exec (.byte b t) (backToCall s) = exec (.callStep b t) (backToCall s) :=
  execByte_of_atCall (.inl (backToCall_st s)) b t

/-- What DISCARD and BYTE do from the state `u` that the events before them leave, with `x` the whole outcome: the four
cases of the two inputs. -/
structure DiscardThenByte (p : Ports) (u : State) (x : Result) : Prop where
  neither : p.discard = false → p.inValid = false → x = .next u
  byteAlone : p.discard = false → p.inValid = true → x = exec (.byte p.inByte p.inTs) u
  discardAlone : p.discard = true → p.inValid = false → x = exec .discard u
  both : p.discard = true → p.inValid = true →
    ∃ v, exec .discard u = .next v ∧ x = exec (.callStep p.inByte p.inTs) v

theorem runEvents_discardAndByte (p : Ports) (u : State) : DiscardThenByte p u (runEvents (discardAndByte p) u) where
  neither hd hb := by
    have events : discardAndByte p = [] := by simp [discardAndByte, hd, hb]
    rw [events, runEvents]
  byteAlone hd hb := by
    have events : discardAndByte p = [.byte p.inByte p.inTs] := by simp [discardAndByte, hd, hb]
    rw [events, runEvents_byte]
  discardAlone hd hb := by
    have events : discardAndByte p = [.discard] := by simp [discardAndByte, hd, hb]
    rw [events, runEvents_discard_cons, runEvents, exec_discard]
  both hd hb := by
    have events : discardAndByte p = [.discard, .byte p.inByte p.inTs] := by simp [discardAndByte, hd, hb]
    exact ⟨_, exec_discard u, by rw [events, runEvents_discard_cons, runEvents_byte, exec_byte_backToCall]⟩

/-- Settles O43: after `rst` is excluded, DISCARD and BYTE act from the sample's state or from the one VER leaves. -/
theorem simultaneousInputsInOrder : Obligations.SimultaneousInputsInOrder := by
  intro s p ps hinp s0 afterVersion
  have onlyReset (hr : p.rst = true) : step s = exec .reset s0 :=
    (step_of_oneEvent hinp (portEvents_of_rst hr)).trans (runEvent_of_decode rfl)
  have withoutVer (hr : p.rst = false) (hv : p.verWr = false) : DiscardThenByte p s0 (step s) := by
    rw [step_of_sample hinp, portEvents_of_noVer hr hv]
    exact runEvents_discardAndByte p s0
  have withVer (hr : p.rst = false) (hv : p.verWr = true) : DiscardThenByte p afterVersion (step s) := by
    rw [step_of_sample hinp, portEvents_of_ver hr hv, runEvents_ver_cons]
    exact runEvents_discardAndByte p afterVersion
  exact ⟨onlyReset, fun hr hv => (withoutVer hr hv).neither, fun hr hv => (withoutVer hr hv).byteAlone,
    fun hr hv => (withoutVer hr hv).discardAlone, fun hr hv => (withoutVer hr hv).both,
    fun hr hv => ⟨exec_ver _ _, (withVer hr hv).neither, (withVer hr hv).byteAlone, (withVer hr hv).discardAlone,
      (withVer hr hv).both⟩⟩

end Sys2Proof.Machine

/-! PROOFS. The exceptions family (O56, O40). The parts, in order: the failure entry, cause by cause; the survivors under
STRONG_INTEGRITY; what an operation does to the two places that can show AmbiguousDefinition; the operations on a byte, the
host events, one step. -/

namespace Sys2Proof

/-! ### What two definitions that match the same bytes share (spec/20_memory.md R33) -/

theorem patMatch_broadcast {d : MessageDefinition} {f : CallFrame} (h : patMatch d f = true) :
    d.cbp.broadcast = f.bcast := by
  simp only [patMatch, Bool.and_eq_true, beq_iff_eq] at h
  obtain ⟨⟨-, hb⟩, -⟩ := h
  exact hb

theorem idAccepts_of_none {d : MessageDefinition} (h : d.identifier = none) (k : Byte) : idAccepts d k = true := by
  simp [idAccepts, h]

namespace Machine

/-! ### The failure entry (spec/60_exceptions.md R143, R144) -/

/-- Settles O40: a classification failure reads nothing of the state; with the slots those below `len`, the frame's bytes
are the buffer's. -/
theorem failureEntryRecords : Obligations.FailureEntryRecords := by
  intro s enters
  refine ⟨fun _ _ => rfl, fun _ _ => rfl, fun f hf hb => ?_⟩
  have hframe := hb.readFrame hf
  exact ⟨raiseFail_of_readFrame hframe, raiseFail_of_readFrame hframe, fun _ _ => raiseFail_of_readFrame hframe⟩

/-! ### The survivors under STRONG_INTEGRITY -/

/-- Past the header, two survivors match some header and identifier byte together: those seen so far, and any identifier
byte where neither has an identifier (R15). -/
theorem MidFrame.match_together {s : State} (m : MidFrame s) (hid : IdentifierSeen s) {i j : Nat} {d e : MessageDefinition}
    (hi : i ∈ s.cand) (hj : j ∈ s.cand) (hd : s.cat.entries[i]? = some d) (he : s.cat.entries[j]? = some e) :
    ∃ h k, hdrMatch d h = true ∧ hdrMatch e h = true ∧ idAccepts d k = true ∧ idAccepts e k = true := by
  obtain ⟨h, h0, hmd⟩ := m.header i hi d hd
  obtain ⟨h', h0', hme⟩ := m.header j hj e he
  cases h0.symm.trans h0'
  have ⟨k, hkd, hke⟩ : ∃ k, idAccepts d k = true ∧ idAccepts e k = true := by
    rcases hid i hi d hd, hid j hj e he with ⟨hnd | ⟨k, h1, hkd⟩, hne | ⟨k', h1', hke⟩⟩
    · exact ⟨0, idAccepts_of_none hnd 0, idAccepts_of_none hne 0⟩
    · exact ⟨k', idAccepts_of_none hnd k', hke⟩
    · exact ⟨k, hkd, idAccepts_of_none hne k⟩
    · cases h1.symm.trans h1'
      exact ⟨k, hkd, hke⟩
  exact ⟨h, k, hmd, hme, hkd, hke⟩

/-- The version filter leaves at most one survivor. -/
def VersionDecides (s : State) : Prop := (versionSet s.cat s.ver s.cand).length ≤ 1

/-- The key fact of R139: past the header the survivors match the same bytes, so no version is in the range of two. -/
theorem MidFrame.versionDecides {s : State} (m : MidFrame s) (hid : IdentifierSeen s) (strong : StrongIntegrity s.cat) :
    VersionDecides s := by
  unfold VersionDecides
  by_cases hnil : versionSet s.cat s.ver s.cand = []
  · simp [hnil]
  · obtain ⟨i, hi⟩ := List.exists_mem_of_ne_nil _ hnil
    obtain ⟨hi, d, hd, hvd⟩ := mem_versionSet.mp hi
    obtain ⟨f, hf, hpd⟩ := m.pattern i hi d hd
    have only : ∀ j ∈ s.cand, ∀ e, s.cat.entries[j]? = some e → verMatch e s.ver = true → j = i := by
      intro j hj e he hve
      obtain ⟨f', hf', hpe⟩ := m.pattern j hj e he
      cases hf.symm.trans hf'
      by_contra hne
      exact strong j i e d hne he hd ((patMatch_type hpe).trans (patMatch_type hpd).symm)
        ((patMatch_broadcast hpe).trans (patMatch_broadcast hpd).symm) (m.match_together hid hj hi he hd)
        s.ver ⟨hve, hvd⟩
    simp [m.candWf.versionSet_singleton hi hd hvd only]

/-- Filtering by the version first, as `enter_data()` does on a disagreement (R103 (3)), keeps the version decisive. -/
theorem VersionDecides.breakTie {s : State} (h : VersionDecides s) : VersionDecides (breakTie s) :=
  (versionSet_sublist _ _ _).length_le.trans h

theorem agreement_ne_mixed {ns : List Nat} (h : ns.length ≤ 1) : agreement ns ≠ .mixed := by
  match ns with
  | [] => simp [agreement]
  | [_] => simp [agreement]
  | _ :: _ :: _ => simp at h

/-- Where the version decides, no disagreement on the length survives the version filter (R103 (4)). -/
theorem VersionDecides.agreement_ne_mixed {s : State} (h : VersionDecides s) (b : Byte) :
    agreement (candLengths s.cat b (versionSet s.cat s.ver s.cand)) ≠ .mixed :=
  Machine.agreement_ne_mixed ((List.length_filterMap_le _ _).trans h)

/-! ### Where AmbiguousDefinition can show: `fr` and the output port -/

/-- From `s` to `t` no AmbiguousDefinition is produced: neither `fr` nor the output port of `t` shows one that `s` did
not. -/
structure NoNewAmbiguity (s t : State) : Prop where
  reason : t.fr = some .ambiguousDefinition → s.fr = some .ambiguousDefinition
  record : ∀ r, t.out = some r → r.reason = some .ambiguousDefinition → s.out = some r

theorem NoNewAmbiguity.trans {s u t : State} (h : NoNewAmbiguity s u) (h' : NoNewAmbiguity u t) : NoNewAmbiguity s t :=
  ⟨fun e => h.reason (h'.reason e), fun r hr e => h.record r (h'.record r hr e) e⟩

/-- What leaves `fr` clear or alone and the output port alone. -/
theorem NoNewAmbiguity.of_out {s t : State} (hfr : t.fr = none ∨ t.fr = s.fr) (hout : t.out = s.out) :
    NoNewAmbiguity s t where
  reason e := hfr.elim (fun h => nomatch h.symm.trans e) (fun h => h.symm.trans e)
  record _ hr _ := hout ▸ hr

/-- The end of a decode with a record that gives another reason, or none. -/
theorem Ends.noNewAmbiguity {s t : State} {r : OutputRecord} (e : Ends s t r)
    (h : r.reason ≠ some .ambiguousDefinition) : NoNewAmbiguity s t where
  reason hfr := by
    rcases e.outcome with ⟨-, -, kept⟩ | ⟨-, -, taken, -⟩
    · exact kept ▸ hfr
    · exact absurd (taken ▸ hfr) h
  record r' hr' hamb := by
    cases hr'.symm.trans e.produced.1
    exact absurd hamb h

theorem Ends.noNewAmbiguity_of_ok {s t : State} {r : OutputRecord} (e : Ends s t r) (ok : r.ok = true) :
    NoNewAmbiguity s t :=
  e.noNewAmbiguity (by simp [e.record.okReason.mp ok])

theorem failReason_ambiguous {c : FailCause} : failReason c = .ambiguousDefinition ↔ c = .ambiguousDefinition := by
  cases c <;> simp [failReason]

theorem raiseFail_noNewAmbiguity {c : FailCause} {s t : State} (h : raiseFail c s = .next t)
    (hc : c ≠ .ambiguousDefinition) : NoNewAmbiguity s t := by
  obtain ⟨r, hr, e⟩ := raiseFail_ends h
  obtain ⟨-, -, hreason⟩ := failRecord_spec hr
  exact e.noNewAmbiguity (by simpa [hreason, failReason_ambiguous] using hc)

/-! ### The operations on a byte -/

theorem judgeMessage_noNewAmbiguity {i : Nat} {s t : State} (h : judgeMessage i s = .next t) : NoNewAmbiguity s t := by
  obtain ⟨d, m, -, -, ⟨h, -⟩ | ⟨h, -, -⟩⟩ := judgeMessage_next h
  · obtain ⟨f, bs, -, -, rfl⟩ := messageOutcome_next h
    exact (emitOutcome_ends s (messageRecord_wf f i m bs) rfl).noNewAmbiguity_of_ok rfl
  · exact raiseFail_noNewAmbiguity h nofun

/-- `process()` finds no survivor, or one (R105). -/
theorem processFrame_noNewAmbiguity {s t : State} (hv : VersionDecides s) (h : processFrame s = .next t) :
    NoNewAmbiguity s t := by
  have enters : NoNewAmbiguity s (processing s) := .of_out (.inr rfl) rfl
  rcases Nat.le_one_iff_eq_zero_or_eq_one.mp hv with hnone | hone
  · rw [processFrame_of_none (List.length_eq_zero_iff.mp hnone)] at h
    exact enters.trans (raiseFail_noNewAmbiguity h nofun)
  · obtain ⟨i, hi⟩ := List.length_eq_one_iff.mp hone
    rw [processFrame_of_unique hi] at h
    exact enters.trans (judgeMessage_noNewAmbiguity h)

theorem commitLength_noNewAmbiguity {n : Nat} {s t : State} (hv : VersionDecides s) (h : commitLength n s = .next t) :
    NoNewAmbiguity s t := by
  unfold commitLength at h
  split_ifs at h
  · exact raiseFail_noNewAmbiguity h nofun
  · exact processFrame_noNewAmbiguity hv h
  · cases h
    exact .of_out (.inr rfl) rfl

/-- `enter_data()` fails with AmbiguousDefinition only on a disagreement that the version leaves (R103, R139). -/
theorem enterDataPhase_noNewAmbiguity {s t : State} (hv : VersionDecides s) (h : enterDataPhase s = .next t) :
    NoNewAmbiguity s t := by
  have filters : NoNewAmbiguity s (breakTie s) := .of_out (.inr rfl) rfl
  obtain ⟨k, -, h⟩ := withRead_next h
  split at h
  · exact raiseFail_noNewAmbiguity h nofun
  · exact commitLength_noNewAmbiguity hv h
  · simp only at h
    split at h
    · exact filters.trans (raiseFail_noNewAmbiguity h nofun)
    · exact absurd ‹_› (hv.agreement_ne_mixed k)
    · exact filters.trans (commitLength_noNewAmbiguity hv.breakTie h)

/-- A byte in WaitingForHeader (R101): `enter_data()` follows where no survivor has an identifier. -/
theorem StateInv.takeHeader_noNewAmbiguity {b : Byte} {s t : State} (h : StateInv s) (strong : StrongIntegrity s.cat)
    (hst : s.st = .waitingForHeader) (ht : takeHeader b s = .next t) : NoNewAmbiguity s t := by
  have stores : NoNewAmbiguity s (storeHeader b s) := .of_out (.inr rfl) rfl
  have m : MidFrame (storeHeader b s) := h.midFrame_header hst b
  obtain ⟨s1, rfl, ⟨-, ht⟩ | ⟨-, -, rfl⟩ | ⟨-, noId, ht⟩⟩ := takeHeader_next ht
  · exact stores.trans (raiseFail_noNewAmbiguity ht nofun)
  · exact .of_out (.inr rfl) rfl
  · have seen : IdentifierSeen (storeHeader b s) := fun i hi d hd => .inl <| by
      by_contra hident
      have some_identifier := someIdentifier_iff.mpr ⟨i, hi, d, hd, Option.isSome_iff_ne_none.mpr hident⟩
      exact absurd some_identifier (ne_true_of_eq_false noId)
    exact stores.trans (enterDataPhase_noNewAmbiguity (m.versionDecides seen strong) ht)

/-- A byte in WaitingForIdentifier (R102): the survivors accept it. -/
theorem StateInv.takeIdentifier_noNewAmbiguity {b : Byte} {s t : State} (h : StateInv s) (strong : StrongIntegrity s.cat)
    (hst : s.st = .waitingForIdentifier) (ht : takeIdentifier b s = .next t) : NoNewAmbiguity s t := by
  have stores : NoNewAmbiguity s (storeIdentifier b s) := .of_out (.inr rfl) rfl
  obtain ⟨-, hlen, -⟩ := h.table.identifier hst
  have stored := (h.midFrame (.inl hst)).store b s.need (a := 1) (by simp [hlen]) (by decide)
  have m : MidFrame (storeIdentifier b s) := stored.keepSurvivors List.filter_sublist s.st s.need
  have seen : IdentifierSeen (storeIdentifier b s) := fun i hi d hd => .inr <| by
    obtain ⟨-, e, he, hacc⟩ := mem_identifierSet.mp hi
    cases hd.symm.trans he
    exact ⟨b, Memory.read_write_same _ _ _, hacc⟩
  obtain ⟨s1, rfl, ⟨-, ht⟩ | ⟨-, ht⟩⟩ := takeIdentifier_next ht
  · exact stores.trans (raiseFail_noNewAmbiguity ht nofun)
  · exact stores.trans (enterDataPhase_noNewAmbiguity (m.versionDecides seen strong) ht)

/-- A byte in WaitingForData (R104): slot 1 keeps the identifier byte that the survivors accepted. -/
theorem StateInv.takeData_noNewAmbiguity {b : Byte} {s t : State} (h : StateInv s) (strong : StrongIntegrity s.cat)
    (hst : s.st = .waitingForData) (ht : takeData b s = .next t) : NoNewAmbiguity s t := by
  have collects : NoNewAmbiguity s (collect b s) := .of_out (.inr rfl) rfl
  obtain ⟨hlt, s1, rfl, ⟨-, ht⟩ | ⟨-, rfl⟩⟩ := takeData_next ht
  · have m : MidFrame (collect b s) := (h.midFrame (.inr hst)).store b (s.need - 1) rfl hlt
    have seen : IdentifierSeen (collect b s) := (h.consistent.identifier hst).imp fun d hd =>
      hd.imp id fun ⟨k, hk, hacc⟩ => ⟨k, h.bufWf.read_write rfl hk, hacc⟩
    exact collects.trans (processFrame_noNewAmbiguity (m.versionDecides seen strong) ht)
  · exact collects

theorem acceptCall_noNewAmbiguity {f : CallFrame} {s t : State} (h : acceptCall f s = .next t) : NoNewAmbiguity s t := by
  have begins : NoNewAmbiguity s (beginDecode f s) := .of_out (.inl rfl) rfl
  rcases acceptCall_next h with ⟨-, rfl⟩ | ⟨-, rfl⟩
  · exact begins.trans ((emitOutcome_ends _ (callOnlyRecord_wf f) rfl).noNewAmbiguity_of_ok rfl)
  · exact .of_out (.inl rfl) rfl

theorem rejectCall_noNewAmbiguity {c : FailCause} {s t : State} (h : rejectCall c s = .next t)
    (hc : c ≠ .ambiguousDefinition) : NoNewAmbiguity s t :=
  NoNewAmbiguity.trans (u := freshDecode s) (.of_out (.inl rfl) rfl) (raiseFail_noNewAmbiguity h hc)

/-- A call byte never fails with AmbiguousDefinition (R97, R144 rows 1 and 2). -/
theorem takeCall_noNewAmbiguity {b : Byte} {x : Timestamp} {s t : State} (h : takeCall b x s = .next t) :
    NoNewAmbiguity s t := by
  unfold takeCall at h
  split at h
  · exact acceptCall_noNewAmbiguity h
  · exact rejectCall_noNewAmbiguity h nofun
  · exact rejectCall_noNewAmbiguity h nofun

theorem StateInv.execByte_noNewAmbiguity {b : Byte} {x : Timestamp} {s t : State} (h : StateInv s)
    (strong : StrongIntegrity s.cat) (ht : execByte b x s = .next t) : NoNewAmbiguity s t := by
  rcases execByte_next ht with ht | ⟨hst, ht⟩ | ⟨hst, ht⟩ | ⟨hst, ht⟩
  · exact takeCall_noNewAmbiguity ht
  · exact h.takeHeader_noNewAmbiguity strong hst ht
  · exact h.takeIdentifier_noNewAmbiguity strong hst ht
  · exact h.takeData_noNewAmbiguity strong hst ht

/-! ### Events and steps -/

theorem StateInv.runEvent_noNewAmbiguity {e : Event} {s t : State} (h : StateInv s) (strong : StrongIntegrity s.cat)
    (ht : runEvent e s = .next t) : NoNewAmbiguity s t := by
  cases e with
  | reset | discard =>
    cases ht
    exact .of_out (.inl rfl) rfl
  | ver v =>
    cases ht
    exact .of_out (.inr rfl) rfl
  | byte b x => exact h.execByte_noNewAmbiguity strong ((runEvent_byte b x s).symm.trans ht)

/-- Each event of a sample meets the invariant and the catalog of the first (R130). -/
theorem StateInv.runEvents_noNewAmbiguity {es : List Event} {s t : State} (h : StateInv s)
    (strong : StrongIntegrity s.cat) (ht : runEvents es s = .next t) : NoNewAmbiguity s t := by
  induction es generalizing s with
  | nil =>
    cases ht
    exact .of_out (.inr rfl) rfl
  | cons e es ih =>
    obtain ⟨u, hu, adv⟩ := runEvent_advances h e
    have rest : runEvents es u = .next t := by simpa only [runEvents, hu] using ht
    exact (h.runEvent_noNewAmbiguity strong hu).trans (ih adv.inv (adv.cat ▸ strong) rest)

/-- A step starts with the output port clear. -/
theorem StateInv.step_noNewAmbiguity {s t : State} (h : StateInv s) (strong : StrongIntegrity s.cat)
    (ht : step s = .next t) : NoNewAmbiguity { s with out := none } t := by
  unfold step at ht
  split at ht
  · cases ht
    exact .of_out (.inr rfl) rfl
  · rename_i p ps _
    have taken : NoNewAmbiguity { s with out := none } (Machine.takeSample ps s) := .of_out (.inr rfl) rfl
    exact taken.trans ((h.takeSample ps).runEvents_noNewAmbiguity strong ht)

/-- Settles O56: `MidFrame.versionDecides` shuts out both places that raise AmbiguousDefinition, and the port was clear. -/
theorem strongIntegrityExcludesAmbiguity : Obligations.StrongIntegrityExcludesAmbiguity := by
  intro s t h strong ht
  have none_new := h.step_noNewAmbiguity strong ht
  exact ⟨none_new.reason, fun r hr hamb => nomatch none_new.record r hr hamb⟩

end Machine

end Sys2Proof

/-! PROOFS. The reset and hazards family (O51): progress, the other half of `stepKeepsInvariant`. -/

namespace Sys2Proof.Machine

/-- Settles O51: a step with no sample left is idle and completes. The events of a sample run one by one through states
that meet the invariant (`runEvents_advances`), where a byte never meets ProcessingData nor an unreadable register. -/
theorem invariantStepCompletes : Obligations.InvariantStepCompletes := by
  intro s h
  obtain ⟨t, ht, -⟩ := step_of_stateInv h
  exact ⟨t, ht⟩

end Sys2Proof.Machine
